-- ==== Sys2Proof/Word.lean ====
section
/-! DEFINITION. The units of the block's data: bytes, 32-bit words, byte strings
(20_memory R50, R60; 30_encoding R72). -/

namespace Sys2Proof

/-- One 8-bit byte: of a request, of a name or a text, of a transmission unit (00_scope R8 `BYTE_BITS`). -/
abbrev Byte := BitVec 8

/-- One 32-bit word: a readout word, a `u32` or an `i32` operand (00_scope R8 `WORD_BITS`, 30_encoding R72). -/
abbrev Word := BitVec 32

/-- A string of 8-bit characters: names, bit-order texts, field ids (30_encoding R72, R77). -/
abbrev ByteString := List Byte

/-- A matrix coordinate `(column, row)`, both zero-based (20_memory R52). -/
abbrev Coord := Nat × Nat

end Sys2Proof
end

