-- ==== Sys2Proof/Config.lean ====
section
/-! DEFINITION. What is fixed for one instance of the block: the chip descriptor `DESC` of 10_state R30
and the interface parameters of 00_scope R10; and the free values:
the transport's VERIFY oracle, the overflow of a cursor's word index, and what operands outside their types
stand for. -/

namespace Sys2Proof

/-- The two ProgramMatrix traversals (10_state R30 `PATTERN`, 43_matrix_encoder R180). -/
inductive Pattern where
  | rbc
  | snake
deriving DecidableEq, Repr

/-- One piece `(offset, width)` of a named sub-field (10_state R30 `LAYOUT`, 42_pixelcell R170, R171). -/
structure Piece where
  offset : Nat
  width : Nat
deriving DecidableEq, Repr

/-- The chip descriptor (10_state R30): one field per row of R30's table, in its order.
`sel` holds the function `SEL` as the finite table of its values: `SEL(dc, sc, r)` is entry
`(r * 2 + sc) * DCOLS + dc` (log 13). -/
structure Desc where
  /-- `L`, width in bits of a configuration cell. -/
  l : Nat
  /-- `DEFAULT_LATCHES`, what a new cell holds. -/
  defaultLatches : Nat
  /-- `LAYOUT`, the named sub-fields of a cell. -/
  layout : List (ByteString × List Piece)
  /-- `COLS`. -/
  cols : Nat
  /-- `ROWS`. -/
  rows : Nat
  /-- `PATTERN`. -/
  pattern : Pattern
  /-- `SP_ROWS`, the period in rows of the padding block. -/
  spRows : Nat
  /-- `PAD_BIT`. -/
  padBit : Bool
  /-- `PERIODIC_AT_ROW0`. -/
  periodicAtRow0 : Bool
  /-- `SEL` as a table. -/
  sel : List Coord
  /-- `BYTE_MSB_FIRST`. -/
  byteMsbFirst : Bool
  /-- `TAIL_FILL`. -/
  tailFill : Bool
  /-- `MAX_ATTEMPTS`. -/
  maxAttempts : Nat
  /-- `W`, the full-field width of the frame decoder. -/
  w : Nat
  /-- `L_RD`, width in bits of a decoded cell. -/
  lRd : Nat
  /-- `FRAME_START`. -/
  frameStart : Nat
  /-- `FRAME_END`. -/
  frameEnd : Nat
  /-- `COL_HDR_PATTERN`. -/
  colHdrPattern : Nat
  /-- `COL_HDR_MASK`. -/
  colHdrMask : Nat
  /-- `COL_IDX_MASK`. -/
  colIdxMask : Nat
  /-- `COL_IDX_SHIFT`. -/
  colIdxShift : Nat
deriving DecidableEq, Repr

/-- Everything that is fixed before the first operation: the descriptor and the two interface parameters
`REG_CAPACITY` and `NAME_MAX`, `none` meaning unbounded (00_scope R10, log 4). -/
structure Config where
  desc : Desc
  regCapacity : Option Nat
  nameMax : Option Nat
deriving DecidableEq, Repr

/-- DESIGN CHOICE (log 5). The transport's answer to the `k`-th VERIFY question that no answer was given
for in advance: a free value, "an oracle that answers under no law" (43_matrix_encoder R196). -/
opaque Config.verifyOracle : Nat → Bool

/-- DESIGN CHOICE (log 21). The word index an operation answers when its cursor moved past word `2^32 - 1`: a
free value, a function of the exact index; the overflow "is not specified" (10_state R40). -/
opaque Config.wordIndexOverflow : Nat → Word

/-- DESIGN CHOICE (log 10). What a cell of this width holds when its operand is a number that does not fit the
width (30_encoding R72 `cell`): a free value, of which the low bits of that width count. -/
opaque Config.openLatches : (width value : Nat) → Nat

/-- DESIGN CHOICE (log 10). The answer of PC_EQ for two cells of two widths, given as (width, latches): a free
value; 42_pixelcell R169 gives a result for "two cells of the same width" only. -/
opaque Config.openEq : Nat × Nat → Nat × Nat → Bool

/-- DESIGN CHOICE (log 24). The single cell a matrix holds at a coordinate for which its operand has these
entries, each the list of its cells, when they are not one single cell (10_state R36 "Keys unique", R38): a free
value, of which the low `L` bits count. -/
opaque Config.openSingle : Coord → List (List Nat) → Nat

/-- DESIGN CHOICE (log 24). The pair of cells a matrix holds at a coordinate for which its operand has these
entries, each the list of its cells, when they are not one pair (10_state R36 "Keys unique", R38): a free value,
of which the low `L` bits of each component count. -/
opaque Config.openPair : Coord → List (List Nat) → Nat × Nat

end Sys2Proof
end

