-- ==== Sys2Proof/Syntax.lean ====
section
/-! DEFINITION. The 29 operations of 30_encoding R73 with their operands, typed by R72. -/

namespace Sys2Proof

/-- Whether a cell is a configuration cell, `L` bits wide, or one the frame decoder produced, `L_RD` bits
wide (10_state R33; log 14). -/
inductive CellKind where
  | config
  | decoded
deriving DecidableEq, Repr

/-- A PixelCell: its kind, which fixes its width, and its latches (10_state R33). -/
structure Cell where
  kind : CellKind
  latches : Nat
deriving DecidableEq, Repr

/-- A PixelMatrix operand: a partial map from coordinates to single cells or to pairs
`(stage 1, stage 2)` (10_state R36, R38). -/
inductive Matrix where
  | single (cells : List (Coord × Nat))
  | paired (cells : List (Coord × (Nat × Nat)))
deriving DecidableEq, Repr

/-- The frame decoder's cursor: the next bit to read is bit `bi` of word `wi`, a `u32` (10_state R39; log 21). -/
structure Cursor where
  wi : Word
  bi : Fin 32
deriving DecidableEq, Repr

/-- One constructor per row of 30_encoding R73, operands in R73's order. -/
inductive Instr where
  | addParamDir (name : ByteString) (width : Word) (direction : BitVec 3) (initial : Word)
  | addParamOrd (name : ByteString) (order : ByteString) (initial : Word)
  | setParamIdx (index : Word) (value : Word)
  | setParamName (name : ByteString) (value : Word)
  | getParamIdx (index : Word)
  | getParamName (name : ByteString)
  | getWidthIdx (index : Word)
  | getWidthName (name : ByteString)
  | getOrderIdx (index : Word)
  | getOrderName (name : ByteString)
  | getName (index : Word)
  | getIdx2Name (index : Word)
  | getName2Idx (name : ByteString)
  | clear
  | genBitvec (direction : BitVec 3)
  | pcNew
  | pcSetBit (cell : Cell) (index : Word) (value : Bool)
  | pcGetBit (cell : Cell) (index : Word)
  | pcSetSubfield (cell : Cell) (offset : Word) (fieldWidth : Word) (value : Nat)
  | pcGetSubfield (cell : Cell) (offset : Word) (fieldWidth : Word)
  | pcSetNamed (cell : Cell) (field : ByteString) (value : Nat)
  | pcGetNamed (cell : Cell) (field : ByteString)
  | pcSetLatches (cell : Cell) (value : Nat)
  | pcEq (a : Cell) (b : Cell)
  | progMatrix (matrix : Matrix)
  | configureMatrix (matrix : Option Matrix) (maxAttempts : Word)
  | nextField (stream : List Word) (cursor : Cursor)
  | decodeFrame (stream : List Word)
  | splitFrame (stream : List Word)
deriving DecidableEq, Repr

end Sys2Proof
end

