-- ==== Sys2Proof/Machine/Descriptor.lean ====
section
/-! DEFINITION. Reading the chip descriptor: when it is well formed (10_state R31), the quantities the operation
rules derive from it, and the ranges it gives to operands. -/

namespace Sys2Proof.Machine

/-- `mask(n) = 2^n - 1` (00_scope R12). -/
def maskN (n : Nat) : Nat := 2 ^ n - 1

/-- `~_n x = mask(n) - (x & mask(n))` (00_scope R12). -/
def notN (n x : Nat) : Nat := maskN n - (x &&& maskN n)

/-- `NSUBCOLS = 2`, the sub-columns of a double column (00_scope R8). -/
def nSubCols : Nat := 2

/-- `DCOLS = COLS div 2`, the number of double columns (10_state R31). -/
def dcols (d : Desc) : Nat := d.cols / 2

/-- `SEL(dc, sc, r)` (43_matrix_encoder R190), read from the descriptor's table (log 13). -/
def selAt (d : Desc) (dc sc r : Nat) : Coord :=
  d.sel.getD ((r * nSubCols + sc) * dcols d + dc) (0, 0)

/-- The table of R30's default `SEL(dc, sc, r) = (2*dc + (sc xor (r mod 2)), r)` for a geometry. -/
def defaultSel (cols rows : Nat) : List Coord :=
  (List.range rows).flatMap fun r =>
    (List.range nSubCols).flatMap fun sc =>
      (List.range (cols / 2)).map fun dc => (2 * dc + (sc ^^^ (r % 2)), r)

/-- The width in bits of a cell (42_pixelcell, opening: `Lc`). -/
def cellWidth (d : Desc) : CellKind → Nat
  | .config => d.l
  | .decoded => d.lRd

/-- The pieces of a named sub-field, `none` when the id is no key of `LAYOUT` (42_pixelcell R170). -/
def layoutPieces (d : Desc) (field : ByteString) : Option (List Piece) :=
  d.layout.lookup field

/-- Two pieces share no latch bit (10_state R31). -/
def piecesDisjoint (p q : Piece) : Bool :=
  p.offset + p.width ≤ q.offset || q.offset + q.width ≤ p.offset

/-- R31 for one field: every piece is at least one bit wide and inside the cell, and no two overlap. -/
def piecesWellFormed (l : Nat) : List Piece → Bool
  | [] => true
  | p :: ps =>
    decide (1 ≤ p.width) && decide (p.offset + p.width ≤ l) && ps.all (piecesDisjoint p) &&
      piecesWellFormed l ps

/-- R31 on the cell fields: `L`, `DEFAULT_LATCHES`, `LAYOUT` (a map: its keys are distinct). -/
def cellsWellFormed (d : Desc) : Bool :=
  decide (1 ≤ d.l) && decide (d.defaultLatches < 2 ^ d.l) && decide ((d.layout.map Prod.fst).Nodup) &&
    d.layout.all (fun f => piecesWellFormed d.l f.2)

/-- R31 on `SEL`: the table has one entry per coordinate of the geometry and no entry twice, so it maps
one-to-one onto the matrix. -/
def selWellFormed (d : Desc) : Bool :=
  decide (d.sel.length = d.cols * d.rows) &&
    d.sel.all (fun c => decide (c.1 < d.cols) && decide (c.2 < d.rows)) && decide d.sel.Nodup

/-- R31 on the matrix fields; what concerns the snake pattern alone is asked of it alone. `MAX_ATTEMPTS ≥ 1`
is the range R30's table gives (90_conflicts C9). -/
def matrixWellFormed (d : Desc) : Bool :=
  decide (1 ≤ d.cols) && decide (1 ≤ d.rows) && decide (1 ≤ d.maxAttempts) &&
    match d.pattern with
    | .rbc => true
    | .snake => decide (d.cols % 2 = 0) && decide (1 ≤ d.spRows) && selWellFormed d

/-- R31 on the frame decoder's fields. -/
def decoderWellFormed (d : Desc) : Bool :=
  decide (1 ≤ d.w) && decide (d.w ≤ 32) && decide (d.w ≤ d.lRd) && decide (d.frameStart < 2 ^ d.w) &&
    decide (d.frameEnd < 2 ^ d.w) && decide (d.colHdrPattern < 2 ^ d.w) &&
    decide (d.colHdrMask < 2 ^ d.w) && decide (d.colIdxMask < 2 ^ d.w) &&
    decide (d.colHdrPattern &&& notN d.w d.colHdrMask = 0) && decide (d.colIdxShift < d.w)

/-- Well-formedness of a descriptor (10_state R31; log 9). -/
def descWellFormed (d : Desc) : Bool :=
  cellsWellFormed d && matrixWellFormed d && decoderWellFormed d

end Sys2Proof.Machine

namespace Sys2Proof

/-! ### Operands in their types (30_encoding R72) -/

/-- A cell's latches fit its width (42_pixelcell, opening: `latches < 2^Lc`). -/
def Cell.fits (d : Desc) (c : Cell) : Bool := decide (c.latches < 2 ^ Machine.cellWidth d c.kind)

/-- A matrix operand has distinct keys, cells of `L` bits, and single cells or pairs as the chip's pattern
takes them (10_state R36, R38). Keys outside the geometry are allowed and ignored (R36). -/
def Matrix.fits (d : Desc) : Matrix → Bool
  | .single cells =>
    decide (d.pattern = .snake) && decide ((cells.map Prod.fst).Nodup) &&
      cells.all (fun c => decide (c.2 < 2 ^ d.l))
  | .paired cells =>
    decide (d.pattern = .rbc) && decide ((cells.map Prod.fst).Nodup) &&
      cells.all (fun c => decide (c.2.1 < 2 ^ d.l) && decide (c.2.2 < 2 ^ d.l))

end Sys2Proof
end

