-- ==== Sys2Proof/Machine/State.lean ====
section
/-! DEFINITION. The machine's state: the registry `REG`, the only state the spec gives the block beside its
configuration (10_state R20), the configuration, and the model's own fields that carry the host interface. -/

namespace Sys2Proof.Machine

/-- A BitField, one entry of the registry (10_state R21): its width is the length of `pos`. Element `k` of
`pos` names the value bit sent at scan step `k` (R22). -/
structure Entry where
  name : ByteString
  pos : List Nat
  value : Nat
deriving DecidableEq, Repr

/-- The status of a response (60_exceptions R241), in R241's order. -/
inductive Status where
  | ok
  | eos
  | errBadWidth
  | errBadDirection
  | errBadText
  | errBadOrder
  | errBadName
  | errDupName
  | errRegFull
  | errUnknownParam
  | errValueRange
  | errCellRange
  | errUnknownField
  | errVerify
  | errCommFatal
  | errConfigFatal
  | errFrameStart
  | errColumnHeader
  | errColumnIndex
  | errFrameEnd
  | errTruncated
  | errIllegalOp
deriving DecidableEq, Repr

/-- What an error records beside its code (60_exceptions R241 column "Detail recorded", R242). -/
inductive Detail where
  | none
  | observed (value : Nat)
  | columnObserved (column : Nat) (value : Nat)
  | attempts (n : Nat)
  | fieldsSoFar (fields : List Nat)
deriving DecidableEq, Repr

/-- What ProgramMatrix produces (43_matrix_encoder R180): the chip-wide words of pattern RBC, or the bit
sequence of pattern SNAKE with its bytes. -/
inductive MatrixOut where
  | words (rows : List (List Bool))
  | bytes (bits : List Bool) (packed : List Byte)
deriving DecidableEq, Repr

/-- The results of a response, one constructor per shape of 30_encoding R73's column "Results". -/
inductive Results where
  | absent
  | int (value : Int)
  | order (positions : List Nat)
  | name (name : ByteString)
  | bits (bits : List Bool)
  | cell (cell : Cell)
  | bool (value : Bool)
  | ul (value : Nat)
  | matrixOut (out : MatrixOut)
  | attempts (n : Nat)
  | field (value : Nat) (cursor : Cursor)
  | matrix (cells : List (Coord × Cell)) (cursor : Cursor)
  | fields (values : List Nat) (cursor : Cursor)
deriving DecidableEq, Repr

/-- A response: a status, then results or an error detail (30_encoding R75, 60_exceptions R242). -/
structure Response where
  status : Status
  results : Results
  detail : Detail
deriving DecidableEq, Repr

/-- The transport's answer to one VERIFY question (43_matrix_encoder R196): the read-back matched, it did
not, or no answer ever comes (R199). -/
inductive VerifyAnswer where
  | passed
  | mismatch
  | silent
deriving DecidableEq, Repr

/-- The state. `reg` and `cfg` are the spec's (10_state R20, R30); the others are the model's own and carry
the host interface (INVENTORY.md, "State"). -/
structure State where
  /-- `REG` (10_state R25). -/
  reg : List Entry
  /-- `DESC` and the interface parameters; no operation writes them (10_state R32; log 3, 4). -/
  cfg : Config
  /-- Request bytes issued by the host and not yet taken (30_encoding R71; log 1); requests behind the first
  wait in order (log 25). -/
  port : List Byte
  /-- The response to the last operation (30_encoding R75; log 2). -/
  resp : Option Response
  /-- The host asks for a reset (70_reset R272; log 8). -/
  resetLine : Bool
  /-- The transport's coming answers, as far as given in advance (43_matrix_encoder R196; log 5). -/
  verifyAnswers : List VerifyAnswer
  /-- How many questions the free oracle has answered (log 5). -/
  verifyAsked : Nat
  /-- What the transport was handed, oldest first (43_matrix_encoder R194; log 7). -/
  sent : List MatrixOut
deriving DecidableEq, Repr

/-- Why the machine stops with a fault. -/
inductive Fault where
  /-- Raised by CONFIGURE_MATRIX when the transport never answers a VERIFY question: "a transport that never
  answers leaves it unfinished, and the model has no step for that" (43_matrix_encoder R199,
  93_implementation_defined section 4: stuck). Safe: the model stops where the hardware waits for ever. -/
  | transportNeverAnswers
deriving DecidableEq, Repr

/-- Why the machine gives a request no meaning. -/
inductive Refusal where
  /-- Raised by an arm of `exec` whose instruction has no meaning yet; no arm does. Safe. -/
  | notModelled (mnemonic : String)
  /-- Raised by the PixelCell, matrix and decoder operations when the descriptor breaks 10_state R31
  ("refuse to run"). Safe (log 9). -/
  | illFormedDescriptor
  /-- Raised by `step` when the request's bytes end before its operands do (framing, log 12). Safe. -/
  | requestIncomplete
  /-- Raised by `step` when an operand's byte codes no value of its type (framing, log 12). Safe. -/
  | requestMalformed
deriving DecidableEq, Repr

/-- DESIGN CHOICE (log 3). The descriptor of the spec's own worked examples: the matrix and cell fields of
95_test_vectors program P2 and the decoder fields of its descriptor F8, which agree on the geometry. No
chip's values; no statement rests on them. -/
def exampleDesc : Desc where
  l := 3
  defaultLatches := 0b100
  layout := [([0x4D, 0x41, 0x53, 0x4B], [⟨2, 1⟩]), ([0x54, 0x52, 0x49, 0x4D], [⟨0, 2⟩])]
  cols := 2
  rows := 2
  pattern := .snake
  spRows := 2
  padBit := true
  periodicAtRow0 := true
  sel := defaultSel 2 2
  byteMsbFirst := true
  tailFill := false
  maxAttempts := 3
  w := 8
  lRd := 8
  frameStart := 0xA5
  frameEnd := 0xDA
  colHdrPattern := 0xC0
  colHdrMask := 0xF0
  colIdxMask := 0x0F
  colIdxShift := 0

/-- The block after reset, instantiated with a configuration: the registry empty (10_state R44, 70_reset
R271), nothing requested, no response, nothing sent (log 19). -/
def State.resetWith (cfg : Config) : State where
  reg := []
  cfg := cfg
  port := []
  resp := none
  resetLine := false
  verifyAnswers := []
  verifyAsked := 0
  sent := []

/-- The machine right after reset (10_state R44), with the descriptor of log 3 and R10's default parameters. -/
def State.reset : State :=
  State.resetWith { desc := exampleDesc, regCapacity := none, nameMax := none }

end Sys2Proof.Machine
end

