-- ==== Sys2Proof/Machine/Flags.lean ====
section
/-! DEFINITION. The block has no flags (10_state R42): the outcome of every check is the status of one
response. This file gives the status its code and class (60_exceptions R240, R241). -/

namespace Sys2Proof.Machine

/-- The status byte (60_exceptions R241, column "Code"). -/
def statusCode : Status → Byte
  | .ok => 0x00
  | .eos => 0x01
  | .errBadWidth => 0x10
  | .errBadDirection => 0x11
  | .errBadText => 0x12
  | .errBadOrder => 0x13
  | .errBadName => 0x14
  | .errDupName => 0x15
  | .errRegFull => 0x16
  | .errUnknownParam => 0x18
  | .errValueRange => 0x19
  | .errCellRange => 0x20
  | .errUnknownField => 0x21
  | .errVerify => 0x30
  | .errCommFatal => 0x31
  | .errConfigFatal => 0x32
  | .errFrameStart => 0x40
  | .errColumnHeader => 0x41
  | .errColumnIndex => 0x42
  | .errFrameEnd => 0x43
  | .errTruncated => 0x44
  | .errIllegalOp => 0x7F

/-- The classes of 60_exceptions R240 and R241. -/
inductive StatusClass where
  | success
  | configurationDefinition
  | valueRange
  | cell
  | communicationRecoverable
  | communicationFatal
  | configurationFatal
  | structuralDecode
  | interface
deriving DecidableEq, Repr

/-- The class of a status (60_exceptions R241, column "Class"). -/
def statusClass : Status → StatusClass
  | .ok => .success
  | .eos => .success
  | .errBadWidth => .configurationDefinition
  | .errBadDirection => .configurationDefinition
  | .errBadText => .configurationDefinition
  | .errBadOrder => .configurationDefinition
  | .errBadName => .configurationDefinition
  | .errDupName => .configurationDefinition
  | .errRegFull => .configurationDefinition
  | .errUnknownParam => .valueRange
  | .errValueRange => .valueRange
  | .errCellRange => .cell
  | .errUnknownField => .cell
  | .errVerify => .communicationRecoverable
  | .errCommFatal => .communicationFatal
  | .errConfigFatal => .configurationFatal
  | .errFrameStart => .structuralDecode
  | .errColumnHeader => .structuralDecode
  | .errColumnIndex => .structuralDecode
  | .errFrameEnd => .structuralDecode
  | .errTruncated => .structuralDecode
  | .errIllegalOp => .interface

/-- Whether a status carries results: `OK` and `EOS` do, no error does (30_encoding R75). -/
def isSuccess (st : Status) : Bool := decide (statusClass st = .success)

end Sys2Proof.Machine
end

