-- ==== Sys2Proof/Machine/Operands.lean ====
section
/-! DEFINITION. Reading operands: the address of a registry entry, a direction, the bit-order text, a cell's
bits, a matrix coordinate, the word stream and its cursor. What an operand outside its type stands for is decided
here. -/

namespace Sys2Proof.Machine

/-! ### Registry addresses (40_registry R109) -/

/-- `resolve(i)` for an `i32` index: `i` when `0 <= i < |REG|`, else unknown. -/
def resolveIdx (reg : List Entry) (index : Word) : Option Nat :=
  if 0 ≤ index.toInt ∧ index.toInt < (reg.length : Int) then some index.toInt.toNat else none

/-- `resolve(s)` for a name: the index of the entry of that name, compared byte for byte, else unknown. -/
def resolveName (reg : List Entry) (name : ByteString) : Option Nat :=
  reg.findIdx? (fun e => e.name == name)

/-- The entry at a resolved address, `none` for an unknown one. -/
def entryAt (reg : List Entry) (key : Option Nat) : Option Entry :=
  key.bind fun i => reg[i]?

/-- `width(e) = |e.pos|` (10_state R21). -/
def entryWidth (e : Entry) : Nat := e.pos.length

/-! ### Directions (30_encoding R74, 41_serializer R140) -/

/-- MSB_FIRST. -/
def dirMsbFirst : BitVec 3 := 0b000
/-- LSB_FIRST. -/
def dirLsbFirst : BitVec 3 := 0b001
/-- GLOBAL_INVERTED_MSB_FIRST. -/
def dirInvMsbFirst : BitVec 3 := 0b010
/-- GLOBAL_INVERTED_LSB_FIRST. -/
def dirInvLsbFirst : BitVec 3 := 0b011

/-- Bit 0 of the code: the scan is reversed. -/
def dirRev (d : BitVec 3) : Bool := d.getLsbD 0
/-- Bit 1 of the code: the whole stream is reversed. -/
def dirInv (d : BitVec 3) : Bool := d.getLsbD 1
/-- Bit 2 must be 0 (R74). -/
def dirValid (d : BitVec 3) : Bool := !d.getLsbD 2

/-- `[n-1, ..., 1, 0]`. -/
def descending (n : Nat) : List Nat := (List.range n).reverse

/-- The built-in order of AddParameter, `none` for a direction that has none (40_registry R101, R102). -/
def builtinOrder (width : Nat) (d : BitVec 3) : Option (List Nat) :=
  if d = dirMsbFirst then some (descending width)
  else if d = dirLsbFirst then some (List.range width)
  else none

/-- `clamp(initial, w) = min(initial, 2^w - 1)` (40_registry R103). -/
def clampValue (initial w : Nat) : Nat := min initial (maskN w)

/-! ### The bit-order text (30_encoding R77, R78) -/

/-- `WIDTH_MIN` (00_scope R8). -/
def widthMin : Nat := 1
/-- `WIDTH_MAX` (00_scope R8). -/
def widthMax : Nat := 30
/-- `TEXT_MIN` (00_scope R8). -/
def textMin : Nat := 1
/-- `TEXT_MAX` (00_scope R8). -/
def textMax : Nat := 80

/-- The comma (30_encoding R77). -/
def isComma (b : Byte) : Bool := b == 0x2C
/-- A digit (30_encoding R77). -/
def isDigit (b : Byte) : Bool := decide (0x30 ≤ b.toNat) && decide (b.toNat ≤ 0x39)

/-- The text split at every comma: one token more than there are commas (R78). -/
def splitCommas : ByteString → List ByteString
  | [] => [[]]
  | b :: bs =>
    if isComma b then [] :: splitCommas bs
    else
      match splitCommas bs with
      | [] => [[b]]
      | t :: ts => (b :: t) :: ts

/-- The decimal value of a token, an exact natural number (R78). -/
def decimalValue (t : ByteString) : Nat := t.foldl (fun acc b => 10 * acc + (b.toNat - 0x30)) 0

/-- `parse_order(T)` with the status of each failure, in R78's order of checks. -/
def parseOrder (t : ByteString) : Except Status (List Nat) :=
  if t.length < textMin ∨ textMax < t.length then .error .errBadText
  else if t.any (fun b => !(isDigit b || isComma b)) then .error .errBadText
  else if (splitCommas t).any (fun tok => tok.isEmpty) then .error .errBadOrder
  else if ((splitCommas t).map decimalValue).isPerm (List.range (splitCommas t).length) then
    .ok ((splitCommas t).map decimalValue)
  else .error .errBadOrder

/-! ### Cell bits (42_pixelcell R163, R164, R171) -/

/-- The masked write of R163: clear the span, then or in the value's low bits. -/
def putBits (lc x offset fw value : Nat) : Nat :=
  (x &&& notN lc (maskN fw <<< offset)) ||| ((value &&& maskN fw) <<< offset)

/-- The masked read of R164. -/
def getBits (x offset fw : Nat) : Nat := (x >>> offset) &&& maskN fw

/-- The masked writes of a named setter (R166), piece by piece; `s` counts the value bits used so far. -/
def putPieces (lc value : Nat) : Nat → Nat → List Piece → Nat
  | _, x, [] => x
  | s, x, p :: ps => putPieces lc value (s + p.width) (putBits lc x p.offset p.width (value >>> s)) ps

/-- The read of a named sub-field (R167). -/
def getPieces (x : Nat) : Nat → Nat → List Piece → Nat
  | _, v, [] => v
  | s, v, p :: ps => getPieces x (s + p.width) (v ||| (getBits x p.offset p.width <<< s)) ps

/-- Whether a span leaves the cell (42_pixelcell R165). -/
def spanOutside (lc offset fw : Nat) : Bool := decide (lc < offset + fw)

/-! ### Cells (10_state R33; log 10) -/

/-- What a cell of width `w` holds when its operand is the number `v`: `v` itself where it fits, else open. -/
def fitLatches (w v : Nat) : Nat := if v < 2 ^ w then v else Config.openLatches w v % 2 ^ w

/-- The latches of a cell operand. -/
def latchesOf (d : Desc) (c : Cell) : Nat := fitLatches (cellWidth d c.kind) c.latches

/-! ### Matrix coordinates (10_state R36 to R38; log 24) -/

/-- The entries a matrix operand has for a coordinate, each the list of its cells. -/
def entriesAt (m : Matrix) (k : Coord) : List (List Nat) :=
  match m with
  | .single cells => (cells.filter fun e => e.1 == k).map fun e => [e.2]
  | .paired cells => (cells.filter fun e => e.1 == k).map fun e => [e.2.1, e.2.2]

/-- `M(c, r)` of a single-stage matrix: zero where there is no entry (R37), the cell of the one entry, else open. -/
def cellAt (d : Desc) (m : Matrix) (k : Coord) : Nat :=
  match entriesAt m k with
  | [] => 0
  | [[v]] => fitLatches d.l v
  | es => Config.openSingle k es % 2 ^ d.l

/-- `M(c, r)` of a two-stage matrix: `(0, 0)` where there is no entry (R37), the pair of the one entry, else
open. -/
def pairAt (d : Desc) (m : Matrix) (k : Coord) : Nat × Nat :=
  match entriesAt m k with
  | [] => (0, 0)
  | [[v1, v2]] => (fitLatches d.l v1, fitLatches d.l v2)
  | es => ((Config.openPair k es).1 % 2 ^ d.l, (Config.openPair k es).2 % 2 ^ d.l)

/-! ### The word stream and its cursor (10_state R39, R40; 20_memory R53) -/

/-- `WORD_BITS` (00_scope R8). -/
def wordBits : Nat := 32

/-- Where an operation stands in its word stream: a cursor whose word index is an exact number (log 21). -/
structure Position where
  wi : Nat
  bi : Fin 32
deriving DecidableEq, Repr

/-- The position one bit further (10_state R40). -/
def posAdv (p : Position) : Position :=
  if p.bi.val = 0 then ⟨p.wi + 1, 31⟩ else ⟨p.wi, ⟨p.bi.val - 1, Nat.lt_of_le_of_lt (Nat.sub_le _ _) p.bi.isLt⟩⟩

/-- The linear bit offset of a position, `32*wi + (31 - bi)` (10_state R40). -/
def posOff (p : Position) : Nat := wordBits * p.wi + (31 - p.bi.val)

/-- `(0, 31)`, where a frame starts (44_frame_decoder R217). -/
def posStart : Position := ⟨0, 31⟩

/-- The position of a cursor operand. -/
def cursorIn (c : Cursor) : Position := ⟨c.wi.toNat, c.bi⟩

/-- A position as a cursor result: the word index is a `u32` (10_state R39), free once the position has left that
range (R40 "not specified"; log 21). -/
def cursorOut (p : Position) : Cursor :=
  ⟨if p.wi < 2 ^ 32 then BitVec.ofNat 32 p.wi else Config.wordIndexOverflow p.wi, p.bi⟩

/-- The linear bit offset of a cursor (10_state R40). -/
def cursorOff (c : Cursor) : Nat := posOff (cursorIn c)

/-- The bit of the stream at a position, 0 past the end (never asked for there, 44_frame_decoder R214). -/
def streamBit (ws : List Word) (p : Position) : Bool := (ws.getD p.wi 0).getLsbD p.bi.val

/-- The bits left from a position inside the stream to its end (44_frame_decoder R214). -/
def bitsLeft (ws : List Word) (p : Position) : Nat := p.bi.val + 1 + wordBits * (ws.length - 1 - p.wi)

/-- The bit loop of 44_frame_decoder R210 step 3: `n` bits from the position, most significant first. -/
def readBits (ws : List Word) : Nat → Nat → Position → Nat × Position
  | 0, v, p => (v, p)
  | n + 1, v, p => readBits ws n ((v <<< 1) ||| (streamBit ws p).toNat) (posAdv p)

end Sys2Proof.Machine
end

