-- ==== Sys2Proof/Machine/Ops.lean ====
section
/-! DEFINITION. The named operations over the state: answering a request, raising an error (the block's one
kind of exception, 60_exceptions R250), writing the registry, asking the transport, reset. -/

namespace Sys2Proof.Machine

/-- What one step or one operation answers. -/
abbrev Result := Host.Outcome State Fault Refusal

/-- The response `OK(results)` (00_scope R15). -/
def okResponse (r : Results) : Response := ⟨.ok, r, .none⟩

/-- The response `EOS(results)` (30_encoding R75, 60_exceptions R241). -/
def eosResponse (r : Results) : Response := ⟨.eos, r, .none⟩

/-- The response of an error: its status and detail, no result (60_exceptions R250 c). -/
def errorResponse (st : Status) (d : Detail) : Response := ⟨st, .absent, d⟩

/-- The response leaves the block; it replaces the one before (60_exceptions R242; log 2). -/
def State.respond (s : State) (r : Response) : State := { s with resp := some r }

/-- `return OK(results)` (00_scope R15). -/
def answer (s : State) (r : Results) : Result := .next (s.respond (okResponse r))

/-- TAKING AN EXCEPTION. `raise E(info)`: the operation ends with the error status and its detail, no block
state written; "Control does not go anywhere" (60_exceptions R250). There is no return: the block accepts the
next operation at once (R252). -/
def raise (s : State) (st : Status) (d : Detail) : Result := .next (s.respond (errorResponse st d))

/-- An operation that needs the descriptor runs only with a well-formed one (10_state R31, 70_reset R273 a). -/
def withDesc (s : State) (k : Desc → Result) : Result :=
  if descWellFormed s.cfg.desc then k s.cfg.desc else .refused .illFormedDescriptor

/-! ### Writing the registry (10_state R28) -/

/-- `append(s, p, v)` (40_registry R106). -/
def State.appendEntry (s : State) (e : Entry) : State := { s with reg := s.reg ++ [e] }

/-- `REG[i].value <- v` (40_registry R108). -/
def State.setEntryValue (s : State) (i value : Nat) : State :=
  { s with reg := s.reg.modify i (fun e => { e with value := value }) }

/-- `REG <- []` (40_registry R120). -/
def State.clearReg (s : State) : State := { s with reg := [] }

/-- `|name| = 0 or |name| > NAME_MAX` (40_registry R100). -/
def nameBad (cfg : Config) (name : ByteString) : Bool :=
  name.isEmpty || (match cfg.nameMax with | none => false | some m => decide (m < name.length))

/-- `|REG| = REG_CAPACITY` (40_registry R100, R121); a registry beyond the capacity is full as well. -/
def regFull (s : State) : Bool :=
  match s.cfg.regCapacity with
  | none => false
  | some c => decide (c ≤ s.reg.length)

/-- The last checks of both AddParameter forms, in order name form, duplicate name, capacity, then the append
with the clamped value (40_registry R100, R102 to R106). -/
def addEntry (s : State) (name : ByteString) (pos : List Nat) (initial : Nat) : Result :=
  if nameBad s.cfg name then raise s .errBadName .none
  else if (resolveName s.reg name).isSome then raise s .errDupName .none
  else if regFull s then raise s .errRegFull .none
  else answer (s.appendEntry ⟨name, pos, clampValue initial pos.length⟩) .absent

/-- SetParameter at a resolved address (40_registry R108): unknown before range. -/
def setParam (s : State) (key : Option Nat) (value : Nat) : Result :=
  match key with
  | none => raise s .errUnknownParam .none
  | some i =>
    match s.reg[i]? with
    | none => raise s .errUnknownParam .none
    | some e =>
      if 2 ^ entryWidth e ≤ value then raise s .errValueRange .none
      else answer (s.setEntryValue i value) .absent

/-! ### The transport (43_matrix_encoder R196) -/

/-- `send(register_address, out)`: the output is handed to the transport (R194; log 7). -/
def State.handOut (s : State) (out : MatrixOut) : State := { s with sent := s.sent ++ [out] }

/-- `VERIFY(a)`: the next answer given in advance, else the free oracle's (R196; log 5). -/
def State.askVerify (s : State) : VerifyAnswer × State :=
  match s.verifyAnswers with
  | a :: rest => (a, { s with verifyAnswers := rest })
  | [] =>
    (if Config.verifyOracle s.verifyAsked then .passed else .mismatch,
      { s with verifyAsked := s.verifyAsked + 1 })

/-! ### Reset (70_reset R270 to R272) -/

/-- Reset between operations: the registry empty as after CLEAR, no error record left, the descriptor
unchanged; the host's side of the interface is the host's (log 8). -/
def State.applyReset (s : State) : State := { s with reg := [], resp := none, resetLine := false }

end Sys2Proof.Machine
end

