-- ==== Sys2Proof/Machine/FrameDecoder.lean ====
section
/-! DEFINITION. The frame decoder (44_frame_decoder): NextField, DecodeFrame, SplitFrame. One decoder,
parameterised by the descriptor (R228, R291). -/

namespace Sys2Proof.Machine

/-- What NextField answers (R210): exhausted, a field with its value, or a truncated full field. -/
inductive FieldResult where
  | eos (pos : Position)
  | field (value : Nat) (pos : Position)
  | truncated
deriving DecidableEq, Repr

/-- `NEXT_FIELD(WS, cursor)` for field width `w`, the four steps of R210. -/
def nextFieldAt (w : Nat) (ws : List Word) (c : Position) : FieldResult :=
  if ws.length ≤ c.wi then .eos c
  else if streamBit ws c = false then .field 0 (posAdv c)
  else if bitsLeft ws c < w then .truncated
  else .field ((readBits ws w 0 c).1 &&& maskN w) (readBits ws w 0 c).2

/-- NEXT_FIELD (R210). -/
def execNextField (stream : List Word) (cursor : Cursor) (s : State) : Result :=
  withDesc s fun d =>
    match nextFieldAt d.w stream (cursorIn cursor) with
    | .eos c => .next (s.respond (eosResponse (.field 0 (cursorOut c))))
    | .field v c => answer s (.field v (cursorOut c))
    | .truncated => raise s .errTruncated .none

/-- An error of the decoder: its status and detail (60_exceptions R241). -/
abbrev DecodeErr := Status × Detail

/-- `field()` of R217: NEXT_FIELD at the running cursor, with both exhaustion and truncation an
`ERR_TRUNCATED` (R225). -/
def frameField (d : Desc) (ws : List Word) (c : Position) : Except DecodeErr (Nat × Position) :=
  match nextFieldAt d.w ws c with
  | .eos _ => .error (.errTruncated, .none)
  | .field v c' => .ok (v, c')
  | .truncated => .error (.errTruncated, .none)

/-- The pixel fields of column `col` for the rows listed (R219, R222): each value becomes a decoded cell. -/
def decodeRows (d : Desc) (ws : List Word) (col : Nat) :
    List Nat → Position → Except DecodeErr (List (Coord × Cell) × Position)
  | [], c => .ok ([], c)
  | r :: rs, c =>
    match frameField d ws c with
    | .error e => .error e
    | .ok (v, c1) =>
      match decodeRows d ws col rs c1 with
      | .error e => .error e
      | .ok (cells, c2) => .ok (((col, r), ⟨.decoded, v⟩) :: cells, c2)

/-- The header of column `col`: its pattern bits, then its index (R220, R221). -/
def headerCheck (d : Desc) (col h : Nat) : Except DecodeErr Unit :=
  if h &&& d.colHdrMask ≠ d.colHdrPattern then .error (.errColumnHeader, .columnObserved col h)
  else if (h &&& d.colIdxMask) >>> d.colIdxShift ≠ col then .error (.errColumnIndex, .columnObserved col h)
  else .ok ()

/-- The columns listed, each one header field and its pixel fields (R217, R219). -/
def decodeCols (d : Desc) (ws : List Word) :
    List Nat → Position → Except DecodeErr (List (Coord × Cell) × Position)
  | [], c => .ok ([], c)
  | col :: cols, c =>
    match frameField d ws c with
    | .error e => .error e
    | .ok (h, c1) =>
      match headerCheck d col h with
      | .error e => .error e
      | .ok () =>
        match decodeRows d ws col (List.range d.rows) c1 with
        | .error e => .error e
        | .ok (cells, c2) =>
          match decodeCols d ws cols c2 with
          | .error e => .error e
          | .ok (more, c3) => .ok (cells ++ more, c3)

/-- `DECODE_FRAME(WS)` (R217). -/
def decodeFrameOf (d : Desc) (ws : List Word) : Except DecodeErr (List (Coord × Cell) × Position) :=
  match frameField d ws posStart with
  | .error e => .error e
  | .ok (f, c1) =>
    if f ≠ d.frameStart then .error (.errFrameStart, .observed f)
    else
      match decodeCols d ws (List.range d.cols) c1 with
      | .error e => .error e
      | .ok (cells, c2) =>
        match frameField d ws c2 with
        | .error e => .error e
        | .ok (v, c3) => if v ≠ d.frameEnd then .error (.errFrameEnd, .observed v) else .ok (cells, c3)

/-- DECODE_FRAME (R217); on any error no matrix and no cursor (R224). -/
def execDecodeFrame (stream : List Word) (s : State) : Result :=
  withDesc s fun d =>
    match decodeFrameOf d stream with
    | .error (st, det) => raise s st det
    | .ok (cells, c) => answer s (.matrix cells (cursorOut c))

/-- `NF = 2 + COLS*(1 + ROWS)`, the fields of a frame (R226, 30_encoding R83). -/
def frameFieldCount (d : Desc) : Nat := 2 + d.cols * (1 + d.rows)

/-- The loop of `SPLIT_FRAME(WS)` (R226): `n` more fields, `eos` when one was read past the end (R227). -/
def splitLoop (d : Desc) (ws : List Word) : Nat → List Nat → Bool → Position → Response
  | 0, out, eos, c => if eos then eosResponse (.fields out (cursorOut c)) else okResponse (.fields out (cursorOut c))
  | n + 1, out, eos, c =>
    match nextFieldAt d.w ws c with
    | .truncated => errorResponse .errTruncated (.fieldsSoFar out)
    | .eos c' => splitLoop d ws n (out ++ [0]) true c'
    | .field v c' => splitLoop d ws n (out ++ [v]) eos c'

/-- SPLIT_FRAME (R226). -/
def execSplitFrame (stream : List Word) (s : State) : Result :=
  withDesc s fun d => .next (s.respond (splitLoop d stream (frameFieldCount d) [] false posStart))

end Sys2Proof.Machine
end

