-- ==== Sys2Proof/Machine/MatrixEncoder.lean ====
section
/-! DEFINITION. The pixel matrix encoder (43_matrix_encoder): ProgramMatrix with its two traversals, and the
retry wrapper ConfigureMatrix. -/

namespace Sys2Proof.Machine

/-- The chip-wide word of one stage, row and bit (30_encoding R86): element `c` is column `c`'s bit. -/
def rbcWord (d : Desc) (stage : Nat → Nat → Nat) (r b : Nat) : List Bool :=
  (List.range d.cols).map fun c => (stage c r).testBit b

/-- The words of one stage: row ascending, bit descending (R183). -/
def rbcStage (d : Desc) (stage : Nat → Nat → Nat) : List (List Bool) :=
  (List.range d.rows).flatMap fun r => (descending d.l).map fun b => rbcWord d stage r b

/-- `rbc(M)`: stage 1, then stage 2 (R183). -/
def rbc (d : Desc) (m : Matrix) : List (List Bool) :=
  rbcStage d (fun c r => (pairAt d m (c, r)).1) ++ rbcStage d (fun c r => (pairAt d m (c, r)).2)

/-- The padding block (R188). -/
def padBlock (d : Desc) : List Bool := List.replicate (dcols d) d.padBit

/-- `periodic(r)` (R189). -/
def periodic (d : Desc) (r : Nat) : Bool := decide (r % d.spRows = 0) && (decide (0 < r) || d.periodicAtRow0)

/-- The bits of one row: sub-column, then bit descending, then double column (R187, 30_encoding R85). -/
def snakeRow (d : Desc) (m : Matrix) (r : Nat) : List Bool :=
  (List.range nSubCols).flatMap fun sc =>
    (descending d.l).flatMap fun b =>
      (List.range (dcols d)).map fun dc =>
        (cellAt d m (selAt d dc sc r)).testBit b

/-- `snake(M)` (R187). -/
def snake (d : Desc) (m : Matrix) : List Bool :=
  padBlock d ++
    ((List.range d.rows).flatMap fun r => (if periodic d r then padBlock d else []) ++ snakeRow d m r) ++
    padBlock d

/-- `BYTE_BITS` (00_scope R8). -/
def byteBits : Nat := 8

/-- Byte `g` of a bit sequence (30_encoding R88), a last partial group completed with `TAIL_FILL`
(20_memory R59). -/
def packByte (d : Desc) (s : List Bool) (g : Nat) : Byte :=
  BitVec.ofNat 8
    (((List.range byteBits).map fun k =>
      (s.getD (byteBits * g + k) d.tailFill).toNat * 2 ^ (if d.byteMsbFirst then 7 - k else k)).sum)

/-- `pack8(s)` (R193). -/
def pack8 (d : Desc) (s : List Bool) : List Byte :=
  (List.range ((s.length + 7) / byteBits)).map fun g => packByte d s g

/-- `PROG_MATRIX(M)` (R180). -/
def progMatrixOut (d : Desc) (m : Matrix) : MatrixOut :=
  match d.pattern with
  | .rbc => .words (rbc d m)
  | .snake => .bytes (snake d m) (pack8 d (snake d m))

/-- PROG_MATRIX (R180). -/
def execProgMatrix (matrix : Matrix) (s : State) : Result :=
  withDesc s fun d => answer s (.matrixOut (progMatrixOut d matrix))

/-- The outcome of attempt `a` once the transport has answered (R196, R197): success, or the recoverable
`ERR_VERIFY`, which is never a final status; `none` when no answer ever comes (R199). -/
def attemptResponse (a : Nat) : VerifyAnswer → Option Response
  | .passed => some (okResponse (.attempts a))
  | .mismatch => some (errorResponse .errVerify (.attempts a))
  | .silent => none

/-- The attempts of CONFIGURE_MATRIX (R196): `remaining` more of them, the next one being attempt `a`. Each
hands the same output to the transport and asks VERIFY; an `ERR_VERIFY` goes round (R197). -/
def configureLoop (out : MatrixOut) : (remaining a : Nat) → State → Result
  | 0, a, s => raise s .errCommFatal (.attempts (a - 1))
  | n + 1, a, s =>
    match attemptResponse a (s.handOut out).askVerify.1 with
    | none => .fault .transportNeverAnswers
    | some r =>
      if r.status = .errVerify then configureLoop out n (a + 1) (s.handOut out).askVerify.2
      else .next ((s.handOut out).askVerify.2.respond r)

/-- The number of attempts `A`: the operand, or the descriptor's when it is 0 (R196). -/
def attemptLimit (d : Desc) (maxAttempts : Nat) : Nat := if maxAttempts = 0 then d.maxAttempts else maxAttempts

/-- CONFIGURE_MATRIX (R196); a missing matrix is fatal and nothing is sent (R198). -/
def execConfigureMatrix (matrix : Option Matrix) (maxAttempts : Word) (s : State) : Result :=
  withDesc s fun d =>
    match matrix with
    | none => raise s .errConfigFatal .none
    | some m => configureLoop (progMatrixOut d m) (attemptLimit d maxAttempts.toNat) 1 s

end Sys2Proof.Machine
end

