-- ==== Sys2Proof/Machine/PixelCell.lean ====
section
/-! DEFINITION. The PixelCell operations (42_pixelcell). Each is a function of its operands and the
descriptor; none writes block state. -/

namespace Sys2Proof.Machine

/-- PC_NEW (R160). -/
def execPcNew (s : State) : Result :=
  withDesc s fun d => answer s (.cell ⟨.config, d.defaultLatches⟩)

/-- PC_SET_BIT (R161). -/
def execPcSetBit (cell : Cell) (index : Word) (value : Bool) (s : State) : Result :=
  withDesc s fun d =>
    if cellWidth d cell.kind ≤ index.toNat then raise s .errCellRange .none
    else
      answer s (.cell ⟨cell.kind,
        (latchesOf d cell &&& notN (cellWidth d cell.kind) (1 <<< index.toNat)) ||| (value.toNat <<< index.toNat)⟩)

/-- PC_GET_BIT (R162). -/
def execPcGetBit (cell : Cell) (index : Word) (s : State) : Result :=
  withDesc s fun d =>
    if cellWidth d cell.kind ≤ index.toNat then raise s .errCellRange .none
    else answer s (.bool ((latchesOf d cell).testBit index.toNat))

/-- PC_SET_SUBFIELD (R163). -/
def execPcSetSubfield (cell : Cell) (offset fieldWidth : Word) (value : Nat) (s : State) : Result :=
  withDesc s fun d =>
    if spanOutside (cellWidth d cell.kind) offset.toNat fieldWidth.toNat then raise s .errCellRange .none
    else
      answer s (.cell ⟨cell.kind,
        putBits (cellWidth d cell.kind) (latchesOf d cell) offset.toNat fieldWidth.toNat value⟩)

/-- PC_GET_SUBFIELD (R164). -/
def execPcGetSubfield (cell : Cell) (offset fieldWidth : Word) (s : State) : Result :=
  withDesc s fun d =>
    if spanOutside (cellWidth d cell.kind) offset.toNat fieldWidth.toNat then raise s .errCellRange .none
    else answer s (.ul (getBits (latchesOf d cell) offset.toNat fieldWidth.toNat))

/-- R165 on the pieces of a named field; it can fire only for a decoded cell narrower than `L` (log 22). -/
def piecesOutside (lc : Nat) (ps : List Piece) : Bool := ps.any (fun p => spanOutside lc p.offset p.width)

/-- PC_SET_NAMED (R166). -/
def execPcSetNamed (cell : Cell) (field : ByteString) (value : Nat) (s : State) : Result :=
  withDesc s fun d =>
    match layoutPieces d field with
    | none => raise s .errUnknownField .none
    | some ps =>
      if piecesOutside (cellWidth d cell.kind) ps then raise s .errCellRange .none
      else answer s (.cell ⟨cell.kind, putPieces (cellWidth d cell.kind) value 0 (latchesOf d cell) ps⟩)

/-- PC_GET_NAMED (R167). -/
def execPcGetNamed (cell : Cell) (field : ByteString) (s : State) : Result :=
  withDesc s fun d =>
    match layoutPieces d field with
    | none => raise s .errUnknownField .none
    | some ps =>
      if piecesOutside (cellWidth d cell.kind) ps then raise s .errCellRange .none
      else answer s (.ul (getPieces (latchesOf d cell) 0 0 ps))

/-- PC_SET_LATCHES (R168): "the old cell does not matter", its width does. -/
def execPcSetLatches (cell : Cell) (value : Nat) (s : State) : Result :=
  withDesc s fun d =>
    if 2 ^ cellWidth d cell.kind ≤ value then raise s .errValueRange .none
    else answer s (.cell ⟨cell.kind, value⟩)

/-- PC_EQ (R169): bitwise equality of the latches of two cells of the same width, open for two widths (log 10). -/
def execPcEq (a b : Cell) (s : State) : Result :=
  withDesc s fun d =>
    if cellWidth d a.kind = cellWidth d b.kind then answer s (.bool (decide (latchesOf d a = latchesOf d b)))
    else answer s (.bool (Config.openEq (cellWidth d a.kind, a.latches) (cellWidth d b.kind, b.latches)))

end Sys2Proof.Machine
end

