-- ==== Sys2Proof/Machine/Registry.lean ====
section
/-! DEFINITION. The registry operations (40_registry). -/

namespace Sys2Proof.Machine

/-- ADD_PARAM_DIR (R100), checks in R102's order. -/
def execAddParamDir (name : ByteString) (width : Word) (direction : BitVec 3) (initial : Word) (s : State) : Result :=
  if width.toNat < widthMin ∨ widthMax < width.toNat then raise s .errBadWidth .none
  else
    match builtinOrder width.toNat direction with
    | none => raise s .errBadDirection .none
    | some pos => addEntry s name pos initial.toNat

/-- ADD_PARAM_ORD (R104), checks in R105's order. -/
def execAddParamOrd (name : ByteString) (order : ByteString) (initial : Word) (s : State) : Result :=
  match parseOrder order with
  | .error st => raise s st .none
  | .ok pos => addEntry s name pos initial.toNat

/-- SET_PARAM_IDX (R108). -/
def execSetParamIdx (index value : Word) (s : State) : Result :=
  setParam s (resolveIdx s.reg index) value.toNat

/-- SET_PARAM_NAME (R110). -/
def execSetParamName (name : ByteString) (value : Word) (s : State) : Result :=
  setParam s (resolveName s.reg name) value.toNat

/-- The value of an entry, `-1` for a miss (R112, R118). -/
def valueOrMiss : Option Entry → Int
  | none => -1
  | some e => e.value

/-- The width of an entry, `-1` for a miss (R113, R118). -/
def widthOrMiss : Option Entry → Int
  | none => -1
  | some e => entryWidth e

/-- The stored order of an entry, empty for a miss (R114, R118). -/
def orderOrMiss : Option Entry → List Nat
  | none => []
  | some e => e.pos

/-- The name of an entry, empty for a miss (R115, R118). -/
def nameOrMiss : Option Entry → ByteString
  | none => []
  | some e => e.name

/-- The index found, `-1` for a miss (R117, R118). -/
def indexOrMiss : Option Nat → Int
  | none => -1
  | some i => i

/-- GET_PARAM_IDX (R112). -/
def execGetParamIdx (index : Word) (s : State) : Result :=
  answer s (.int (valueOrMiss (entryAt s.reg (resolveIdx s.reg index))))

/-- GET_PARAM_NAME (R112). -/
def execGetParamName (name : ByteString) (s : State) : Result :=
  answer s (.int (valueOrMiss (entryAt s.reg (resolveName s.reg name))))

/-- GET_WIDTH_IDX (R113). -/
def execGetWidthIdx (index : Word) (s : State) : Result :=
  answer s (.int (widthOrMiss (entryAt s.reg (resolveIdx s.reg index))))

/-- GET_WIDTH_NAME (R113). -/
def execGetWidthName (name : ByteString) (s : State) : Result :=
  answer s (.int (widthOrMiss (entryAt s.reg (resolveName s.reg name))))

/-- GET_ORDER_IDX (R114). -/
def execGetOrderIdx (index : Word) (s : State) : Result :=
  answer s (.order (orderOrMiss (entryAt s.reg (resolveIdx s.reg index))))

/-- GET_ORDER_NAME (R114). -/
def execGetOrderName (name : ByteString) (s : State) : Result :=
  answer s (.order (orderOrMiss (entryAt s.reg (resolveName s.reg name))))

/-- GET_NAME (R115). -/
def execGetName (index : Word) (s : State) : Result :=
  answer s (.name (nameOrMiss (entryAt s.reg (resolveIdx s.reg index))))

/-- GET_IDX2NAME (R116): the index-to-name map's lookup. -/
def execGetIdx2Name (index : Word) (s : State) : Result :=
  answer s (.name (nameOrMiss (entryAt s.reg (resolveIdx s.reg index))))

/-- GET_NAME2IDX (R117). -/
def execGetName2Idx (name : ByteString) (s : State) : Result :=
  answer s (.int (indexOrMiss (resolveName s.reg name)))

/-- CLEAR (R120). -/
def execClear (s : State) : Result := answer s.clearReg .absent

end Sys2Proof.Machine
end

