-- ==== Sys2Proof/Machine/Serializer.lean ====
section
/-! DEFINITION. GenerateBitVector (41_serializer). -/

namespace Sys2Proof.Machine

/-- `slice(e, rev)` (R142): the value bits named by `pos`, scanned left to right or right to left. -/
def slice (e : Entry) (rev : Bool) : List Bool :=
  if rev then (e.pos.map (fun p => e.value.testBit p)).reverse else e.pos.map (fun p => e.value.testBit p)

/-- The bit vector of a direction (R141, R143, R145). -/
def bitVector (reg : List Entry) (d : BitVec 3) : List Bool :=
  if dirValid d then
    if dirInv d then (reg.flatMap (fun e => slice e (dirRev d))).reverse
    else reg.flatMap (fun e => slice e (dirRev d))
  else []

/-- GEN_BITVEC (R141). -/
def execGenBitvec (direction : BitVec 3) (s : State) : Result :=
  answer s (.bits (bitVector s.reg direction))

end Sys2Proof.Machine
end

