-- ==== Sys2Proof/Machine/Dispatch.lean ====
section
/-! DEFINITION. One arm per operation of 30_encoding R73, each one call of its meaning. -/

namespace Sys2Proof.Machine

def exec (i : Instr) (s : State) : Host.Outcome State Fault Refusal :=
  match i with
  | .addParamDir name width direction initial => Sys2Proof.Machine.execAddParamDir name width direction initial s
  | .addParamOrd name order initial => Sys2Proof.Machine.execAddParamOrd name order initial s
  | .setParamIdx index value => Sys2Proof.Machine.execSetParamIdx index value s
  | .setParamName name value => Sys2Proof.Machine.execSetParamName name value s
  | .getParamIdx index => Sys2Proof.Machine.execGetParamIdx index s
  | .getParamName name => Sys2Proof.Machine.execGetParamName name s
  | .getWidthIdx index => Sys2Proof.Machine.execGetWidthIdx index s
  | .getWidthName name => Sys2Proof.Machine.execGetWidthName name s
  | .getOrderIdx index => Sys2Proof.Machine.execGetOrderIdx index s
  | .getOrderName name => Sys2Proof.Machine.execGetOrderName name s
  | .getName index => Sys2Proof.Machine.execGetName index s
  | .getIdx2Name index => Sys2Proof.Machine.execGetIdx2Name index s
  | .getName2Idx name => Sys2Proof.Machine.execGetName2Idx name s
  | .clear => Sys2Proof.Machine.execClear s
  | .genBitvec direction => Sys2Proof.Machine.execGenBitvec direction s
  | .pcNew => Sys2Proof.Machine.execPcNew s
  | .pcSetBit cell index value => Sys2Proof.Machine.execPcSetBit cell index value s
  | .pcGetBit cell index => Sys2Proof.Machine.execPcGetBit cell index s
  | .pcSetSubfield cell offset fieldWidth value => Sys2Proof.Machine.execPcSetSubfield cell offset fieldWidth value s
  | .pcGetSubfield cell offset fieldWidth => Sys2Proof.Machine.execPcGetSubfield cell offset fieldWidth s
  | .pcSetNamed cell field value => Sys2Proof.Machine.execPcSetNamed cell field value s
  | .pcGetNamed cell field => Sys2Proof.Machine.execPcGetNamed cell field s
  | .pcSetLatches cell value => Sys2Proof.Machine.execPcSetLatches cell value s
  | .pcEq a b => Sys2Proof.Machine.execPcEq a b s
  | .progMatrix matrix => Sys2Proof.Machine.execProgMatrix matrix s
  | .configureMatrix matrix maxAttempts => Sys2Proof.Machine.execConfigureMatrix matrix maxAttempts s
  | .nextField stream cursor => Sys2Proof.Machine.execNextField stream cursor s
  | .decodeFrame stream => Sys2Proof.Machine.execDecodeFrame stream s
  | .splitFrame stream => Sys2Proof.Machine.execSplitFrame stream s

end Sys2Proof.Machine
end

