-- ==== Sys2Proof/WellFormed.lean ====
section
/-! DEFINITION. When an operation's operands lie in the types 30_encoding R72 gives them. What a Lean type
already confines (a 32-bit word, a 3-bit direction, a cursor) is not asked again; lengths of names and texts and
the size of a value `uL` are not asked here, because the operations' own rules say what they do with every one
(R72 `name`, `text`; 42_pixelcell R163, R166, R168). The machine runs operations outside these types too: what
the operand stands for is then open (log 10, 24). -/

namespace Sys2Proof

/-- Every operand lies in its R72 type. -/
def Instr.wellFormed (cfg : Config) : Instr → Bool
  | .addParamDir _ _ _ _ => true
  | .addParamOrd _ _ _ => true
  | .setParamIdx _ _ => true
  | .setParamName _ _ => true
  | .getParamIdx _ => true
  | .getParamName _ => true
  | .getWidthIdx _ => true
  | .getWidthName _ => true
  | .getOrderIdx _ => true
  | .getOrderName _ => true
  | .getName _ => true
  | .getIdx2Name _ => true
  | .getName2Idx _ => true
  | .clear => true
  | .genBitvec _ => true
  | .pcNew => true
  | .pcSetBit c _ _ => c.fits cfg.desc
  | .pcGetBit c _ => c.fits cfg.desc
  | .pcSetSubfield c _ _ _ => c.fits cfg.desc
  | .pcGetSubfield c _ _ => c.fits cfg.desc
  | .pcSetNamed c _ _ => c.fits cfg.desc
  | .pcGetNamed c _ => c.fits cfg.desc
  | .pcSetLatches c _ => c.fits cfg.desc
  | .pcEq a b =>
    a.fits cfg.desc && b.fits cfg.desc &&
      decide (Machine.cellWidth cfg.desc a.kind = Machine.cellWidth cfg.desc b.kind)
  | .progMatrix m => m.fits cfg.desc
  | .configureMatrix none _ => true
  | .configureMatrix (some m) _ => m.fits cfg.desc
  | .nextField _ _ => true
  | .decodeFrame _ => true
  | .splitFrame _ => true

end Sys2Proof
end

