-- ==== Sys2Proof/Decode.lean ====
section
/-! DEFINITION. Requests as bytes: the decoder, total on any bytes, and the encoder. The opcode byte is
30_encoding R71, R73; how the operands travel (`FRAMING`) is not in the spec, and the byte framing below is
the model's (DESIGN CHOICE, log 1): a `u32` or `i32` is four bytes, least significant first; a number without a
fixed width (a length, a count, a cell value, a coordinate) is written in base 128, least significant digit
first, every byte but the last with bit 7 set; a sequence is its length, then its elements; a direction, a
Boolean, a bit index and a kind are one byte. -/

namespace Sys2Proof

/-- Why bytes are no request. -/
inductive Reject where
  /-- The bytes end before the operands do. -/
  | incomplete
  /-- A byte codes no value of its operand's type. -/
  | malformed
deriving DecidableEq, Repr

/-- What the decoder finds at the head of the request bytes. -/
inductive Decoded where
  /-- No byte: nothing is requested. -/
  | idle
  /-- An opcode outside 30_encoding R73 (R87 a), and the bytes after it. -/
  | unassigned (opcode : Byte) (rest : List Byte)
  /-- An assigned opcode whose operands cannot be read. -/
  | rejected (why : Reject)
  /-- A request, and the bytes after it. -/
  | request (i : Instr) (rest : List Byte)
deriving DecidableEq, Repr

/-- A reader of one value from the head of the bytes. -/
abbrev Reader (α : Type) := List Byte → Except Reject (α × List Byte)

/-- Read nothing. -/
def readPure {α : Type} (a : α) : Reader α := fun bs => .ok (a, bs)

/-- Read one value, then what depends on it. -/
def readThen {α β : Type} (r : Reader α) (f : α → Reader β) : Reader β := fun bs =>
  match r bs with
  | .error e => .error e
  | .ok (a, rest) => f a rest

/-- One byte. -/
def readByte : Reader Byte
  | [] => .error .incomplete
  | b :: bs => .ok (b, bs)

/-- A number in base 128. -/
def readNat : Reader Nat
  | [] => .error .incomplete
  | b :: bs =>
    if b.toNat < 128 then .ok (b.toNat, bs)
    else
      match readNat bs with
      | .error e => .error e
      | .ok (n, rest) => .ok (b.toNat - 128 + 128 * n, rest)

/-- Four bytes, least significant first. -/
def readWord : Reader Word
  | b0 :: b1 :: b2 :: b3 :: bs => .ok (b3 ++ b2 ++ b1 ++ b0, bs)
  | _ => .error .incomplete

/-- A Boolean: 0 or 1 (30_encoding R72). -/
def readBool : Reader Bool :=
  readThen readByte fun b => if b = 0 then readPure false else if b = 1 then readPure true else fun _ => .error .malformed

/-- A 3-bit direction code in a byte (30_encoding R74). -/
def readDir : Reader (BitVec 3) :=
  readThen readByte fun b => if b.toNat < 8 then readPure (BitVec.ofNat 3 b.toNat) else fun _ => .error .malformed

/-- `n` values. -/
def readCount {α : Type} (r : Reader α) : Nat → Reader (List α)
  | 0 => readPure []
  | n + 1 => readThen r fun a => readThen (readCount r n) fun as => readPure (a :: as)

/-- A sequence: its length, then its elements. -/
def readSeq {α : Type} (r : Reader α) : Reader (List α) := readThen readNat (readCount r)

/-- A name, a text or a field id. -/
def readString : Reader ByteString := readSeq readByte

/-- A cell: its kind (0 configuration, 1 decoded), then its latches. -/
def readCell : Reader Cell :=
  readThen readByte fun k =>
    if k = 0 then readThen readNat fun v => readPure ⟨.config, v⟩
    else if k = 1 then readThen readNat fun v => readPure ⟨.decoded, v⟩
    else fun _ => .error .malformed

/-- A matrix key and its single cell. -/
def readSingle : Reader (Coord × Nat) :=
  readThen readNat fun c => readThen readNat fun r => readThen readNat fun v => readPure ((c, r), v)

/-- A matrix key and its pair of cells. -/
def readPair : Reader (Coord × (Nat × Nat)) :=
  readThen readNat fun c => readThen readNat fun r =>
    readThen readNat fun v1 => readThen readNat fun v2 => readPure ((c, r), (v1, v2))

/-- A matrix: its kind (0 single, 1 paired), then its keys with their cells. -/
def readMatrix : Reader Matrix :=
  readThen readByte fun k =>
    if k = 0 then readThen (readSeq readSingle) fun cs => readPure (.single cs)
    else if k = 1 then readThen (readSeq readPair) fun cs => readPure (.paired cs)
    else fun _ => .error .malformed

/-- An `optmatrix`: 0 for `none`, or 1 and a matrix. -/
def readOptMatrix : Reader (Option Matrix) :=
  readThen readBool fun present =>
    if present then readThen readMatrix fun m => readPure (some m) else readPure none

/-- A cursor: `wi`, then `bi` in one byte. -/
def readCursor : Reader Cursor :=
  readThen readWord fun wi => readThen readByte fun b =>
    if h : b.toNat < 32 then readPure ⟨wi, ⟨b.toNat, h⟩⟩ else fun _ => .error .malformed

/-- A word stream. -/
def readWords : Reader (List Word) := readSeq readWord

/-- The opcode map (30_encoding R73): the operands' readers of each assigned opcode, in R73's order. -/
def operandsOf (opcode : Byte) : Option (Reader Instr) :=
  match opcode.toNat with
  | 0x10 => some <| readThen readString fun n => readThen readWord fun w => readThen readDir fun d =>
      readThen readWord fun v => readPure (.addParamDir n w d v)
  | 0x11 => some <| readThen readString fun n => readThen readString fun t => readThen readWord fun v =>
      readPure (.addParamOrd n t v)
  | 0x12 => some <| readThen readWord fun i => readThen readWord fun v => readPure (.setParamIdx i v)
  | 0x13 => some <| readThen readString fun n => readThen readWord fun v => readPure (.setParamName n v)
  | 0x14 => some <| readThen readWord fun i => readPure (.getParamIdx i)
  | 0x15 => some <| readThen readString fun n => readPure (.getParamName n)
  | 0x16 => some <| readThen readWord fun i => readPure (.getWidthIdx i)
  | 0x17 => some <| readThen readString fun n => readPure (.getWidthName n)
  | 0x18 => some <| readThen readWord fun i => readPure (.getOrderIdx i)
  | 0x19 => some <| readThen readString fun n => readPure (.getOrderName n)
  | 0x1A => some <| readThen readWord fun i => readPure (.getName i)
  | 0x1B => some <| readThen readWord fun i => readPure (.getIdx2Name i)
  | 0x1C => some <| readThen readString fun n => readPure (.getName2Idx n)
  | 0x1D => some <| readPure .clear
  | 0x1E => some <| readThen readDir fun d => readPure (.genBitvec d)
  | 0x20 => some <| readPure .pcNew
  | 0x21 => some <| readThen readCell fun c => readThen readWord fun i => readThen readBool fun v =>
      readPure (.pcSetBit c i v)
  | 0x22 => some <| readThen readCell fun c => readThen readWord fun i => readPure (.pcGetBit c i)
  | 0x23 => some <| readThen readCell fun c => readThen readWord fun o => readThen readWord fun w =>
      readThen readNat fun v => readPure (.pcSetSubfield c o w v)
  | 0x24 => some <| readThen readCell fun c => readThen readWord fun o => readThen readWord fun w =>
      readPure (.pcGetSubfield c o w)
  | 0x25 => some <| readThen readCell fun c => readThen readString fun f => readThen readNat fun v =>
      readPure (.pcSetNamed c f v)
  | 0x26 => some <| readThen readCell fun c => readThen readString fun f => readPure (.pcGetNamed c f)
  | 0x27 => some <| readThen readCell fun c => readThen readNat fun v => readPure (.pcSetLatches c v)
  | 0x28 => some <| readThen readCell fun a => readThen readCell fun b => readPure (.pcEq a b)
  | 0x30 => some <| readThen readMatrix fun m => readPure (.progMatrix m)
  | 0x31 => some <| readThen readOptMatrix fun m => readThen readWord fun n => readPure (.configureMatrix m n)
  | 0x40 => some <| readThen readWords fun ws => readThen readCursor fun c => readPure (.nextField ws c)
  | 0x41 => some <| readThen readWords fun ws => readPure (.decodeFrame ws)
  | 0x42 => some <| readThen readWords fun ws => readPure (.splitFrame ws)
  | _ => none

/-- The decoder (30_encoding R71, R73, R87 a). -/
def decode : List Byte → Decoded
  | [] => .idle
  | b :: bs =>
    match operandsOf b with
    | none => .unassigned b bs
    | some r =>
      match r bs with
      | .error e => .rejected e
      | .ok (i, rest) => .request i rest

/-! ### The encoder -/

/-- The digits of `n` in base 128; `fuel` bounds their number. -/
def natBytesFuel : Nat → Nat → List Byte
  | 0, n => [BitVec.ofNat 8 (n % 128)]
  | fuel + 1, n =>
    if n < 128 then [BitVec.ofNat 8 n]
    else BitVec.ofNat 8 (128 + n % 128) :: natBytesFuel fuel (n / 128)

/-- A number in base 128. -/
def natBytes (n : Nat) : List Byte := natBytesFuel n n

/-- Four bytes, least significant first. -/
def wordBytes (w : Word) : List Byte :=
  [w.extractLsb' 0 8, w.extractLsb' 8 8, w.extractLsb' 16 8, w.extractLsb' 24 8]

/-- A Boolean. -/
def boolBytes (b : Bool) : List Byte := [if b then 1 else 0]

/-- A direction code. -/
def dirBytes (d : BitVec 3) : List Byte := [d.setWidth 8]

/-- A sequence. -/
def seqBytes {α : Type} (f : α → List Byte) (as : List α) : List Byte := natBytes as.length ++ as.flatMap f

/-- A byte string. -/
def stringBytes (s : ByteString) : List Byte := seqBytes (fun b => [b]) s

/-- A cell. -/
def cellBytes (c : Cell) : List Byte :=
  (match c.kind with | .config => 0 | .decoded => 1) :: natBytes c.latches

/-- A matrix key and its single cell. -/
def singleBytes (e : Coord × Nat) : List Byte := natBytes e.1.1 ++ natBytes e.1.2 ++ natBytes e.2

/-- A matrix key and its pair of cells. -/
def pairBytes (e : Coord × (Nat × Nat)) : List Byte :=
  natBytes e.1.1 ++ natBytes e.1.2 ++ natBytes e.2.1 ++ natBytes e.2.2

/-- A matrix. -/
def matrixBytes : Matrix → List Byte
  | .single cs => 0 :: seqBytes singleBytes cs
  | .paired cs => 1 :: seqBytes pairBytes cs

/-- An `optmatrix`. -/
def optMatrixBytes : Option Matrix → List Byte
  | none => boolBytes false
  | some m => boolBytes true ++ matrixBytes m

/-- A cursor. -/
def cursorBytes (c : Cursor) : List Byte := wordBytes c.wi ++ [BitVec.ofNat 8 c.bi.val]

/-- A word stream. -/
def wordsBytes (ws : List Word) : List Byte := seqBytes wordBytes ws

/-- The opcode of an operation (30_encoding R73). -/
def Instr.opcode : Instr → Byte
  | .addParamDir _ _ _ _ => 0x10
  | .addParamOrd _ _ _ => 0x11
  | .setParamIdx _ _ => 0x12
  | .setParamName _ _ => 0x13
  | .getParamIdx _ => 0x14
  | .getParamName _ => 0x15
  | .getWidthIdx _ => 0x16
  | .getWidthName _ => 0x17
  | .getOrderIdx _ => 0x18
  | .getOrderName _ => 0x19
  | .getName _ => 0x1A
  | .getIdx2Name _ => 0x1B
  | .getName2Idx _ => 0x1C
  | .clear => 0x1D
  | .genBitvec _ => 0x1E
  | .pcNew => 0x20
  | .pcSetBit _ _ _ => 0x21
  | .pcGetBit _ _ => 0x22
  | .pcSetSubfield _ _ _ _ => 0x23
  | .pcGetSubfield _ _ _ => 0x24
  | .pcSetNamed _ _ _ => 0x25
  | .pcGetNamed _ _ => 0x26
  | .pcSetLatches _ _ => 0x27
  | .pcEq _ _ => 0x28
  | .progMatrix _ => 0x30
  | .configureMatrix _ _ => 0x31
  | .nextField _ _ => 0x40
  | .decodeFrame _ => 0x41
  | .splitFrame _ => 0x42

/-- The operands of an operation, in 30_encoding R73's order. -/
def Instr.operandBytes : Instr → List Byte
  | .addParamDir n w d v => stringBytes n ++ wordBytes w ++ dirBytes d ++ wordBytes v
  | .addParamOrd n t v => stringBytes n ++ stringBytes t ++ wordBytes v
  | .setParamIdx i v => wordBytes i ++ wordBytes v
  | .setParamName n v => stringBytes n ++ wordBytes v
  | .getParamIdx i => wordBytes i
  | .getParamName n => stringBytes n
  | .getWidthIdx i => wordBytes i
  | .getWidthName n => stringBytes n
  | .getOrderIdx i => wordBytes i
  | .getOrderName n => stringBytes n
  | .getName i => wordBytes i
  | .getIdx2Name i => wordBytes i
  | .getName2Idx n => stringBytes n
  | .clear => []
  | .genBitvec d => dirBytes d
  | .pcNew => []
  | .pcSetBit c i v => cellBytes c ++ wordBytes i ++ boolBytes v
  | .pcGetBit c i => cellBytes c ++ wordBytes i
  | .pcSetSubfield c o w v => cellBytes c ++ wordBytes o ++ wordBytes w ++ natBytes v
  | .pcGetSubfield c o w => cellBytes c ++ wordBytes o ++ wordBytes w
  | .pcSetNamed c f v => cellBytes c ++ stringBytes f ++ natBytes v
  | .pcGetNamed c f => cellBytes c ++ stringBytes f
  | .pcSetLatches c v => cellBytes c ++ natBytes v
  | .pcEq a b => cellBytes a ++ cellBytes b
  | .progMatrix m => matrixBytes m
  | .configureMatrix m n => optMatrixBytes m ++ wordBytes n
  | .nextField ws c => wordsBytes ws ++ cursorBytes c
  | .decodeFrame ws => wordsBytes ws
  | .splitFrame ws => wordsBytes ws

/-- The bytes of a request: one opcode byte, then the operands (30_encoding R71). -/
def encode (i : Instr) : List Byte := i.opcode :: i.operandBytes

/-! ### Words of the opcode table -/

/-- The bytes of an instruction whose bits are `w`, numbered as the opcode table numbers them (bit 0 the least
significant bit of the first byte), followed by operand bytes of zeros. -/
def tableBytes (nbits w : Nat) : List Byte :=
  ((List.range ((nbits + 7) / 8)).map fun k => BitVec.ofNat 8 (w >>> (8 * k))) ++ List.replicate 32 0

/-- The instruction the decoder reads from a word of the opcode table. -/
def decodeTableWord (nbits w : Nat) : Option Instr :=
  match decode (tableBytes nbits w) with
  | .request i _ => some i
  | _ => none

end Sys2Proof
end

