-- ==== Sys2Proof/Machine/Fetch.lean ====
section
/-! DEFINITION. Taking the next request from the host's port (30_encoding R70, R71). -/

namespace Sys2Proof.Machine

/-- What the port holds for this step. -/
inductive Fetched where
  /-- Nothing is requested: the block waits (70_reset R272). -/
  | waiting
  /-- An operation with the state after its bytes were taken. -/
  | run (i : Instr) (s : State)
  /-- An unassigned opcode (30_encoding R87 a) with the state after its byte was taken. -/
  | illegal (s : State)
  /-- Bytes that are no request of the framing. -/
  | refuse (r : Refusal)
deriving DecidableEq, Repr

/-- The state after the request's bytes were taken from the port. -/
def State.takeRequest (s : State) (rest : List Byte) : State := { s with port := rest }

/-- Take the next request: the first one in the port. DESIGN CHOICE (log 25): the spec assumes that the host
issues no second request before the response to the first (20_memory R60); bytes behind the first request stay in
the port and later steps run them in order. -/
def fetch (s : State) : Fetched :=
  match decode s.port with
  | .idle => .waiting
  | .unassigned _ rest => .illegal (s.takeRequest rest)
  | .rejected .incomplete => .refuse .requestIncomplete
  | .rejected .malformed => .refuse .requestMalformed
  | .request i rest => .run i (s.takeRequest rest)

/-- The response to an unassigned opcode: `ERR_ILLEGAL_OP`, no state written, no result (30_encoding R87 a). -/
def illegalOp (s : State) : Result := raise s .errIllegalOp .none

/-- The state with request bytes in the port and no reset asked for. -/
def State.withPort (s : State) (bytes : List Byte) : State := { s with port := bytes, resetLine := false }

end Sys2Proof.Machine
end

