-- ==== Sys2Proof/Machine/Step.lean ====
section
/-! DEFINITION. One step of the block: a reset the host asked for, or the next request to completion
(20_memory R60, 70_reset R272), or waiting. -/

namespace Sys2Proof.Machine

/-- One step. -/
def step (s : State) : Host.Outcome State Fault Refusal :=
  if s.resetLine then .next s.applyReset
  else
    match fetch s with
    | .waiting => .next s
    | .run i s' => exec i s'
    | .illegal s' => illegalOp s'
    | .refuse r => .refused r

/-- The state with a word of the opcode table placed where `step` takes its next request: the host has issued
it, operand bytes zero (log 18). -/
def State.withFetchWord (s : State) (nbits w : Nat) : State := s.withPort (tableBytes nbits w)

end Sys2Proof.Machine
end

