-- ==== Sys2Proof/Safety.lean ====
section
/-! DEFINITION. What counts as a safe state and a safe answer, and the spec's own words for bit streams and
frames, in the terms the statements use. -/

namespace Sys2Proof.Machine

/-- The invariants of an entry (10_state R23): (a) the width, (b) the permutation, (c) the value, (d) the name. -/
abbrev EntryOk (e : Entry) : Prop :=
  1 ≤ e.pos.length ∧ e.pos.length ≤ 30 ∧ e.pos.Perm (List.range e.pos.length) ∧
    e.value < 2 ^ e.pos.length ∧ e.name ≠ []

/-- The invariants of the registry: every entry's (10_state R23), and "names are unique" (R26). -/
abbrev RegistryOk (reg : List Entry) : Prop :=
  (∀ e ∈ reg, EntryOk e) ∧ (reg.map Entry.name).Nodup

/-- The values a field of width `w` can carry: 0, or a value with the top bit set (30_encoding R82). -/
abbrev FieldValueOk (w v : Nat) : Prop := v = 0 ∨ (2 ^ (w - 1) ≤ v ∧ v < 2 ^ w)

/-- A cell's latches fit its width (10_state R33). -/
abbrev CellOk (d : Desc) (c : Cell) : Prop := c.latches < 2 ^ cellWidth d c.kind

/-- Results keep to the widths of the descriptor: cells to theirs (10_state R33), field values to R82. -/
abbrev ResultsOk (d : Desc) (r : Results) : Prop :=
  match r with
  | .cell c => CellOk d c
  | .matrix cells _ => ∀ e ∈ cells, CellOk d e.2
  | .field v _ => FieldValueOk d.w v
  | .fields vs _ => ∀ v ∈ vs, FieldValueOk d.w v
  | _ => True

/-- A response carries results only with `OK` or `EOS` (30_encoding R75), and they keep to their widths. -/
abbrev ResponseOk (d : Desc) (r : Response) : Prop :=
  (r.status = .ok ∨ r.status = .eos ∨ r.results = .absent) ∧ ResultsOk d r.results

/-- The invariant of the machine: the registry's (10_state R23, R26) and the last response's. -/
def State.Inv (s : State) : Prop :=
  RegistryOk s.reg ∧ ∀ r, s.resp = some r → ResponseOk s.cfg.desc r

/-- The bit of a word stream at linear offset `q` (20_memory R53), 0 past the end. -/
def bitAtOffset (ws : List Word) (q : Nat) : Bool := (ws.getD (q / 32) 0).getLsbD (31 - q % 32)

/-- The stream begins with these bits. -/
abbrev StreamBegins (ws : List Word) (bits : List Bool) : Prop :=
  bits.length ≤ 32 * ws.length ∧ ∀ q, q < bits.length → bits[q]? = some (bitAtOffset ws q)

/-- The encoding of a field value (30_encoding R81): one 0 bit, or the `w` bits of the value. -/
def fieldBits (w v : Nat) : List Bool :=
  if v = 0 then [false] else (List.range w).map fun j => v.testBit (w - 1 - j)

/-- The fields of a frame in frame order (30_encoding R83): frame start, then per column its header and its
pixels, then frame end. -/
def frameFields (d : Desc) (header : Nat → Nat) (pixel : Nat → Nat → Nat) : List Nat :=
  d.frameStart ::
    ((List.range d.cols).flatMap fun c => header c :: (List.range d.rows).map fun r => pixel c r) ++ [d.frameEnd]

/-- The decoded matrix with these pixels, every coordinate of the geometry present (44_frame_decoder R222). -/
def decodedMatrix (d : Desc) (pixel : Nat → Nat → Nat) : List (Coord × Cell) :=
  (List.range d.cols).flatMap fun c => (List.range d.rows).map fun r => ((c, r), ⟨.decoded, pixel c r⟩)

/-- A header value that passes both checks for its column (30_encoding R84). -/
abbrev HeaderOk (d : Desc) (c h : Nat) : Prop :=
  h &&& d.colHdrMask = d.colHdrPattern ∧ (h &&& d.colIdxMask) >>> d.colIdxShift = c

/-- A token of a bit-order text: one digit or more (30_encoding R77, R78). -/
abbrev IsToken (tok : ByteString) : Prop := tok ≠ [] ∧ ∀ b ∈ tok, 0x30 ≤ b.toNat ∧ b.toNat ≤ 0x39

/-- The number a token stands for in decimal, leading zeros and all (30_encoding R78). -/
def tokenValue : ByteString → Nat
  | [] => 0
  | b :: bs => (b.toNat - 0x30) * 10 ^ bs.length + tokenValue bs

/-- The text of these tokens, separated by commas (30_encoding R77). -/
def joinTokens (toks : List ByteString) : ByteString := List.intercalate [0x2C] toks

/-- At offset `q` of the stream a full field begins of which the stream does not hold all `w` bits
(44_frame_decoder R214). -/
abbrev TruncatedFieldAt (w : Nat) (ws : List Word) (q : Nat) : Prop :=
  bitAtOffset ws q = true ∧ 32 * ws.length < q + w

/-- The keys of a matrix operand (10_state R36). -/
def matrixKeys : Matrix → List Coord
  | .single cells => cells.map Prod.fst
  | .paired cells => cells.map Prod.fst

/-- The name form, the duplicate-name and the capacity checks of AddParameter all pass
(40_registry R100, R121). -/
abbrev CanAdd (s : State) (name : ByteString) : Prop :=
  name ≠ [] ∧ (s.cfg.nameMax.any fun m => decide (m < name.length)) = false ∧
    (∀ e ∈ s.reg, e.name ≠ name) ∧ (s.cfg.regCapacity.any fun c => decide (c ≤ s.reg.length)) = false

/-- The response a state holds has this status. -/
abbrev HasStatus (s : State) (st : Status) : Prop := s.resp.map Response.status = some st

/-- An answer that is a next state. -/
def isNext : Result → Bool
  | .next _ => true
  | _ => false

end Sys2Proof.Machine
end

