-- ==== Sys2Proof/Certificates/Slice0/Obligations.lean ====
section
/-! DEFINITION. The statements for the provers. A next state written `{ s with … }` says that every field
not named in it is unchanged: that is the statement's frame. -/

open Sys2Proof Sys2Proof.Machine

/-! ### Requests and steps -/

/-- Decoding the encoding of any operation, with any operands and whatever follows it, gives it back. The
opcode byte is 30_encoding R71, R73; the operand framing is the model's choice (log 1). -/
def Obligations.DecodeInvertsEncode : Prop :=
  ∀ (i : Instr) (rest : List Byte), decode (encode i ++ rest) = .request i rest

/-- Hand-written requests decode to the operations they stand for (30_encoding R73; framing: log 1). -/
def Obligations.HandWrittenRequestsDecode : Prop :=
  decode [0x12, 1, 0, 0, 0, 15, 0, 0, 0] = .request (.setParamIdx 1 15) [] ∧
  decode [0x1E, 3] = .request (.genBitvec 0b011) [] ∧
  decode [0x23, 0, 1, 4, 0, 0, 0, 3, 0, 0, 0, 0x0D] = .request (.pcSetSubfield ⟨.config, 1⟩ 4 3 0xD) [] ∧
  decode [0x31, 0, 2, 0, 0, 0] = .request (.configureMatrix none 2) [] ∧
  decode [0x40, 1, 0x60, 0x93, 0xC0, 0xA5, 0, 0, 0, 0, 31] = .request (.nextField [0xA5C09360] ⟨0, 31⟩) []

/-- A step runs the decoded operation: when the port's bytes decode to an operation, whatever its operands, the
step is that operation on the state with the request's bytes taken from the port; what stands behind them waits
(log 25). -/
def Obligations.StepRunsTheDecodedRequest : Prop :=
  ∀ (s : State) (i : Instr) (rest : List Byte), s.resetLine = false → decode s.port = .request i rest →
    step s = exec i { s with port := rest }

/-- Operands outside their types (30_encoding R72, 10_state R36, R38, 42_pixelcell R169) end no run: what such an
operand stands for is open, and everything else the operation does is as its rule says (the model's choice,
log 10 and 24). A cell too wide is one that fits, the same to the seven PixelCell operations that take one cell;
PC_EQ of any two cells, too wide or of two widths, completes with some Boolean (which one it is for two cells that
fit one width is `PcEqComparesEveryBit`); a matrix is one in its type, with no key the operand does not have, the
same to both matrix operations. -/
def Obligations.OutOfTypeOperandsRunAsSomeInTypeOperands : Prop :=
  ∀ s : State, descWellFormed s.cfg.desc = true →
    (∀ c : Cell, ∃ c' : Cell, c'.kind = c.kind ∧ CellOk s.cfg.desc c' ∧ (CellOk s.cfg.desc c → c' = c) ∧
      (∀ index value, exec (.pcSetBit c index value) s = exec (.pcSetBit c' index value) s) ∧
      (∀ index, exec (.pcGetBit c index) s = exec (.pcGetBit c' index) s) ∧
      (∀ offset fieldWidth value, exec (.pcSetSubfield c offset fieldWidth value) s =
        exec (.pcSetSubfield c' offset fieldWidth value) s) ∧
      (∀ offset fieldWidth, exec (.pcGetSubfield c offset fieldWidth) s =
        exec (.pcGetSubfield c' offset fieldWidth) s) ∧
      (∀ field value, exec (.pcSetNamed c field value) s = exec (.pcSetNamed c' field value) s) ∧
      (∀ field, exec (.pcGetNamed c field) s = exec (.pcGetNamed c' field) s) ∧
      (∀ value, exec (.pcSetLatches c value) s = exec (.pcSetLatches c' value) s)) ∧
    (∀ a b : Cell, ∃ v, exec (.pcEq a b) s = .next { s with resp := some ⟨.ok, .bool v, .none⟩ }) ∧
    (∀ m : Matrix, ∃ m' : Matrix, Matrix.fits s.cfg.desc m' = true ∧ (∀ k ∈ matrixKeys m', k ∈ matrixKeys m) ∧
      exec (.progMatrix m) s = exec (.progMatrix m') s ∧
      ∀ maxAttempts, exec (.configureMatrix (some m) maxAttempts) s =
        exec (.configureMatrix (some m') maxAttempts) s)

/-- An unassigned opcode (30_encoding R87 a) is answered `ERR_ILLEGAL_OP`, without result, and nothing else
changes; that it takes one byte from the port is the model's choice (log 11). -/
def Obligations.UnassignedOpcodeAnswersIllegalOp : Prop :=
  ∀ (s : State) (b : Byte) (bs : List Byte), s.resetLine = false → s.port = b :: bs →
    b.toNat ∉ [0x10, 0x11, 0x12, 0x13, 0x14, 0x15, 0x16, 0x17, 0x18, 0x19, 0x1A, 0x1B, 0x1C, 0x1D, 0x1E,
      0x20, 0x21, 0x22, 0x23, 0x24, 0x25, 0x26, 0x27, 0x28, 0x30, 0x31, 0x40, 0x41, 0x42] →
    step s = .next { s with port := bs, resp := some ⟨.errIllegalOp, .absent, .none⟩ }

/-- With nothing requested the block waits (70_reset R272; log 16). -/
def Obligations.NothingRequestedWaits : Prop :=
  ∀ s : State, s.resetLine = false → s.port = [] → step s = .next s

/-- Reset empties the registry, leaves no error record and keeps the descriptor (70_reset R270, R271); what it
leaves of the host interface is the model's choice (log 8). -/
def Obligations.ResetEmptiesTheRegistry : Prop :=
  ∀ s : State, s.resetLine = true → step s = .next { s with reg := [], resp := none, resetLine := false }

/-! ### The whole machine -/

/-- The state after reset satisfies the invariant. -/
def Obligations.ResetStateSatisfiesInvariant : Prop := State.reset.reg = [] ∧ State.reset.Inv

/-- Every step keeps the invariant: the entries' (10_state R23), the unique names (R26), cells within their
widths (R33), field values (30_encoding R82), cursors (10_state R39), results only with a success status (R75). -/
def Obligations.EveryStepKeepsInvariant : Prop :=
  ∀ s t : State, s.Inv → step s = .next t → t.Inv

/-- No step writes the descriptor (10_state R32). -/
def Obligations.NoStepWritesTheDescriptor : Prop :=
  ∀ s t : State, step s = .next t → t.cfg = s.cfg

/-- The only operations that write the registry are the two AddParameter forms, which append one entry, the
two SetParameter forms, which write one value, and Clear (10_state R28). -/
def Obligations.OnlyFiveOperationsWriteTheRegistry : Prop :=
  ∀ (i : Instr) (s t : State), exec i s = .next t →
    t.reg = s.reg ∨
    (i.opcode ∈ [0x10#8, 0x11#8] ∧ ∃ e, t.reg = s.reg ++ [e]) ∨
    (i.opcode ∈ [0x12#8, 0x13#8] ∧ ∃ j e v, s.reg[j]? = some e ∧ t.reg = s.reg.set j { e with value := v }) ∨
    (i = .clear ∧ t.reg = [])

/-- Unless it is Clear, an operation keeps every entry at its index with its name and its order
(10_state R24, R26, R28). -/
def Obligations.EntriesKeepIndexNameAndOrder : Prop :=
  ∀ (i : Instr) (s t : State), i ≠ .clear → exec i s = .next t →
    ∀ (j : Nat) (e : Entry), s.reg[j]? = some e → ∃ v, t.reg[j]? = some { e with value := v }

/-- An operation that answers an error has no result and changes nothing but the response and, inside
CONFIGURE_MATRIX, the transport's record (60_exceptions R250). -/
def Obligations.ErrorsLeaveTheStateUnchanged : Prop :=
  ∀ (i : Instr) (s t : State) (r : Response), exec i s = .next t → t.resp = some r → r.status ≠ .ok →
    r.status ≠ .eos → r.results = .absent ∧ t.reg = s.reg ∧ t.cfg = s.cfg ∧
      (i.opcode ≠ 0x31#8 → t = { s with resp := some r })

/-- No operation takes bytes from the port or touches the reset line, and only CONFIGURE_MATRIX meets the
transport (20_memory R61, 43_matrix_encoder R196). -/
def Obligations.OnlyConfigureMatrixMeetsTheTransport : Prop :=
  ∀ (i : Instr) (s t : State), exec i s = .next t →
    t.port = s.port ∧ t.resetLine = s.resetLine ∧ t.cfg = s.cfg ∧
      (i.opcode ≠ 0x31#8 →
        t.verifyAnswers = s.verifyAnswers ∧ t.verifyAsked = s.verifyAsked ∧ t.sent = s.sent)

/-- Every operation but CONFIGURE_MATRIX is a function of its operands, the registry and the configuration:
two states that agree on these get the same response and the same registry (20_memory R61). -/
def Obligations.ResponsesDependOnRegistryAndDescriptorOnly : Prop :=
  ∀ (i : Instr) (s₁ s₂ t₁ : State), i.opcode ≠ 0x31#8 → s₁.reg = s₂.reg → s₁.cfg = s₂.cfg →
    exec i s₁ = .next t₁ → ∃ t₂, exec i s₂ = .next t₂ ∧ t₂.resp = t₁.resp ∧ t₂.reg = t₁.reg

/-- The machine stops with a fault only inside CONFIGURE_MATRIX and only when the transport never answers; and
there it does: a silent answer to an attempt within the limit, after `k` failed ones, stops the operation, which
the model has no further step for (43_matrix_encoder R199; log 5, log 6). -/
def Obligations.OnlyASilentTransportStopsTheMachine : Prop :=
  (∀ (i : Instr) (s : State) (f : Fault), exec i s = .fault f →
    i.opcode = 0x31#8 ∧ VerifyAnswer.silent ∈ s.verifyAnswers) ∧
  (∀ (s : State) (m : Matrix) (maxAttempts : Word) (k : Nat) (rest : List VerifyAnswer),
    descWellFormed s.cfg.desc = true →
    k < (if maxAttempts = 0 then s.cfg.desc.maxAttempts else maxAttempts.toNat) →
    s.verifyAnswers = List.replicate k .mismatch ++ .silent :: rest →
    exec (.configureMatrix (some m) maxAttempts) s = .fault .transportNeverAnswers)

/-- Under a well-formed descriptor no operation is refused, whatever its operands, and unless the transport keeps
silent every operation answers with a response (operands outside their types: log 10 and 24). -/
def Obligations.EveryOperationAnswersUnderAWellFormedDescriptor : Prop :=
  ∀ (i : Instr) (s : State), descWellFormed s.cfg.desc = true →
    (∀ r, exec i s ≠ .refused r) ∧
    (VerifyAnswer.silent ∉ s.verifyAnswers → ∃ t, exec i s = .next t ∧ t.resp.isSome = true)

/-- With a descriptor that breaks 10_state R31 the PixelCell, matrix and decoder operations refuse to run;
registry operations need no descriptor (70_reset R273 a) and answer. -/
def Obligations.OnlyDescriptorOperationsNeedTheDescriptor : Prop :=
  ∀ (i : Instr) (s : State), descWellFormed s.cfg.desc = false →
    if i.opcode.toNat < 0x20 then ∃ t, exec i s = .next t
    else exec i s = .refused .illFormedDescriptor

/-! ### Registry -/

/-- ADD_PARAM_DIR completes: with a width of 1 to 30, one of the two built-in directions and a name that can
be added, it appends one entry with the built-in order and the clamped value (40_registry R100, R101, R103,
R106). -/
def Obligations.AddParamDirAppendsTheEntry : Prop :=
  ∀ (s : State) (name : ByteString) (width initial : Word), 1 ≤ width.toNat → width.toNat ≤ 30 →
    CanAdd s name →
    exec (.addParamDir name width 0b000 initial) s = .next { s with
      reg := s.reg ++ [⟨name, (List.range width.toNat).reverse, min initial.toNat (2 ^ width.toNat - 1)⟩]
      resp := some ⟨.ok, .absent, .none⟩ } ∧
    exec (.addParamDir name width 0b001 initial) s = .next { s with
      reg := s.reg ++ [⟨name, List.range width.toNat, min initial.toNat (2 ^ width.toNat - 1)⟩]
      resp := some ⟨.ok, .absent, .none⟩ }

/-- ADD_PARAM_DIR's checks in R102's order decide the status, and an error changes nothing else
(40_registry R100, R102, R107, R121). -/
def Obligations.AddParamDirChecksInOrder : Prop :=
  ∀ (s : State) (name : ByteString) (width : Word) (direction : BitVec 3) (initial : Word),
    ∃ t, exec (.addParamDir name width direction initial) s = .next t ∧
      HasStatus t
        (if width.toNat = 0 ∨ 30 < width.toNat then .errBadWidth
        else if direction ≠ 0b000 ∧ direction ≠ 0b001 then .errBadDirection
        else if name = [] ∨ (s.cfg.nameMax.any fun m => decide (m < name.length)) = true then .errBadName
        else if ∃ e ∈ s.reg, e.name = name then .errDupName
        else if (s.cfg.regCapacity.any fun c => decide (c ≤ s.reg.length)) = true then .errRegFull
        else .ok) ∧
      (¬ HasStatus t .ok → t = { s with resp := t.resp })

/-- ADD_PARAM_ORD completes: a text of at most 80 characters whose tokens are digit strings, leading zeros
allowed, that list a permutation of `0..m-1`, appends an entry of width `m` with exactly that order and the
clamped value (40_registry R104, R103; 30_encoding R78). -/
def Obligations.AddParamOrdAppendsTheParsedOrder : Prop :=
  ∀ (s : State) (name : ByteString) (toks : List ByteString) (initial : Word), toks ≠ [] →
    (∀ tok ∈ toks, IsToken tok) → (joinTokens toks).length ≤ 80 →
    (toks.map tokenValue).Perm (List.range toks.length) → CanAdd s name →
    exec (.addParamOrd name (joinTokens toks) initial) s = .next { s with
      reg := s.reg ++ [⟨name, toks.map tokenValue, min initial.toNat (2 ^ toks.length - 1)⟩]
      resp := some ⟨.ok, .absent, .none⟩ }

/-- ADD_PARAM_ORD's checks in R105's order. Before it looks at the name it refuses (30_encoding R77, R78) a text of
a bad length or with a character that is neither digit nor comma; an empty token; digit strings, of any size and
with any leading zeros, whose numbers are no permutation. A text that parses goes on to the name form, the
duplicate name and the capacity, and the first of them that fails is answered (40_registry R104, R105, R121).
Each refusal changes nothing but the response. -/
def Obligations.AddParamOrdChecksInOrder : Prop :=
  ∀ (s : State) (name text : ByteString) (toks : List ByteString) (initial : Word),
    ((text.length < 1 ∨ 80 < text.length ∨
        ∃ b ∈ text, b ≠ 0x2C#8 ∧ ¬ (0x30 ≤ b.toNat ∧ b.toNat ≤ 0x39)) →
      exec (.addParamOrd name text initial) s = .next { s with resp := some ⟨.errBadText, .absent, .none⟩ }) ∧
    (1 ≤ text.length → text.length ≤ 80 →
        (∀ b ∈ text, b = 0x2C#8 ∨ (0x30 ≤ b.toNat ∧ b.toNat ≤ 0x39)) →
        (text.head? = some 0x2C#8 ∨ text.getLast? = some 0x2C#8 ∨ [0x2C#8, 0x2C#8] <:+: text) →
      exec (.addParamOrd name text initial) s = .next { s with resp := some ⟨.errBadOrder, .absent, .none⟩ }) ∧
    (toks ≠ [] → (∀ tok ∈ toks, IsToken tok) → (joinTokens toks).length ≤ 80 →
      (¬ (toks.map tokenValue).Perm (List.range toks.length) →
        exec (.addParamOrd name (joinTokens toks) initial) s =
          .next { s with resp := some ⟨.errBadOrder, .absent, .none⟩ }) ∧
      ((toks.map tokenValue).Perm (List.range toks.length) →
        let badName := name = [] ∨ (s.cfg.nameMax.any fun m => decide (m < name.length)) = true
        let dupName := ∃ e ∈ s.reg, e.name = name
        (badName → exec (.addParamOrd name (joinTokens toks) initial) s =
          .next { s with resp := some ⟨.errBadName, .absent, .none⟩ }) ∧
        (¬ badName → dupName → exec (.addParamOrd name (joinTokens toks) initial) s =
          .next { s with resp := some ⟨.errDupName, .absent, .none⟩ }) ∧
        (¬ badName → ¬ dupName → (s.cfg.regCapacity.any fun c => decide (c ≤ s.reg.length)) = true →
          exec (.addParamOrd name (joinTokens toks) initial) s =
            .next { s with resp := some ⟨.errRegFull, .absent, .none⟩ })))

/-- The 80-character limit enforces a width of 1 to 30: whatever text ADD_PARAM_ORD accepts, the entry it
appends has a permutation of `0..m-1` with `1 <= m <= 30` as its order (30_encoding R79, 10_state R23). -/
def Obligations.AcceptedOrderTextsGiveLegalWidths : Prop :=
  ∀ (s t : State) (name text : ByteString) (initial : Word),
    exec (.addParamOrd name text initial) s = .next t → HasStatus t .ok →
    ∃ e, t.reg = s.reg ++ [e] ∧ e.name = name ∧ 1 ≤ e.pos.length ∧ e.pos.length ≤ 30 ∧
      e.pos.Perm (List.range e.pos.length) ∧ e.value = min initial.toNat (2 ^ e.pos.length - 1)

/-- SET_PARAM_IDX (40_registry R108): it overwrites the value of a known entry when the new one fits, refuses
one that does not, and refuses an unknown index. -/
def Obligations.SetParamIdxWritesOrRefuses : Prop :=
  ∀ (s : State) (index value : Word) (i : Nat) (e : Entry),
    (index.toInt = i → s.reg[i]? = some e → value.toNat < 2 ^ e.pos.length →
      exec (.setParamIdx index value) s = .next { s with
        reg := s.reg.set i { e with value := value.toNat }
        resp := some ⟨.ok, .absent, .none⟩ }) ∧
    (index.toInt = i → s.reg[i]? = some e → 2 ^ e.pos.length ≤ value.toNat →
      exec (.setParamIdx index value) s = .next { s with resp := some ⟨.errValueRange, .absent, .none⟩ }) ∧
    (index.toInt < 0 ∨ (s.reg.length : Int) ≤ index.toInt →
      exec (.setParamIdx index value) s = .next { s with resp := some ⟨.errUnknownParam, .absent, .none⟩ })

/-- SET_PARAM_NAME (40_registry R110), on a registry whose names are unique. -/
def Obligations.SetParamNameWritesOrRefuses : Prop :=
  ∀ (s : State) (value : Word) (i : Nat) (e : Entry) (name : ByteString), (s.reg.map Entry.name).Nodup →
    (s.reg[i]? = some e → value.toNat < 2 ^ e.pos.length →
      exec (.setParamName e.name value) s = .next { s with
        reg := s.reg.set i { e with value := value.toNat }
        resp := some ⟨.ok, .absent, .none⟩ }) ∧
    (s.reg[i]? = some e → 2 ^ e.pos.length ≤ value.toNat →
      exec (.setParamName e.name value) s = .next { s with resp := some ⟨.errValueRange, .absent, .none⟩ }) ∧
    ((∀ e' ∈ s.reg, e'.name ≠ name) →
      exec (.setParamName name value) s = .next { s with resp := some ⟨.errUnknownParam, .absent, .none⟩ })

/-- SET_PARAM_NAME behaves as GET_NAME2IDX followed by SET_PARAM_IDX with the index found, or with an unknown
index when the name is unknown (30_encoding R89). -/
def Obligations.SetByNameIsLookupThenSetByIndex : Prop :=
  ∀ (s t : State) (name : ByteString) (value index : Word) (n : Int),
    exec (.getName2Idx name) s = .next t → t.resp = some ⟨.ok, .int n, .none⟩ → index.toInt = n →
    exec (.setParamName name value) s = exec (.setParamIdx index value) s

/-- The five by-index lookups of a known index (40_registry R112 to R116). -/
def Obligations.LookupsByIndexHit : Prop :=
  ∀ (s : State) (index : Word) (i : Nat) (e : Entry), index.toInt = i → s.reg[i]? = some e →
    exec (.getParamIdx index) s = .next { s with resp := some ⟨.ok, .int e.value, .none⟩ } ∧
    exec (.getWidthIdx index) s = .next { s with resp := some ⟨.ok, .int e.pos.length, .none⟩ } ∧
    exec (.getOrderIdx index) s = .next { s with resp := some ⟨.ok, .order e.pos, .none⟩ } ∧
    exec (.getName index) s = .next { s with resp := some ⟨.ok, .name e.name, .none⟩ } ∧
    exec (.getIdx2Name index) s = .next { s with resp := some ⟨.ok, .name e.name, .none⟩ }

/-- The four by-name lookups of a known name, on a registry whose names are unique
(40_registry R112 to R114, R117). -/
def Obligations.LookupsByNameHit : Prop :=
  ∀ (s : State) (i : Nat) (e : Entry), (s.reg.map Entry.name).Nodup → s.reg[i]? = some e →
    exec (.getParamName e.name) s = .next { s with resp := some ⟨.ok, .int e.value, .none⟩ } ∧
    exec (.getWidthName e.name) s = .next { s with resp := some ⟨.ok, .int e.pos.length, .none⟩ } ∧
    exec (.getOrderName e.name) s = .next { s with resp := some ⟨.ok, .order e.pos, .none⟩ } ∧
    exec (.getName2Idx e.name) s = .next { s with resp := some ⟨.ok, .int i, .none⟩ }

/-- Every lookup miss answers `OK` with its sentinel: -1, the empty name or the empty sequence
(40_registry R118). -/
def Obligations.LookupMissesAnswerSentinels : Prop :=
  ∀ (s : State) (index : Word) (name : ByteString),
    (index.toInt < 0 ∨ (s.reg.length : Int) ≤ index.toInt →
      exec (.getParamIdx index) s = .next { s with resp := some ⟨.ok, .int (-1), .none⟩ } ∧
      exec (.getWidthIdx index) s = .next { s with resp := some ⟨.ok, .int (-1), .none⟩ } ∧
      exec (.getOrderIdx index) s = .next { s with resp := some ⟨.ok, .order [], .none⟩ } ∧
      exec (.getName index) s = .next { s with resp := some ⟨.ok, .name [], .none⟩ } ∧
      exec (.getIdx2Name index) s = .next { s with resp := some ⟨.ok, .name [], .none⟩ }) ∧
    ((∀ e ∈ s.reg, e.name ≠ name) →
      exec (.getParamName name) s = .next { s with resp := some ⟨.ok, .int (-1), .none⟩ } ∧
      exec (.getWidthName name) s = .next { s with resp := some ⟨.ok, .int (-1), .none⟩ } ∧
      exec (.getOrderName name) s = .next { s with resp := some ⟨.ok, .order [], .none⟩ } ∧
      exec (.getName2Idx name) s = .next { s with resp := some ⟨.ok, .int (-1), .none⟩ })

/-- What SetParameter wrote is what the next GetParameter reads, by index and by name (20_memory R63). -/
def Obligations.GetReadsWhatSetWrote : Prop :=
  ∀ (s t : State) (index value : Word) (name : ByteString),
    (exec (.setParamIdx index value) s = .next t → HasStatus t .ok →
      exec (.getParamIdx index) t = .next { t with resp := some ⟨.ok, .int value.toNat, .none⟩ }) ∧
    (exec (.setParamName name value) s = .next t → HasStatus t .ok →
      exec (.getParamName name) t = .next { t with resp := some ⟨.ok, .int value.toNat, .none⟩ })

/-- CLEAR empties the registry (40_registry R120). -/
def Obligations.ClearEmptiesTheRegistry : Prop :=
  ∀ s : State, exec .clear s = .next { s with reg := [], resp := some ⟨.ok, .absent, .none⟩ }

/-! ### Serializer -/

/-- The layout of the bit vector for the four valid directions (30_encoding R80, 41_serializer R141 to R143):
per family a vector `v` of the total width in which bit `k` of entry `i`'s slice stands at the sum of the
earlier widths plus `k`; the inverted direction answers `v` reversed. -/
def Obligations.GenBitvecLaysOutTheEntries : Prop :=
  ∀ (s : State) (rev : Bool), ∃ v : List Bool,
    v.length = (s.reg.map fun e => e.pos.length).sum ∧
    (∀ (i k : Nat) (e : Entry), s.reg[i]? = some e → k < e.pos.length →
      v[((s.reg.take i).map fun e => e.pos.length).sum + k]? =
        some (e.value.testBit (e.pos.getD (if rev then e.pos.length - 1 - k else k) 0))) ∧
    exec (.genBitvec (if rev then 0b001 else 0b000)) s =
      .next { s with resp := some ⟨.ok, .bits v, .none⟩ } ∧
    exec (.genBitvec (if rev then 0b011 else 0b010)) s =
      .next { s with resp := some ⟨.ok, .bits v.reverse, .none⟩ }

/-- The length of the bit vector: the sum of the widths, at most 30 bits an entry (41_serializer R144). -/
def Obligations.GenBitvecLengthIsTheTotalWidth : Prop :=
  ∀ (s : State) (direction : BitVec 3), RegistryOk s.reg → direction.toNat < 4 →
    ∃ v : List Bool, exec (.genBitvec direction) s = .next { s with resp := some ⟨.ok, .bits v, .none⟩ } ∧
      v.length = (s.reg.map fun e => e.pos.length).sum ∧ v.length ≤ 30 * s.reg.length

/-- An invalid direction answers `OK` with the empty sequence (41_serializer R145). -/
def Obligations.GenBitvecInvalidDirectionIsEmpty : Prop :=
  ∀ (s : State) (direction : BitVec 3), 4 ≤ direction.toNat →
    exec (.genBitvec direction) s = .next { s with resp := some ⟨.ok, .bits [], .none⟩ }

/-- Under either scan every bit of an entry's value is sent exactly once (41_serializer R142). -/
def Obligations.EveryValueBitIsSentOnce : Prop :=
  ∀ (s : State) (e : Entry) (rev : Bool), s.reg = [e] → EntryOk e →
    ∃ v : List Bool, exec (.genBitvec (if rev then 0b001 else 0b000)) s =
        .next { s with resp := some ⟨.ok, .bits v, .none⟩ } ∧
      v.Perm ((List.range e.pos.length).map fun k => e.value.testBit k)

/-- A single parameter declared with a direction and serialized with a direction comes out most significant
bit first when the two are the same and least significant first when they differ (41_serializer R147, R148). -/
def Obligations.SingleParameterExpandsInItsOrder : Prop :=
  ∀ (s t : State) (name : ByteString) (width initial : Word) (declared scanned : Bool), s.reg = [] →
    exec (.addParamDir name width (if declared then 0b001 else 0b000) initial) s = .next t → HasStatus t .ok →
    exec (.genBitvec (if scanned then 0b001 else 0b000)) t = .next { t with resp := some ⟨.ok, .bits
      ((List.range width.toNat).map fun k => (min initial.toNat (2 ^ width.toNat - 1)).testBit
        (if declared = scanned then width.toNat - 1 - k else k)), .none⟩ }

/-! ### PixelCell -/

/-- PC_NEW answers the chip's default pattern (42_pixelcell R160). -/
def Obligations.PcNewAnswersTheDefaultLatches : Prop :=
  ∀ s : State, descWellFormed s.cfg.desc = true →
    exec .pcNew s = .next { s with resp := some ⟨.ok, .cell ⟨.config, s.cfg.desc.defaultLatches⟩, .none⟩ }

/-- PC_SET_BIT changes only the bit named, and PC_GET_BIT reads it (42_pixelcell R161, R162). -/
def Obligations.SetBitChangesOneBitAndGetBitReadsIt : Prop :=
  ∀ (s : State) (c : Cell) (index : Word) (value : Bool), descWellFormed s.cfg.desc = true →
    CellOk s.cfg.desc c → index.toNat < cellWidth s.cfg.desc c.kind →
    (∃ y, exec (.pcSetBit c index value) s = .next { s with resp := some ⟨.ok, .cell ⟨c.kind, y⟩, .none⟩ } ∧
      y < 2 ^ cellWidth s.cfg.desc c.kind ∧
      ∀ k, y.testBit k = if k = index.toNat then value else c.latches.testBit k) ∧
    exec (.pcGetBit c index) s =
      .next { s with resp := some ⟨.ok, .bool (c.latches.testBit index.toNat), .none⟩ }

/-- PC_SET_SUBFIELD writes the low bits of the value into its span and no other bit (42_pixelcell R163). -/
def Obligations.SetSubfieldWritesOnlyItsSpan : Prop :=
  ∀ (s : State) (c : Cell) (offset fieldWidth : Word) (value : Nat), descWellFormed s.cfg.desc = true →
    CellOk s.cfg.desc c → offset.toNat + fieldWidth.toNat ≤ cellWidth s.cfg.desc c.kind →
    ∃ y, exec (.pcSetSubfield c offset fieldWidth value) s =
        .next { s with resp := some ⟨.ok, .cell ⟨c.kind, y⟩, .none⟩ } ∧
      y < 2 ^ cellWidth s.cfg.desc c.kind ∧
      ∀ k, y.testBit k =
        if offset.toNat ≤ k ∧ k < offset.toNat + fieldWidth.toNat then value.testBit (k - offset.toNat)
        else c.latches.testBit k

/-- PC_GET_SUBFIELD answers the bits of its span, and after a PC_SET_SUBFIELD the low bits written
(42_pixelcell R164). -/
def Obligations.GetSubfieldReadsBackTheSpan : Prop :=
  ∀ (s t : State) (c c' : Cell) (offset fieldWidth : Word) (value : Nat), descWellFormed s.cfg.desc = true →
    CellOk s.cfg.desc c → offset.toNat + fieldWidth.toNat ≤ cellWidth s.cfg.desc c.kind →
    exec (.pcGetSubfield c offset fieldWidth) s = .next { s with
      resp := some ⟨.ok, .ul (c.latches / 2 ^ offset.toNat % 2 ^ fieldWidth.toNat), .none⟩ } ∧
    (exec (.pcSetSubfield c offset fieldWidth value) s = .next t → t.resp = some ⟨.ok, .cell c', .none⟩ →
      exec (.pcGetSubfield c' offset fieldWidth) t = .next { t with
        resp := some ⟨.ok, .ul (value % 2 ^ fieldWidth.toNat), .none⟩ })

/-- A bit index or a span outside the cell is answered `ERR_CELL_RANGE` (42_pixelcell R165), a field's piece
outside a decoded cell too (the model's reading, log 22); an id that is no key of `LAYOUT` is answered
`ERR_UNKNOWN_FIELD` (R166, R167). -/
def Obligations.CellRequestsOutsideTheCellAreErrors : Prop :=
  ∀ (s : State) (c : Cell) (index offset fieldWidth : Word) (bit : Bool) (value : Nat) (field : ByteString)
    (ps : List Piece), descWellFormed s.cfg.desc = true →
    (cellWidth s.cfg.desc c.kind ≤ index.toNat →
      exec (.pcSetBit c index bit) s = .next { s with resp := some ⟨.errCellRange, .absent, .none⟩ } ∧
      exec (.pcGetBit c index) s = .next { s with resp := some ⟨.errCellRange, .absent, .none⟩ }) ∧
    (cellWidth s.cfg.desc c.kind < offset.toNat + fieldWidth.toNat →
      exec (.pcSetSubfield c offset fieldWidth value) s =
        .next { s with resp := some ⟨.errCellRange, .absent, .none⟩ } ∧
      exec (.pcGetSubfield c offset fieldWidth) s =
        .next { s with resp := some ⟨.errCellRange, .absent, .none⟩ }) ∧
    (s.cfg.desc.layout.lookup field = some ps →
      (∃ p ∈ ps, cellWidth s.cfg.desc c.kind < p.offset + p.width) →
      exec (.pcSetNamed c field value) s = .next { s with resp := some ⟨.errCellRange, .absent, .none⟩ } ∧
      exec (.pcGetNamed c field) s = .next { s with resp := some ⟨.errCellRange, .absent, .none⟩ }) ∧
    (s.cfg.desc.layout.lookup field = none →
      exec (.pcSetNamed c field value) s = .next { s with resp := some ⟨.errUnknownField, .absent, .none⟩ } ∧
      exec (.pcGetNamed c field) s = .next { s with resp := some ⟨.errUnknownField, .absent, .none⟩ })

/-- PC_SET_NAMED, on a configuration cell or on a decoded cell that holds the field's pieces: piece by piece
the next bits of the value, piece 0 the least significant (42_pixelcell R166, R171); no bit outside the
field's pieces changes (10_state R34). -/
def Obligations.SetNamedWritesOnlyItsPieces : Prop :=
  ∀ (s : State) (c : Cell) (value : Nat) (field : ByteString) (ps : List Piece),
    descWellFormed s.cfg.desc = true → CellOk s.cfg.desc c → s.cfg.desc.layout.lookup field = some ps →
    (c.kind = .config ∨ ∀ p ∈ ps, p.offset + p.width ≤ cellWidth s.cfg.desc c.kind) →
    ∃ y, exec (.pcSetNamed c field value) s =
        .next { s with resp := some ⟨.ok, .cell ⟨c.kind, y⟩, .none⟩ } ∧
      y < 2 ^ cellWidth s.cfg.desc c.kind ∧
      (∀ (before after : List Piece) (p : Piece), ps = before ++ p :: after → ∀ j, j < p.width →
        y.testBit (p.offset + j) = value.testBit ((before.map Piece.width).sum + j)) ∧
      (∀ k, (∀ p ∈ ps, ¬ (p.offset ≤ k ∧ k < p.offset + p.width)) → y.testBit k = c.latches.testBit k)

/-- PC_GET_NAMED completes on every known field whose pieces the cell holds, and after a PC_SET_NAMED it
answers the value cut to the field's total width (42_pixelcell R167). -/
def Obligations.GetNamedReadsBackSetNamed : Prop :=
  ∀ (s : State) (c : Cell) (value : Nat) (field : ByteString) (ps : List Piece),
    descWellFormed s.cfg.desc = true → CellOk s.cfg.desc c → s.cfg.desc.layout.lookup field = some ps →
    (c.kind = .config ∨ ∀ p ∈ ps, p.offset + p.width ≤ cellWidth s.cfg.desc c.kind) →
    (∃ v, exec (.pcGetNamed c field) s = .next { s with resp := some ⟨.ok, .ul v, .none⟩ } ∧
      v < 2 ^ (ps.map Piece.width).sum ∧
      ∀ (before after : List Piece) (p : Piece), ps = before ++ p :: after → ∀ j, j < p.width →
        v.testBit ((before.map Piece.width).sum + j) = c.latches.testBit (p.offset + j)) ∧
    (∀ (t : State) (c' : Cell), exec (.pcSetNamed c field value) s = .next t →
      t.resp = some ⟨.ok, .cell c', .none⟩ →
      exec (.pcGetNamed c' field) t = .next { t with
        resp := some ⟨.ok, .ul (value % 2 ^ (ps.map Piece.width).sum), .none⟩ })

/-- PC_SET_LATCHES replaces the whole cell by a value that fits and refuses a wider one (42_pixelcell R168). -/
def Obligations.SetLatchesReplacesTheCell : Prop :=
  ∀ (s : State) (c : Cell) (value : Nat), descWellFormed s.cfg.desc = true →
    (value < 2 ^ cellWidth s.cfg.desc c.kind →
      exec (.pcSetLatches c value) s = .next { s with resp := some ⟨.ok, .cell ⟨c.kind, value⟩, .none⟩ }) ∧
    (2 ^ cellWidth s.cfg.desc c.kind ≤ value →
      exec (.pcSetLatches c value) s = .next { s with resp := some ⟨.errValueRange, .absent, .none⟩ })

/-- PC_EQ of two cells of one width: equal exactly when all their bits agree (42_pixelcell R169). -/
def Obligations.PcEqComparesEveryBit : Prop :=
  ∀ (s : State) (a b : Cell), descWellFormed s.cfg.desc = true →
    cellWidth s.cfg.desc a.kind = cellWidth s.cfg.desc b.kind → CellOk s.cfg.desc a → CellOk s.cfg.desc b →
    ∃ v, exec (.pcEq a b) s = .next { s with resp := some ⟨.ok, .bool v, .none⟩ } ∧
      (v = true ↔ ∀ k, k < cellWidth s.cfg.desc a.kind → a.latches.testBit k = b.latches.testBit k)

/-! ### Matrix encoder -/

/-- PROG_MATRIX under pattern RBC: `2 * ROWS * L` words of `COLS` bits; word `k` belongs to the stage, row and
bit R183 gives it, and its element `c` is column `c`'s bit, an absent coordinate reading as zero
(43_matrix_encoder R183, R184; 30_encoding R86; 10_state R37). The matrix is in its type; for the others see
`OutOfTypeOperandsRunAsSomeInTypeOperands`. -/
def Obligations.RbcWordsFollowTheTraversal : Prop :=
  ∀ (s : State) (d : Desc) (cells : List (Coord × (Nat × Nat))), s.cfg.desc = d →
    descWellFormed d = true → Matrix.fits d (.paired cells) = true →
    ∃ ws : List (List Bool),
      exec (.progMatrix (.paired cells)) s =
        .next { s with resp := some ⟨.ok, .matrixOut (.words ws), .none⟩ } ∧
      ws.length = 2 * d.rows * d.l ∧
      ∀ k, k < 2 * d.rows * d.l → ∃ word, ws[k]? = some word ∧ word.length = d.cols ∧
        ∀ c, c < d.cols → word[c]? = some
          (let m := (cells.lookup (c, k % (d.rows * d.l) / d.l)).getD (0, 0)
           (if k / (d.rows * d.l) = 0 then m.1 else m.2).testBit (d.l - 1 - k % d.l))

/-- PROG_MATRIX under pattern SNAKE: the bit count and the places of the padding blocks and of every cell bit
(43_matrix_encoder R187 to R191; 10_state R37; the count and the offsets are R192, the spec's own inference).
`q r` is the number of rows before `r` with a periodic block. `SEL` is read from its table, whose layout is the
model's choice (log 13). The matrix is in its type; for the others see
`OutOfTypeOperandsRunAsSomeInTypeOperands`. -/
def Obligations.SnakeBitsFollowTheTraversal : Prop :=
  ∀ (s : State) (d : Desc) (cells : List (Coord × Nat)), s.cfg.desc = d →
    descWellFormed d = true → Matrix.fits d (.single cells) = true →
    let per : Nat → Bool := fun r => decide (r % d.spRows = 0) && (decide (0 < r) || d.periodicAtRow0)
    let q : Nat → Nat := fun r => ((List.range r).filter per).length
    let dcols := d.cols / 2
    let nper := (d.rows + d.spRows - 1) / d.spRows - (if d.periodicAtRow0 then 0 else 1)
    ∃ (bits : List Bool) (bytes : List Byte),
      exec (.progMatrix (.single cells)) s =
        .next { s with resp := some ⟨.ok, .matrixOut (.bytes bits bytes), .none⟩ } ∧
      bits.length = dcols * (2 + nper) + d.rows * d.l * d.cols ∧
      (∀ k, k < dcols → bits[k]? = some d.padBit ∧ bits[bits.length - dcols + k]? = some d.padBit) ∧
      (∀ r k, r < d.rows → per r = true → k < dcols →
        bits[dcols * (1 + q r) + r * d.l * d.cols + k]? = some d.padBit) ∧
      (∀ r sc b dc, r < d.rows → sc < 2 → b < d.l → dc < dcols →
        bits[dcols * (1 + q r + (if per r then 1 else 0)) + r * d.l * d.cols +
            ((sc * d.l + (d.l - 1 - b)) * dcols + dc)]? =
          some (((cells.lookup (d.sel.getD ((r * 2 + sc) * dcols + dc) (0, 0))).getD 0).testBit b))

/-- The bytes of a SNAKE output: 8 bits a byte from index 0, rounded up, the last byte completed with
`TAIL_FILL`; the place in the byte follows `BYTE_MSB_FIRST` (43_matrix_encoder R193, 30_encoding R88). -/
def Obligations.SnakeBytesPackTheBits : Prop :=
  ∀ (s t : State) (m : Matrix) (bits : List Bool) (bytes : List Byte), exec (.progMatrix m) s = .next t →
    t.resp = some ⟨.ok, .matrixOut (.bytes bits bytes), .none⟩ →
    bytes.length = (bits.length + 7) / 8 ∧
    ∀ j, j < 8 * bytes.length →
      (bytes.getD (j / 8) 0).getLsbD (if s.cfg.desc.byteMsbFirst then 7 - j % 8 else j % 8) =
        bits.getD j s.cfg.desc.tailFill

/-- Keys outside the geometry are never read: two matrices with the same entries for every coordinate of the
geometry give the same output (10_state R36, 43_matrix_encoder R181). That this holds of matrices outside their
type too, that PROG_MATRIX runs on them and that what it reads at a coordinate depends on that coordinate's
entries alone, is the model's choice (log 24). -/
def Obligations.KeysOutsideTheGeometryAreIgnored : Prop :=
  ∀ (s : State) (m₁ m₂ : List (Coord × Nat)) (p₁ p₂ : List (Coord × (Nat × Nat))),
    descWellFormed s.cfg.desc = true →
    ((∀ k : Coord, k.1 < s.cfg.desc.cols → k.2 < s.cfg.desc.rows →
        (m₁.filter fun e => e.1 == k) = m₂.filter fun e => e.1 == k) →
      exec (.progMatrix (.single m₁)) s = exec (.progMatrix (.single m₂)) s) ∧
    ((∀ k : Coord, k.1 < s.cfg.desc.cols → k.2 < s.cfg.desc.rows →
        (p₁.filter fun e => e.1 == k) = p₂.filter fun e => e.1 == k) →
      exec (.progMatrix (.paired p₁)) s = exec (.progMatrix (.paired p₂)) s)

/-- CONFIGURE_MATRIX completes when the transport verifies attempt `k + 1` within the limit: it answers that
number of attempts, and the transport was handed the same PROG_MATRIX output once an attempt
(43_matrix_encoder R196). -/
def Obligations.ConfigureMatrixSucceedsWhenVerified : Prop :=
  ∀ (s : State) (m : Matrix) (maxAttempts : Word) (k : Nat) (rest : List VerifyAnswer),
    descWellFormed s.cfg.desc = true →
    k < (if maxAttempts = 0 then s.cfg.desc.maxAttempts else maxAttempts.toNat) →
    s.verifyAnswers = List.replicate k .mismatch ++ .passed :: rest →
    ∃ out, exec (.progMatrix m) s = .next { s with resp := some ⟨.ok, .matrixOut out, .none⟩ } ∧
      exec (.configureMatrix (some m) maxAttempts) s = .next { s with
        verifyAnswers := rest
        sent := s.sent ++ List.replicate (k + 1) out
        resp := some ⟨.ok, .attempts (k + 1), .none⟩ }

/-- When every one of the `A` attempts fails verification CONFIGURE_MATRIX answers `ERR_COMM_FATAL` with the
attempts made (43_matrix_encoder R196, R197). -/
def Obligations.ConfigureMatrixExhaustsItsAttempts : Prop :=
  ∀ (s : State) (m : Matrix) (maxAttempts : Word) (a : Nat) (rest : List VerifyAnswer),
    descWellFormed s.cfg.desc = true →
    a = (if maxAttempts = 0 then s.cfg.desc.maxAttempts else maxAttempts.toNat) →
    s.verifyAnswers = List.replicate a .mismatch ++ rest →
    ∃ out, exec (.progMatrix m) s = .next { s with resp := some ⟨.ok, .matrixOut out, .none⟩ } ∧
      exec (.configureMatrix (some m) maxAttempts) s = .next { s with
        verifyAnswers := rest
        sent := s.sent ++ List.replicate a out
        resp := some ⟨.errCommFatal, .absent, .attempts a⟩ }

/-- Whatever a transport that always answers may answer, the free oracle's answers included, CONFIGURE_MATRIX
ends within the limit: with success or with `ERR_COMM_FATAL` after exactly `A` attempts, one output handed out
per attempt (43_matrix_encoder R196, R199; the oracle is log 5). -/
def Obligations.ConfigureMatrixIsBounded : Prop :=
  ∀ (s : State) (m : Matrix) (maxAttempts : Word) (a : Nat),
    descWellFormed s.cfg.desc = true →
    a = (if maxAttempts = 0 then s.cfg.desc.maxAttempts else maxAttempts.toNat) →
    VerifyAnswer.silent ∉ s.verifyAnswers →
    ∃ out, exec (.progMatrix m) s = .next { s with resp := some ⟨.ok, .matrixOut out, .none⟩ } ∧
      ∃ (n : Nat) (u : State), exec (.configureMatrix (some m) maxAttempts) s = .next u ∧ 1 ≤ n ∧ n ≤ a ∧
        u.sent = s.sent ++ List.replicate n out ∧ u.reg = s.reg ∧
        (u.resp = some ⟨.ok, .attempts n, .none⟩ ∨
          (n = a ∧ u.resp = some ⟨.errCommFatal, .absent, .attempts a⟩))

/-- A missing matrix is a fatal configuration error: no attempt, nothing sent (43_matrix_encoder R198). -/
def Obligations.MissingMatrixIsConfigFatal : Prop :=
  ∀ (s : State) (maxAttempts : Word), descWellFormed s.cfg.desc = true →
    exec (.configureMatrix none maxAttempts) s =
      .next { s with resp := some ⟨.errConfigFatal, .absent, .none⟩ }

/-! ### Frame decoder -/

/-- NEXT_FIELD past the end answers 0 with status `EOS` and the cursor unchanged; on a 0 bit it answers 0 and
moves one bit (the word index of a stream of `2^32` words and more is open, 10_state R40); with fewer than `W` bits left for a full field it answers `ERR_TRUNCATED`
(44_frame_decoder R211, R212, R214). -/
def Obligations.NextFieldEndsSuppressesAndTruncates : Prop :=
  ∀ (s : State) (ws : List Word) (c : Cursor), descWellFormed s.cfg.desc = true →
    (ws.length ≤ c.wi.toNat →
      exec (.nextField ws c) s = .next { s with resp := some ⟨.eos, .field 0 c, .none⟩ }) ∧
    (c.wi.toNat < ws.length → bitAtOffset ws (cursorOff c) = false →
      ∃ c', exec (.nextField ws c) s = .next { s with resp := some ⟨.ok, .field 0 c', .none⟩ } ∧
        (ws.length < 2 ^ 32 → cursorOff c' = cursorOff c + 1)) ∧
    (c.wi.toNat < ws.length → bitAtOffset ws (cursorOff c) = true → 32 * ws.length < cursorOff c + s.cfg.desc.w →
      exec (.nextField ws c) s = .next { s with resp := some ⟨.errTruncated, .absent, .none⟩ })

/-- NEXT_FIELD on a full field: the `W` bits from the cursor, most significant first, wherever the field
starts; the cursor moves `W` bits, on a stream of fewer than `2^32` words (44_frame_decoder R213, R215;
10_state R40). -/
def Obligations.NextFieldReadsFullFields : Prop :=
  ∀ (s : State) (ws : List Word) (c : Cursor), descWellFormed s.cfg.desc = true →
    bitAtOffset ws (cursorOff c) = true → cursorOff c + s.cfg.desc.w ≤ 32 * ws.length →
    ∃ v c', exec (.nextField ws c) s = .next { s with resp := some ⟨.ok, .field v c', .none⟩ } ∧
      (ws.length < 2 ^ 32 → cursorOff c' = cursorOff c + s.cfg.desc.w) ∧ v < 2 ^ s.cfg.desc.w ∧
      ∀ j, j < s.cfg.desc.w → v.testBit (s.cfg.desc.w - 1 - j) = bitAtOffset ws (cursorOff c + j)

/-- SPLIT_FRAME reads back the fields of any stream that begins with the encoding of `NF` fields, and its
cursor stands after them, if the stream has fewer than `2^32` words (44_frame_decoder R226, 30_encoding R81). -/
def Obligations.SplitFrameReadsEncodedFields : Prop :=
  ∀ (s : State) (ws : List Word) (fs : List Nat), descWellFormed s.cfg.desc = true →
    fs.length = 2 + s.cfg.desc.cols * (1 + s.cfg.desc.rows) → (∀ v ∈ fs, FieldValueOk s.cfg.desc.w v) →
    StreamBegins ws (fs.flatMap (fieldBits s.cfg.desc.w)) →
    ∃ c, exec (.splitFrame ws) s = .next { s with resp := some ⟨.ok, .fields fs c, .none⟩ } ∧
      (ws.length < 2 ^ 32 → cursorOff c = (fs.flatMap (fieldBits s.cfg.desc.w)).length)

/-- SPLIT_FRAME always answers, and what it answers is what the stream holds: the fields `fs` whose encoding the
stream begins with are either all `NF` fields, or as many as there are before the stream ends on a field boundary
(the other fields of the answer are 0 and the status is `EOS`), or as many as there are before a truncated full
field (`ERR_TRUNCATED`, with exactly these fields as its detail). The cursor stands after them, if the stream has
fewer than `2^32` words; on the empty stream it is the start cursor (44_frame_decoder R226, R227; 60_exceptions
R241). -/
def Obligations.SplitFrameAlwaysAnswers : Prop :=
  ∀ (s : State) (d : Desc) (ws : List Word), s.cfg.desc = d → descWellFormed d = true →
    let nf := 2 + d.cols * (1 + d.rows)
    (∃ (fs : List Nat) (c : Cursor), (∀ v ∈ fs, FieldValueOk d.w v) ∧
      StreamBegins ws (fs.flatMap (fieldBits d.w)) ∧
      ((fs.length = nf ∧ exec (.splitFrame ws) s = .next { s with resp := some ⟨.ok, .fields fs c, .none⟩ }) ∨
        (fs.length < nf ∧ (fs.flatMap (fieldBits d.w)).length = 32 * ws.length ∧
          exec (.splitFrame ws) s = .next { s with
            resp := some ⟨.eos, .fields (fs ++ List.replicate (nf - fs.length) 0) c, .none⟩ }) ∨
        (fs.length < nf ∧ TruncatedFieldAt d.w ws (fs.flatMap (fieldBits d.w)).length ∧
          exec (.splitFrame ws) s = .next { s with
            resp := some ⟨.errTruncated, .absent, .fieldsSoFar fs⟩ })) ∧
      (ws.length < 2 ^ 32 → cursorOff c = (fs.flatMap (fieldBits d.w)).length)) ∧
    exec (.splitFrame []) s =
      .next { s with resp := some ⟨.eos, .fields (List.replicate nf 0) ⟨0, 31⟩, .none⟩ }

/-- DECODE_FRAME of an encoded frame gives back its pixels: every coordinate of the geometry with its value in
a decoded cell, and the cursor after the frame, if the stream has fewer than `2^32` words (44_frame_decoder R217 to R223, 30_encoding R83). -/
def Obligations.DecodeFrameInvertsTheFrameFormat : Prop :=
  ∀ (s : State) (d : Desc) (ws : List Word) (header : Nat → Nat) (pixel : Nat → Nat → Nat),
    s.cfg.desc = d → descWellFormed d = true →
    (∀ v ∈ frameFields d header pixel, FieldValueOk d.w v) →
    (∀ c, c < d.cols → HeaderOk d c (header c)) →
    StreamBegins ws ((frameFields d header pixel).flatMap (fieldBits d.w)) →
    ∃ c, exec (.decodeFrame ws) s =
        .next { s with resp := some ⟨.ok, .matrix (decodedMatrix d pixel) c, .none⟩ } ∧
      (ws.length < 2 ^ 32 → cursorOff c = ((frameFields d header pixel).flatMap (fieldBits d.w)).length)

/-- DECODE_FRAME follows the fields SPLIT_FRAME shows: with every check passed it is their pixels in a matrix;
the first check that fails is named with what was observed (44_frame_decoder R217, R220, R221, R223, R224). -/
def Obligations.DecodeFrameNamesTheFirstFailedCheck : Prop :=
  ∀ (s t : State) (d : Desc) (ws : List Word) (fs : List Nat) (c : Cursor) (col : Nat),
    s.cfg.desc = d → exec (.splitFrame ws) s = .next t → t.resp = some ⟨.ok, .fields fs c, .none⟩ →
    let hdr : Nat → Nat := fun k => fs.getD (1 + k * (1 + d.rows)) 0
    let last := fs.getD (1 + d.cols * (1 + d.rows)) 0
    (fs.getD 0 0 ≠ d.frameStart →
      exec (.decodeFrame ws) s = .next { s with
        resp := some ⟨.errFrameStart, .absent, .observed (fs.getD 0 0)⟩ }) ∧
    (fs.getD 0 0 = d.frameStart → col < d.cols → (∀ k, k < col → HeaderOk d k (hdr k)) →
      (hdr col &&& d.colHdrMask ≠ d.colHdrPattern →
        exec (.decodeFrame ws) s = .next { s with
          resp := some ⟨.errColumnHeader, .absent, .columnObserved col (hdr col)⟩ }) ∧
      (hdr col &&& d.colHdrMask = d.colHdrPattern → (hdr col &&& d.colIdxMask) >>> d.colIdxShift ≠ col →
        exec (.decodeFrame ws) s = .next { s with
          resp := some ⟨.errColumnIndex, .absent, .columnObserved col (hdr col)⟩ })) ∧
    (fs.getD 0 0 = d.frameStart → (∀ k, k < d.cols → HeaderOk d k (hdr k)) →
      (last ≠ d.frameEnd →
        exec (.decodeFrame ws) s = .next { s with resp := some ⟨.errFrameEnd, .absent, .observed last⟩ }) ∧
      (last = d.frameEnd →
        exec (.decodeFrame ws) s = .next { s with resp := some ⟨.ok,
          .matrix (decodedMatrix d fun k r => fs.getD (2 + k * (1 + d.rows) + r) 0) c, .none⟩ }))

/-- A stream that ends before its frame does is never decoded: where SPLIT_FRAME does not answer `OK`,
DECODE_FRAME answers an error, without matrix or cursor. Which one: let `fs` be the fields, fewer than a frame
has, that the stream holds before it ends or before a full field it truncates. If all fields of `fs` pass their
checks the answer is `ERR_TRUNCATED` without detail, else it names the first of them that fails
(44_frame_decoder R220, R221, R224, R225). -/
def Obligations.ShortFramesAreNeverDecoded : Prop :=
  (∀ (s t u : State) (ws : List Word), exec (.splitFrame ws) s = .next t → ¬ HasStatus t .ok →
    exec (.decodeFrame ws) s = .next u → ¬ HasStatus u .ok ∧ u.resp.map Response.results = some .absent) ∧
  (∀ (s : State) (d : Desc) (ws : List Word) (fs : List Nat) (col : Nat),
    s.cfg.desc = d → descWellFormed d = true → (∀ v ∈ fs, FieldValueOk d.w v) →
    fs.length < 2 + d.cols * (1 + d.rows) → StreamBegins ws (fs.flatMap (fieldBits d.w)) →
    ((fs.flatMap (fieldBits d.w)).length = 32 * ws.length ∨
      TruncatedFieldAt d.w ws (fs.flatMap (fieldBits d.w)).length) →
    let read : Nat → Prop := fun k => 1 + k * (1 + d.rows) < fs.length
    let hdr : Nat → Nat := fun k => fs.getD (1 + k * (1 + d.rows)) 0
    ((fs = [] ∨ fs.head? = some d.frameStart) → (∀ k, k < d.cols → read k → HeaderOk d k (hdr k)) →
      exec (.decodeFrame ws) s = .next { s with resp := some ⟨.errTruncated, .absent, .none⟩ }) ∧
    (∀ v, fs.head? = some v → v ≠ d.frameStart →
      exec (.decodeFrame ws) s = .next { s with resp := some ⟨.errFrameStart, .absent, .observed v⟩ }) ∧
    (fs.head? = some d.frameStart → col < d.cols → read col → (∀ k, k < col → HeaderOk d k (hdr k)) →
      (hdr col &&& d.colHdrMask ≠ d.colHdrPattern →
        exec (.decodeFrame ws) s = .next { s with
          resp := some ⟨.errColumnHeader, .absent, .columnObserved col (hdr col)⟩ }) ∧
      (hdr col &&& d.colHdrMask = d.colHdrPattern → (hdr col &&& d.colIdxMask) >>> d.colIdxShift ≠ col →
        exec (.decodeFrame ws) s = .next { s with
          resp := some ⟨.errColumnIndex, .absent, .columnObserved col (hdr col)⟩ })))
end

