-- ==== Sys2Proof/Laws/Cells.lean ====
section
/-! SUPPORT. Bit by bit, what the cell and descriptor operations answer. -/

namespace Sys2Proof.Machine

/-- The bits of a mask (00_scope R12). -/
theorem maskN_testBit (n k : Nat) : (maskN n).testBit k = decide (k < n) := by
  simp [maskN, Nat.testBit_two_pow_sub_one]

/-- The bits of `~_n x` (00_scope R12). -/
theorem notN_testBit (n x k : Nat) : (notN n x).testBit k = (decide (k < n) && !x.testBit k) := by
  have h : x &&& maskN n < 2 ^ n := by
    rw [maskN, Nat.and_two_pow_sub_one_eq_mod]
    exact Nat.mod_lt _ (Nat.two_pow_pos n)
  have e : notN n x = 2 ^ n - ((x &&& maskN n) + 1) := by
    rw [notN]
    simp only [maskN] at h ⊢
    omega
  rw [e, Nat.testBit_two_pow_sub_succ h, Nat.testBit_and, maskN_testBit]
  by_cases hk : k < n <;> simp [hk]

/-- The masked write of 42_pixelcell R163 inside the cell: the span's bits are the value's low bits, the others
below the width are kept. -/
theorem putBits_testBit (lc x offset fw value k : Nat) :
    (putBits lc x offset fw value).testBit k =
      if offset ≤ k ∧ k < offset + fw then value.testBit (k - offset)
      else (decide (k < lc) && x.testBit k) := by
  simp only [putBits, Nat.testBit_or, Nat.testBit_and, notN_testBit, Nat.testBit_shiftLeft, maskN_testBit]
  by_cases h1 : offset ≤ k
  · by_cases h2 : k < offset + fw
    · have h3 : k - offset < fw := by omega
      simp [h1, h2, h3]
    · have h3 : ¬ k - offset < fw := by omega
      simp [h1, h2, h3, Bool.and_comm]
  · simp [h1, Bool.and_comm]

/-- A masked write inside the cell keeps the cell's width (10_state R33). -/
theorem putBits_lt (lc x offset fw value : Nat) (hs : offset + fw ≤ lc) :
    putBits lc x offset fw value < 2 ^ lc := by
  apply Nat.lt_pow_two_of_testBit
  intro k hk
  rw [putBits_testBit]
  have h1 : ¬ (offset ≤ k ∧ k < offset + fw) := by omega
  have h2 : ¬ k < lc := by omega
  simp [h1, h2]

/-- The masked read of 42_pixelcell R164. -/
theorem getBits_eq (x offset fw : Nat) : getBits x offset fw = x / 2 ^ offset % 2 ^ fw := by
  rw [getBits, maskN, Nat.and_two_pow_sub_one_eq_mod, Nat.shiftRight_eq_div_pow]

/-- The masked read, bit by bit. -/
theorem getBits_testBit (x offset fw k : Nat) :
    (getBits x offset fw).testBit k = (decide (k < fw) && x.testBit (offset + k)) := by
  simp [getBits, maskN_testBit, Bool.and_comm]

/-! ### Operands in and outside their types (30_encoding R72; log 10, 24) -/

/-- A number that fits a cell is what the cell holds. -/
@[simp] theorem fitLatches_of_lt {w v : Nat} (h : v < 2 ^ w) : fitLatches w v = v := if_pos h

/-- Whatever its operand, a cell's latches fit its width (10_state R33). -/
theorem fitLatches_lt (w v : Nat) : fitLatches w v < 2 ^ w := by
  unfold fitLatches
  split
  · assumption
  · exact Nat.mod_lt _ (Nat.two_pow_pos w)

theorem latchesOf_lt (d : Desc) (c : Cell) : latchesOf d c < 2 ^ cellWidth d c.kind := fitLatches_lt _ _

theorem latchesOf_of_lt {d : Desc} {c : Cell} (h : c.latches < 2 ^ cellWidth d c.kind) :
    latchesOf d c = c.latches := fitLatches_of_lt h

/-- A single-stage read is a cell of `L` bits, whatever the matrix operand (10_state R33, R37). -/
theorem cellAt_lt (d : Desc) (m : Matrix) (k : Coord) : cellAt d m k < 2 ^ d.l := by
  unfold cellAt
  split
  · exact Nat.two_pow_pos _
  · exact fitLatches_lt _ _
  · exact Nat.mod_lt _ (Nat.two_pow_pos _)

/-- A two-stage read is two cells of `L` bits, whatever the matrix operand (10_state R33, R37). -/
theorem pairAt_lt (d : Desc) (m : Matrix) (k : Coord) : (pairAt d m k).1 < 2 ^ d.l ∧ (pairAt d m k).2 < 2 ^ d.l := by
  unfold pairAt
  split
  · exact ⟨Nat.two_pow_pos _, Nat.two_pow_pos _⟩
  · exact ⟨fitLatches_lt _ _, fitLatches_lt _ _⟩
  · exact ⟨Nat.mod_lt _ (Nat.two_pow_pos _), Nat.mod_lt _ (Nat.two_pow_pos _)⟩

/-- With distinct keys a coordinate has the entry a lookup finds, and no other (10_state R36). -/
theorem filter_key_eq_of_nodup {α : Type} {cells : List (Coord × α)} (h : (cells.map Prod.fst).Nodup) (k : Coord) :
    (cells.filter fun e => e.1 == k) = ((cells.lookup k).map fun v => (k, v)).toList := by
  induction cells with
  | nil => rfl
  | cons e es ih =>
    obtain ⟨k', v⟩ := e
    simp only [List.map_cons, List.nodup_cons] at h
    by_cases hk : k' = k
    · subst hk
      have hn : (es.filter fun e => e.1 == k') = [] := by
        rw [List.filter_eq_nil_iff]
        intro e he hek
        exact h.1 (List.mem_map.mpr ⟨e, he, by simpa using hek⟩)
      simp [hn]
    · have hk' : (k == k') = false := by simpa using fun h => hk h.symm
      have hk'' : (k' == k) = false := by simpa using hk
      simp [List.lookup_cons, hk', hk'', ih h.2]

/-- `M(c, r)` of a single-stage matrix in its type (10_state R37). -/
theorem cellAt_single {d : Desc} {cells : List (Coord × Nat)} (h : Matrix.fits d (.single cells) = true) (k : Coord) :
    cellAt d (.single cells) k = (cells.lookup k).getD 0 := by
  simp only [Matrix.fits, Bool.and_eq_true, decide_eq_true_eq, List.all_eq_true] at h
  obtain ⟨⟨-, hn⟩, hf⟩ := h
  have hm := filter_key_eq_of_nodup hn k
  cases hl : cells.lookup k with
  | none => simp [cellAt, entriesAt, hm, hl]
  | some v =>
    have hv : v < 2 ^ d.l := by
      have : (k, v) ∈ cells.filter fun e => e.1 == k := by simp [hm, hl]
      exact hf _ (List.mem_filter.mp this).1
    simp [cellAt, entriesAt, hm, hl, hv]

/-- `M(c, r)` of a two-stage matrix in its type (10_state R37). -/
theorem pairAt_paired {d : Desc} {cells : List (Coord × (Nat × Nat))} (h : Matrix.fits d (.paired cells) = true)
    (k : Coord) : pairAt d (.paired cells) k = (cells.lookup k).getD (0, 0) := by
  simp only [Matrix.fits, Bool.and_eq_true, decide_eq_true_eq, List.all_eq_true] at h
  obtain ⟨⟨-, hn⟩, hf⟩ := h
  have hm := filter_key_eq_of_nodup hn k
  cases hl : cells.lookup k with
  | none => simp [pairAt, entriesAt, hm, hl]
  | some v =>
    have hv : v.1 < 2 ^ d.l ∧ v.2 < 2 ^ d.l := by
      have : (k, v) ∈ cells.filter fun e => e.1 == k := by simp [hm, hl]
      exact hf _ (List.mem_filter.mp this).1
    simp [pairAt, entriesAt, hm, hl, hv.1, hv.2]

/-! ### A well-formed descriptor (10_state R31) -/

variable {d : Desc}

theorem descWellFormed_cells (h : descWellFormed d = true) :
    1 ≤ d.l ∧ d.defaultLatches < 2 ^ d.l ∧ (d.layout.map Prod.fst).Nodup ∧
      ∀ f ∈ d.layout, piecesWellFormed d.l f.2 = true := by
  simp only [descWellFormed, cellsWellFormed, Bool.and_eq_true, decide_eq_true_eq, List.all_eq_true] at h
  obtain ⟨⟨⟨⟨⟨h1, h2⟩, h3⟩, h4⟩, -⟩, -⟩ := h
  exact ⟨h1, h2, h3, h4⟩

theorem descWellFormed_matrix (h : descWellFormed d = true) :
    1 ≤ d.cols ∧ 1 ≤ d.rows ∧ 1 ≤ d.maxAttempts := by
  simp only [descWellFormed, matrixWellFormed, Bool.and_eq_true, decide_eq_true_eq] at h
  obtain ⟨⟨-, ⟨⟨h1, h2⟩, h3⟩, -⟩, -⟩ := h
  exact ⟨h1, h2, h3⟩

theorem descWellFormed_snake (h : descWellFormed d = true) (hp : d.pattern = .snake) :
    d.cols % 2 = 0 ∧ 1 ≤ d.spRows ∧ d.sel.length = d.cols * d.rows ∧
      (∀ c ∈ d.sel, c.1 < d.cols ∧ c.2 < d.rows) ∧ d.sel.Nodup := by
  simp only [descWellFormed, matrixWellFormed, hp, selWellFormed, Bool.and_eq_true, decide_eq_true_eq,
    List.all_eq_true] at h
  obtain ⟨⟨-, -, ⟨h1, h2⟩, ⟨h3, h4⟩, h5⟩, -⟩ := h
  exact ⟨h1, h2, h3, h4, h5⟩

theorem descWellFormed_decoder (h : descWellFormed d = true) :
    1 ≤ d.w ∧ d.w ≤ 32 ∧ d.w ≤ d.lRd ∧ d.frameStart < 2 ^ d.w ∧ d.frameEnd < 2 ^ d.w := by
  simp only [descWellFormed, decoderWellFormed, Bool.and_eq_true, decide_eq_true_eq] at h
  obtain ⟨-, ⟨⟨⟨⟨⟨⟨⟨⟨h1, h2⟩, h3⟩, h4⟩, h5⟩, -⟩, -⟩, -⟩, -⟩, -⟩ := h
  exact ⟨h1, h2, h3, h4, h5⟩

/-- A piece of a well-formed field is at least one bit wide and lies in the cell. -/
theorem piecesWellFormed_mem {l : Nat} {ps : List Piece} (h : piecesWellFormed l ps = true) :
    ∀ p ∈ ps, 1 ≤ p.width ∧ p.offset + p.width ≤ l := by
  induction ps with
  | nil => simp
  | cons q qs ih =>
    simp only [piecesWellFormed, Bool.and_eq_true, decide_eq_true_eq] at h
    obtain ⟨⟨⟨h1, h2⟩, -⟩, h4⟩ := h
    intro p hp
    rcases List.mem_cons.mp hp with rfl | hp
    · exact ⟨h1, h2⟩
    · exact ih h4 p hp

end Sys2Proof.Machine
end

