-- ==== Sys2Proof/Laws/State.lean ====
section
/-! SUPPORT. What each update of the state does to each field, so that no proof unfolds an update. -/

namespace Sys2Proof.Machine

variable (s : State)

/-! ### `respond` -/

@[simp] theorem State.respond_reg (r : Response) : (s.respond r).reg = s.reg := rfl
@[simp] theorem State.respond_cfg (r : Response) : (s.respond r).cfg = s.cfg := rfl
@[simp] theorem State.respond_port (r : Response) : (s.respond r).port = s.port := rfl
@[simp] theorem State.respond_resp (r : Response) : (s.respond r).resp = some r := rfl
@[simp] theorem State.respond_resetLine (r : Response) : (s.respond r).resetLine = s.resetLine := rfl
@[simp] theorem State.respond_verifyAnswers (r : Response) : (s.respond r).verifyAnswers = s.verifyAnswers := rfl
@[simp] theorem State.respond_verifyAsked (r : Response) : (s.respond r).verifyAsked = s.verifyAsked := rfl
@[simp] theorem State.respond_sent (r : Response) : (s.respond r).sent = s.sent := rfl

/-! ### `appendEntry` -/

@[simp] theorem State.appendEntry_reg (e : Entry) : (s.appendEntry e).reg = s.reg ++ [e] := rfl
@[simp] theorem State.appendEntry_cfg (e : Entry) : (s.appendEntry e).cfg = s.cfg := rfl
@[simp] theorem State.appendEntry_port (e : Entry) : (s.appendEntry e).port = s.port := rfl
@[simp] theorem State.appendEntry_resp (e : Entry) : (s.appendEntry e).resp = s.resp := rfl
@[simp] theorem State.appendEntry_resetLine (e : Entry) : (s.appendEntry e).resetLine = s.resetLine := rfl
@[simp] theorem State.appendEntry_verifyAnswers (e : Entry) : (s.appendEntry e).verifyAnswers = s.verifyAnswers := rfl
@[simp] theorem State.appendEntry_verifyAsked (e : Entry) : (s.appendEntry e).verifyAsked = s.verifyAsked := rfl
@[simp] theorem State.appendEntry_sent (e : Entry) : (s.appendEntry e).sent = s.sent := rfl

/-! ### `setEntryValue` -/

@[simp] theorem State.setEntryValue_reg (i v : Nat) : (s.setEntryValue i v).reg = s.reg.modify i (fun e => { e with value := v }) := rfl
@[simp] theorem State.setEntryValue_cfg (i v : Nat) : (s.setEntryValue i v).cfg = s.cfg := rfl
@[simp] theorem State.setEntryValue_port (i v : Nat) : (s.setEntryValue i v).port = s.port := rfl
@[simp] theorem State.setEntryValue_resp (i v : Nat) : (s.setEntryValue i v).resp = s.resp := rfl
@[simp] theorem State.setEntryValue_resetLine (i v : Nat) : (s.setEntryValue i v).resetLine = s.resetLine := rfl
@[simp] theorem State.setEntryValue_verifyAnswers (i v : Nat) : (s.setEntryValue i v).verifyAnswers = s.verifyAnswers := rfl
@[simp] theorem State.setEntryValue_verifyAsked (i v : Nat) : (s.setEntryValue i v).verifyAsked = s.verifyAsked := rfl
@[simp] theorem State.setEntryValue_sent (i v : Nat) : (s.setEntryValue i v).sent = s.sent := rfl

/-! ### `clearReg` -/

@[simp] theorem State.clearReg_reg : (s.clearReg).reg = [] := rfl
@[simp] theorem State.clearReg_cfg : (s.clearReg).cfg = s.cfg := rfl
@[simp] theorem State.clearReg_port : (s.clearReg).port = s.port := rfl
@[simp] theorem State.clearReg_resp : (s.clearReg).resp = s.resp := rfl
@[simp] theorem State.clearReg_resetLine : (s.clearReg).resetLine = s.resetLine := rfl
@[simp] theorem State.clearReg_verifyAnswers : (s.clearReg).verifyAnswers = s.verifyAnswers := rfl
@[simp] theorem State.clearReg_verifyAsked : (s.clearReg).verifyAsked = s.verifyAsked := rfl
@[simp] theorem State.clearReg_sent : (s.clearReg).sent = s.sent := rfl

/-! ### `handOut` -/

@[simp] theorem State.handOut_reg (out : MatrixOut) : (s.handOut out).reg = s.reg := rfl
@[simp] theorem State.handOut_cfg (out : MatrixOut) : (s.handOut out).cfg = s.cfg := rfl
@[simp] theorem State.handOut_port (out : MatrixOut) : (s.handOut out).port = s.port := rfl
@[simp] theorem State.handOut_resp (out : MatrixOut) : (s.handOut out).resp = s.resp := rfl
@[simp] theorem State.handOut_resetLine (out : MatrixOut) : (s.handOut out).resetLine = s.resetLine := rfl
@[simp] theorem State.handOut_verifyAnswers (out : MatrixOut) : (s.handOut out).verifyAnswers = s.verifyAnswers := rfl
@[simp] theorem State.handOut_verifyAsked (out : MatrixOut) : (s.handOut out).verifyAsked = s.verifyAsked := rfl
@[simp] theorem State.handOut_sent (out : MatrixOut) : (s.handOut out).sent = s.sent ++ [out] := rfl

/-! ### `applyReset` -/

@[simp] theorem State.applyReset_reg : (s.applyReset).reg = [] := rfl
@[simp] theorem State.applyReset_cfg : (s.applyReset).cfg = s.cfg := rfl
@[simp] theorem State.applyReset_port : (s.applyReset).port = s.port := rfl
@[simp] theorem State.applyReset_resp : (s.applyReset).resp = none := rfl
@[simp] theorem State.applyReset_resetLine : (s.applyReset).resetLine = false := rfl
@[simp] theorem State.applyReset_verifyAnswers : (s.applyReset).verifyAnswers = s.verifyAnswers := rfl
@[simp] theorem State.applyReset_verifyAsked : (s.applyReset).verifyAsked = s.verifyAsked := rfl
@[simp] theorem State.applyReset_sent : (s.applyReset).sent = s.sent := rfl

/-! ### `takeRequest` -/

@[simp] theorem State.takeRequest_reg (rest : List Byte) : (s.takeRequest rest).reg = s.reg := rfl
@[simp] theorem State.takeRequest_cfg (rest : List Byte) : (s.takeRequest rest).cfg = s.cfg := rfl
@[simp] theorem State.takeRequest_port (rest : List Byte) : (s.takeRequest rest).port = rest := rfl
@[simp] theorem State.takeRequest_resp (rest : List Byte) : (s.takeRequest rest).resp = s.resp := rfl
@[simp] theorem State.takeRequest_resetLine (rest : List Byte) : (s.takeRequest rest).resetLine = s.resetLine := rfl
@[simp] theorem State.takeRequest_verifyAnswers (rest : List Byte) : (s.takeRequest rest).verifyAnswers = s.verifyAnswers := rfl
@[simp] theorem State.takeRequest_verifyAsked (rest : List Byte) : (s.takeRequest rest).verifyAsked = s.verifyAsked := rfl
@[simp] theorem State.takeRequest_sent (rest : List Byte) : (s.takeRequest rest).sent = s.sent := rfl

/-! ### `withPort` -/

@[simp] theorem State.withPort_reg (bytes : List Byte) : (s.withPort bytes).reg = s.reg := rfl
@[simp] theorem State.withPort_cfg (bytes : List Byte) : (s.withPort bytes).cfg = s.cfg := rfl
@[simp] theorem State.withPort_port (bytes : List Byte) : (s.withPort bytes).port = bytes := rfl
@[simp] theorem State.withPort_resp (bytes : List Byte) : (s.withPort bytes).resp = s.resp := rfl
@[simp] theorem State.withPort_resetLine (bytes : List Byte) : (s.withPort bytes).resetLine = false := rfl
@[simp] theorem State.withPort_verifyAnswers (bytes : List Byte) : (s.withPort bytes).verifyAnswers = s.verifyAnswers := rfl
@[simp] theorem State.withPort_verifyAsked (bytes : List Byte) : (s.withPort bytes).verifyAsked = s.verifyAsked := rfl
@[simp] theorem State.withPort_sent (bytes : List Byte) : (s.withPort bytes).sent = s.sent := rfl

/-! ### `askVerify` -/

@[simp] theorem State.askVerify_reg : s.askVerify.2.reg = s.reg := by
  unfold State.askVerify; split <;> rfl
@[simp] theorem State.askVerify_cfg : s.askVerify.2.cfg = s.cfg := by
  unfold State.askVerify; split <;> rfl
@[simp] theorem State.askVerify_port : s.askVerify.2.port = s.port := by
  unfold State.askVerify; split <;> rfl
@[simp] theorem State.askVerify_resp : s.askVerify.2.resp = s.resp := by
  unfold State.askVerify; split <;> rfl
@[simp] theorem State.askVerify_resetLine : s.askVerify.2.resetLine = s.resetLine := by
  unfold State.askVerify; split <;> rfl
@[simp] theorem State.askVerify_sent : s.askVerify.2.sent = s.sent := by
  unfold State.askVerify; split <;> rfl

theorem State.askVerify_given (a : VerifyAnswer) (rest : List VerifyAnswer) (h : s.verifyAnswers = a :: rest) :
    s.askVerify = (a, { s with verifyAnswers := rest }) := by
  simp [State.askVerify, h]

theorem State.askVerify_free (h : s.verifyAnswers = []) :
    s.askVerify = (if Config.verifyOracle s.verifyAsked then .passed else .mismatch,
      { s with verifyAsked := s.verifyAsked + 1 }) := by
  simp [State.askVerify, h]

/-! ### `resetWith` and `reset` -/

@[simp] theorem State.resetWith_reg (cfg : Config) : (State.resetWith cfg).reg = [] := rfl
@[simp] theorem State.resetWith_port (cfg : Config) : (State.resetWith cfg).port = [] := rfl
@[simp] theorem State.resetWith_resp (cfg : Config) : (State.resetWith cfg).resp = none := rfl
@[simp] theorem State.resetWith_resetLine (cfg : Config) : (State.resetWith cfg).resetLine = false := rfl
@[simp] theorem State.resetWith_verifyAnswers (cfg : Config) : (State.resetWith cfg).verifyAnswers = [] := rfl
@[simp] theorem State.resetWith_verifyAsked (cfg : Config) : (State.resetWith cfg).verifyAsked = 0 := rfl
@[simp] theorem State.resetWith_sent (cfg : Config) : (State.resetWith cfg).sent = [] := rfl
@[simp] theorem State.resetWith_cfg (cfg : Config) : (State.resetWith cfg).cfg = cfg := rfl

/-- Reset applied to the state right after reset changes nothing (70_reset R270). -/
theorem State.reset_applyReset : State.reset.applyReset = State.reset := rfl

end Sys2Proof.Machine
end

