-- ==== Sys2Proof/Laws/Ops.lean ====
section
/-! SUPPORT. What each shared operation can do, said once. -/

namespace Sys2Proof.Machine

variable {s t : State} {f : Fault} {rf : Refusal}

/-! ### Answering and raising -/

@[simp] theorem answer_eq (s : State) (r : Results) : answer s r = .next (s.respond (okResponse r)) := rfl

@[simp] theorem raise_eq (s : State) (st : Status) (d : Detail) :
    raise s st d = .next (s.respond (errorResponse st d)) := rfl

@[simp] theorem okResponse_status (r : Results) : (okResponse r).status = .ok := rfl
@[simp] theorem okResponse_results (r : Results) : (okResponse r).results = r := rfl
@[simp] theorem okResponse_detail (r : Results) : (okResponse r).detail = .none := rfl
@[simp] theorem eosResponse_status (r : Results) : (eosResponse r).status = .eos := rfl
@[simp] theorem eosResponse_results (r : Results) : (eosResponse r).results = r := rfl
@[simp] theorem eosResponse_detail (r : Results) : (eosResponse r).detail = .none := rfl
@[simp] theorem errorResponse_status (st : Status) (d : Detail) : (errorResponse st d).status = st := rfl
@[simp] theorem errorResponse_results (st : Status) (d : Detail) : (errorResponse st d).results = .absent := rfl
@[simp] theorem errorResponse_detail (st : Status) (d : Detail) : (errorResponse st d).detail = d := rfl

/-! ### The descriptor gate -/

theorem withDesc_wellFormed (k : Desc → Result) (h : descWellFormed s.cfg.desc = true) :
    withDesc s k = k s.cfg.desc := by
  simp [withDesc, h]

theorem withDesc_illFormed (k : Desc → Result) (h : descWellFormed s.cfg.desc = false) :
    withDesc s k = .refused .illFormedDescriptor := by
  simp [withDesc, h]

/-- The gate answers a next state only through a well-formed descriptor. -/
theorem withDesc_next (k : Desc → Result) (h : withDesc s k = .next t) :
    descWellFormed s.cfg.desc = true ∧ k s.cfg.desc = .next t := by
  unfold withDesc at h
  split at h
  · exact ⟨‹_›, h⟩
  · cases h

theorem withDesc_fault (k : Desc → Result) (h : withDesc s k = .fault f) :
    descWellFormed s.cfg.desc = true ∧ k s.cfg.desc = .fault f := by
  unfold withDesc at h
  split at h
  · exact ⟨‹_›, h⟩
  · cases h

/-! ### Writing the registry -/

/-- AddParameter's common end (40_registry R100 to R106): an error that changes nothing, or the append. -/
theorem addEntry_cases (name : ByteString) (pos : List Nat) (initial : Nat) :
    (∃ st, addEntry s name pos initial = raise s st .none ∧
      (st = .errBadName ∨ st = .errDupName ∨ st = .errRegFull)) ∨
    (addEntry s name pos initial =
        answer (s.appendEntry ⟨name, pos, clampValue initial pos.length⟩) .absent ∧
      nameBad s.cfg name = false ∧ resolveName s.reg name = none ∧ regFull s = false) := by
  unfold addEntry
  split
  · exact .inl ⟨_, rfl, .inl rfl⟩
  split
  · exact .inl ⟨_, rfl, .inr (.inl rfl)⟩
  split
  · exact .inl ⟨_, rfl, .inr (.inr rfl)⟩
  · exact .inr ⟨rfl, by simpa using ‹¬nameBad _ _ = true›, by simpa using ‹¬(resolveName _ _).isSome = true›,
      by simpa using ‹¬regFull _ = true›⟩

/-- SetParameter (40_registry R108): an error that changes nothing, or the write of one value that fits. -/
theorem setParam_cases (key : Option Nat) (value : Nat) :
    (∃ st, setParam s key value = raise s st .none ∧ (st = .errUnknownParam ∨ st = .errValueRange)) ∨
    (∃ i e, key = some i ∧ s.reg[i]? = some e ∧ value < 2 ^ entryWidth e ∧
      setParam s key value = answer (s.setEntryValue i value) .absent) := by
  unfold setParam
  split
  · exact .inl ⟨_, rfl, .inl rfl⟩
  · split
    · exact .inl ⟨_, rfl, .inl rfl⟩
    · split
      · exact .inl ⟨_, rfl, .inr rfl⟩
      · exact .inr ⟨_, _, rfl, ‹_›, Nat.lt_of_not_le ‹_›, rfl⟩

/-! ### Registry addresses -/

/-- An index resolves exactly when it is an entry's (40_registry R109). -/
theorem resolveIdx_eq_some (reg : List Entry) (index : Word) (i : Nat) :
    resolveIdx reg index = some i ↔ index.toInt = i ∧ i < reg.length := by
  unfold resolveIdx
  split
  · simp only [Option.some.injEq]
    omega
  · simp only [reduceCtorEq, false_iff]
    omega

/-- A name resolves to nothing exactly when no entry has it (40_registry R109). -/
theorem resolveName_eq_none (reg : List Entry) (name : ByteString) :
    resolveName reg name = none ↔ ∀ e ∈ reg, e.name ≠ name := by
  simp [resolveName]

/-- A resolved name is the name of the entry found (40_registry R109). -/
theorem resolveName_some (reg : List Entry) (name : ByteString) (i : Nat) (h : resolveName reg name = some i) :
    ∃ e, reg[i]? = some e ∧ e.name = name := by
  unfold resolveName at h
  obtain ⟨hi, he, -⟩ := List.findIdx?_eq_some_iff_getElem.mp h
  exact ⟨reg[i], List.getElem?_eq_getElem hi, by simpa using he⟩

/-! ### The transport -/

/-- Asking the transport changes nothing but its own record of answers (43_matrix_encoder R196). -/
theorem askVerify_cases (s : State) :
    (∃ a rest, s.verifyAnswers = a :: rest ∧ s.askVerify = (a, { s with verifyAnswers := rest })) ∨
    (s.verifyAnswers = [] ∧ s.askVerify.1 ≠ .silent ∧
      s.askVerify.2 = { s with verifyAsked := s.verifyAsked + 1 }) := by
  unfold State.askVerify
  split
  · exact .inl ⟨_, _, ‹_›, rfl⟩
  · refine .inr ⟨‹_›, ?_, rfl⟩
    dsimp only
    split <;> simp

/-! ### Fetching and stepping -/

/-- What a step that runs an operation does (20_memory R60). -/
theorem step_run (i : Instr) (rest : List Byte) (hr : s.resetLine = false)
    (hf : fetch s = .run i (s.takeRequest rest)) : step s = exec i (s.takeRequest rest) := by
  simp [step, hr, hf]

/-- What a fetch can find. -/
theorem fetch_run (i : Instr) (s' : State) (h : fetch s = .run i s') :
    ∃ rest, decode s.port = .request i rest ∧ s' = s.takeRequest rest := by
  unfold fetch at h
  split at h
  · cases h
  · cases h
  · cases h
  · cases h
  · cases h
    exact ⟨_, ‹_›, rfl⟩

/-- A step that answers a next state waited, reset, ran an operation, or answered an illegal opcode. -/
theorem step_cases (h : step s = .next t) :
    (s.resetLine = true ∧ t = s.applyReset) ∨
    (s.resetLine = false ∧ fetch s = .waiting ∧ t = s) ∨
    (s.resetLine = false ∧ ∃ i s', fetch s = .run i s' ∧ exec i s' = .next t) ∨
    (s.resetLine = false ∧ ∃ s', fetch s = .illegal s' ∧ t = s'.respond (errorResponse .errIllegalOp .none)) := by
  unfold step at h
  split at h
  · cases h
    exact .inl ⟨‹_›, rfl⟩
  · have hr : s.resetLine = false := by simpa using ‹¬s.resetLine = true›
    split at h
    · cases h
      exact .inr (.inl ⟨hr, ‹_›, rfl⟩)
    · exact .inr (.inr (.inl ⟨hr, _, _, ‹_›, h⟩))
    · rename_i s' hs
      simp only [illegalOp, raise_eq, Host.Outcome.next.injEq] at h
      exact .inr (.inr (.inr ⟨hr, s', hs, h.symm⟩))
    · cases h

end Sys2Proof.Machine
end

