-- ==== Sys2Proof/Laws/PerInstr.lean ====
section
/-! SUPPORT. Statements for all operations, one lemma per constructor. -/

namespace Sys2Proof.Laws

/-- A request's first byte is its opcode in 30_encoding R73, and that byte is assigned (R71, R87 a). -/
def OpcodeFirst.Statement (i : Instr) : Prop :=
  (encode i).head? = some i.opcode ∧ (operandsOf i.opcode).isSome = true

theorem OpcodeFirst.addParamDir (name : ByteString) (width : Word) (direction : BitVec 3) (initial : Word) :
    OpcodeFirst.Statement (.addParamDir name width direction initial) := ⟨rfl, rfl⟩

theorem OpcodeFirst.addParamOrd (name : ByteString) (order : ByteString) (initial : Word) :
    OpcodeFirst.Statement (.addParamOrd name order initial) := ⟨rfl, rfl⟩

theorem OpcodeFirst.setParamIdx (index : Word) (value : Word) :
    OpcodeFirst.Statement (.setParamIdx index value) := ⟨rfl, rfl⟩

theorem OpcodeFirst.setParamName (name : ByteString) (value : Word) :
    OpcodeFirst.Statement (.setParamName name value) := ⟨rfl, rfl⟩

theorem OpcodeFirst.getParamIdx (index : Word) :
    OpcodeFirst.Statement (.getParamIdx index) := ⟨rfl, rfl⟩

theorem OpcodeFirst.getParamName (name : ByteString) :
    OpcodeFirst.Statement (.getParamName name) := ⟨rfl, rfl⟩

theorem OpcodeFirst.getWidthIdx (index : Word) :
    OpcodeFirst.Statement (.getWidthIdx index) := ⟨rfl, rfl⟩

theorem OpcodeFirst.getWidthName (name : ByteString) :
    OpcodeFirst.Statement (.getWidthName name) := ⟨rfl, rfl⟩

theorem OpcodeFirst.getOrderIdx (index : Word) :
    OpcodeFirst.Statement (.getOrderIdx index) := ⟨rfl, rfl⟩

theorem OpcodeFirst.getOrderName (name : ByteString) :
    OpcodeFirst.Statement (.getOrderName name) := ⟨rfl, rfl⟩

theorem OpcodeFirst.getName (index : Word) :
    OpcodeFirst.Statement (.getName index) := ⟨rfl, rfl⟩

theorem OpcodeFirst.getIdx2Name (index : Word) :
    OpcodeFirst.Statement (.getIdx2Name index) := ⟨rfl, rfl⟩

theorem OpcodeFirst.getName2Idx (name : ByteString) :
    OpcodeFirst.Statement (.getName2Idx name) := ⟨rfl, rfl⟩

theorem OpcodeFirst.clear :
    OpcodeFirst.Statement (.clear) := ⟨rfl, rfl⟩

theorem OpcodeFirst.genBitvec (direction : BitVec 3) :
    OpcodeFirst.Statement (.genBitvec direction) := ⟨rfl, rfl⟩

theorem OpcodeFirst.pcNew :
    OpcodeFirst.Statement (.pcNew) := ⟨rfl, rfl⟩

theorem OpcodeFirst.pcSetBit (cell : Cell) (index : Word) (value : Bool) :
    OpcodeFirst.Statement (.pcSetBit cell index value) := ⟨rfl, rfl⟩

theorem OpcodeFirst.pcGetBit (cell : Cell) (index : Word) :
    OpcodeFirst.Statement (.pcGetBit cell index) := ⟨rfl, rfl⟩

theorem OpcodeFirst.pcSetSubfield (cell : Cell) (offset : Word) (fieldWidth : Word) (value : Nat) :
    OpcodeFirst.Statement (.pcSetSubfield cell offset fieldWidth value) := ⟨rfl, rfl⟩

theorem OpcodeFirst.pcGetSubfield (cell : Cell) (offset : Word) (fieldWidth : Word) :
    OpcodeFirst.Statement (.pcGetSubfield cell offset fieldWidth) := ⟨rfl, rfl⟩

theorem OpcodeFirst.pcSetNamed (cell : Cell) (field : ByteString) (value : Nat) :
    OpcodeFirst.Statement (.pcSetNamed cell field value) := ⟨rfl, rfl⟩

theorem OpcodeFirst.pcGetNamed (cell : Cell) (field : ByteString) :
    OpcodeFirst.Statement (.pcGetNamed cell field) := ⟨rfl, rfl⟩

theorem OpcodeFirst.pcSetLatches (cell : Cell) (value : Nat) :
    OpcodeFirst.Statement (.pcSetLatches cell value) := ⟨rfl, rfl⟩

theorem OpcodeFirst.pcEq (a : Cell) (b : Cell) :
    OpcodeFirst.Statement (.pcEq a b) := ⟨rfl, rfl⟩

theorem OpcodeFirst.progMatrix (matrix : Matrix) :
    OpcodeFirst.Statement (.progMatrix matrix) := ⟨rfl, rfl⟩

theorem OpcodeFirst.configureMatrix (matrix : Option Matrix) (maxAttempts : Word) :
    OpcodeFirst.Statement (.configureMatrix matrix maxAttempts) := ⟨rfl, rfl⟩

theorem OpcodeFirst.nextField (stream : List Word) (cursor : Cursor) :
    OpcodeFirst.Statement (.nextField stream cursor) := ⟨rfl, rfl⟩

theorem OpcodeFirst.decodeFrame (stream : List Word) :
    OpcodeFirst.Statement (.decodeFrame stream) := ⟨rfl, rfl⟩

theorem OpcodeFirst.splitFrame (stream : List Word) :
    OpcodeFirst.Statement (.splitFrame stream) := ⟨rfl, rfl⟩

end Sys2Proof.Laws
end

