-- ==== Sys2Proof/Laws/Stream.lean ====
section
/-! SUPPORT. What the loops do, one turn at a time: the cursor and its reads, the fields of a frame, the
attempts of CONFIGURE_MATRIX. -/

namespace Sys2Proof.Machine

/-- Moving on by one bit moves the linear offset by one (10_state R40). -/
theorem posOff_adv (p : Position) : posOff (posAdv p) = posOff p + 1 := by
  obtain ⟨wi, ⟨bi, hb⟩⟩ := p
  simp only [posAdv, posOff, wordBits]
  split <;> (simp only; omega)

/-- Reading `n` bits moves on by `n` bits (44_frame_decoder R213). -/
theorem readBits_posOff (ws : List Word) (n v : Nat) (p : Position) :
    posOff (readBits ws n v p).2 = posOff p + n := by
  induction n generalizing v p with
  | zero => rfl
  | succ n ih => rw [readBits, ih, posOff_adv]; omega

/-- The bits left and the linear offset add up to the stream's length (44_frame_decoder R214). -/
theorem bitsLeft_add_posOff (ws : List Word) (p : Position) (h : p.wi < ws.length) :
    bitsLeft ws p + posOff p = 32 * ws.length := by
  have := p.bi.isLt
  simp only [bitsLeft, posOff, wordBits]
  omega

/-- A position within a `u32` is answered as it is (10_state R39). -/
theorem cursorOff_cursorOut (p : Position) (h : p.wi < 2 ^ 32) : cursorOff (cursorOut p) = posOff p := by
  unfold cursorOut
  rw [if_pos h]
  simp only [cursorOff, cursorIn, posOff, BitVec.toNat_ofNat, Nat.mod_eq_of_lt h]

/-- A cursor operand is answered as it came (44_frame_decoder R211). -/
@[simp] theorem cursorOut_cursorIn (c : Cursor) : cursorOut (cursorIn c) = c := by
  unfold cursorOut cursorIn
  rw [if_pos c.wi.isLt, BitVec.ofNat_toNat, BitVec.setWidth_eq]

/-- NEXT_FIELD's four cases (44_frame_decoder R210). -/
theorem nextFieldAt_cases (w : Nat) (ws : List Word) (c : Position) :
    (ws.length ≤ c.wi ∧ nextFieldAt w ws c = .eos c) ∨
    (c.wi < ws.length ∧ streamBit ws c = false ∧ nextFieldAt w ws c = .field 0 (posAdv c)) ∨
    (c.wi < ws.length ∧ streamBit ws c = true ∧ bitsLeft ws c < w ∧ nextFieldAt w ws c = .truncated) ∨
    (c.wi < ws.length ∧ streamBit ws c = true ∧ w ≤ bitsLeft ws c ∧
      nextFieldAt w ws c = .field ((readBits ws w 0 c).1 &&& maskN w) (readBits ws w 0 c).2) := by
  unfold nextFieldAt
  split
  · exact .inl ⟨‹_›, rfl⟩
  · have h := Nat.lt_of_not_le ‹_›
    split
    · exact .inr (.inl ⟨h, ‹_›, rfl⟩)
    · have hb : streamBit ws c = true := by simpa using ‹¬streamBit ws c = false›
      split
      · exact .inr (.inr (.inl ⟨h, hb, ‹_›, rfl⟩))
      · exact .inr (.inr (.inr ⟨h, hb, Nat.le_of_not_lt ‹_›, rfl⟩))

/-- A frame's field is NEXT_FIELD's, exhaustion and truncation being one error (44_frame_decoder R225). -/
theorem frameField_cases (d : Desc) (ws : List Word) (c : Position) :
    (∃ v c', nextFieldAt d.w ws c = .field v c' ∧ frameField d ws c = .ok (v, c')) ∨
    ((∀ v c', nextFieldAt d.w ws c ≠ .field v c') ∧ frameField d ws c = .error (.errTruncated, .none)) := by
  unfold frameField
  split
  · exact .inr ⟨by simp [*], rfl⟩
  · exact .inl ⟨_, _, ‹_›, rfl⟩
  · exact .inr ⟨by simp [*], rfl⟩

/-- No attempt left: `ERR_COMM_FATAL` with the attempts made (43_matrix_encoder R196). -/
theorem configureLoop_zero (out : MatrixOut) (a : Nat) (s : State) :
    configureLoop out 0 a s = raise s .errCommFatal (.attempts (a - 1)) := rfl

/-- One attempt (43_matrix_encoder R196): a silent transport stops, a match ends, a mismatch goes round. -/
theorem configureLoop_succ (out : MatrixOut) (n a : Nat) (s : State) :
    configureLoop out (n + 1) a s =
      match (s.handOut out).askVerify with
      | (.passed, s') => answer s' (.attempts a)
      | (.mismatch, s') => configureLoop out n (a + 1) s'
      | (.silent, _) => .fault .transportNeverAnswers := by
  rw [configureLoop]
  rcases (s.handOut out).askVerify with ⟨v, s'⟩
  cases v <;> rfl

/-- PARSE_ORDER accepts a permutation only, in a text of at most 80 characters (30_encoding R78). -/
theorem parseOrder_ok {t : ByteString} {p : List Nat} (h : parseOrder t = .ok p) :
    1 ≤ t.length ∧ t.length ≤ 80 ∧ p = (splitCommas t).map decimalValue ∧
      p.Perm (List.range (splitCommas t).length) := by
  unfold parseOrder at h
  split at h
  · cases h
  split at h
  · cases h
  split at h
  · cases h
  split at h
  · cases h
    have hp := List.isPerm_iff.mp ‹_›
    have hl := ‹¬(t.length < textMin ∨ textMax < t.length)›
    simp only [textMin, textMax] at hl
    exact ⟨by omega, by omega, rfl, hp⟩
  · cases h

end Sys2Proof.Machine
end

