-- ==== Sys2Proof/Laws/Wire.lean ====
section
/-! SUPPORT. How the readers of the request framing run. -/

namespace Sys2Proof

@[simp] theorem readPure_eq {α : Type} (a : α) (bs : List Byte) : readPure a bs = .ok (a, bs) := rfl

/-- A reader that answers hands its value and the bytes left to what follows. -/
theorem readThen_ok {α β : Type} {r : Reader α} {f : α → Reader β} {bs rest : List Byte} {a : α}
    (h : r bs = .ok (a, rest)) : readThen r f bs = f a rest := by
  simp [readThen, h]

/-- A reader that refuses ends the request. -/
theorem readThen_error {α β : Type} {r : Reader α} {f : α → Reader β} {bs : List Byte} {e : Reject}
    (h : r bs = .error e) : readThen r f bs = .error e := by
  simp [readThen, h]

@[simp] theorem readByte_cons (b : Byte) (bs : List Byte) : readByte (b :: bs) = .ok (b, bs) := rfl

/-- A word's four bytes read back as the word. -/
theorem readWord_wordBytes (w : Word) (rest : List Byte) : readWord (wordBytes w ++ rest) = .ok (w, rest) := by
  simp only [wordBytes, List.cons_append, List.nil_append, readWord, Except.ok.injEq, Prod.mk.injEq, and_true]
  ext k hk
  simp only [BitVec.getElem_append, BitVec.getElem_extractLsb']
  split
  · rw [BitVec.getLsbD_eq_getElem (by omega)]; congr 1; omega
  split
  · rw [BitVec.getLsbD_eq_getElem (by omega)]; congr 1; omega
  split
  · rw [BitVec.getLsbD_eq_getElem (by omega)]; congr 1; omega
  · rw [BitVec.getLsbD_eq_getElem (by omega)]; congr 1; omega

/-- A sequence is read element by element. -/
theorem readCount_flatMap {α : Type} {r : Reader α} {f : α → List Byte}
    (h : ∀ a rest, r (f a ++ rest) = .ok (a, rest)) (as : List α) (rest : List Byte) :
    readCount r as.length (as.flatMap f ++ rest) = .ok (as, rest) := by
  induction as with
  | nil => rfl
  | cons a as ih =>
    simp only [List.length_cons, readCount, List.flatMap_cons, List.append_assoc]
    rw [readThen_ok (h _ _), readThen_ok ih, readPure_eq]

end Sys2Proof
end

