-- ==== Sys2Proof/Tests/Slice0.lean ====
section
/-! SUPPORT. The model's own tests. Expected results are the vectors of 95_test_vectors or hand calculation
from the rules named; request bytes are written out by hand from 30_encoding R73 and the framing of log 1. -/

namespace Sys2Proof.Machine

/-! ### Helpers -/

/-- The response of an answer. -/
def respOf : Result → Option Response
  | .next s => s.resp
  | _ => none

/-- The registry of an answer. -/
def regOf : Result → Option (List Entry)
  | .next s => some s.reg
  | _ => none

/-- What the transport has seen. -/
def sentOf : Result → Option (List MatrixOut)
  | .next s => some s.sent
  | _ => none

/-- A state with this registry, the rest as after reset. -/
def withReg (reg : List Entry) : State := { State.reset with reg := reg }

/-- A state with this descriptor, the rest as after reset. -/
def withDescriptor (d : Desc) : State :=
  State.resetWith { desc := d, regCapacity := none, nameMax := none }

/-- The registry of 95_test_vectors 2.3: A, B, C. -/
def regABC : List Entry := [⟨[0x41], [3, 2, 1, 0], 10⟩, ⟨[0x42], [0, 1, 2], 6⟩, ⟨[0x43], [1, 0, 2], 5⟩]

/-- The descriptor of 95_test_vectors 2.4: `L = 14`, `THRESHOLD[0] = [(3,1), (8,2)]` under the id "T". -/
def desc14 : Desc := { exampleDesc with l := 14, defaultLatches := 0x2000, layout := [([0x54], [⟨3, 1⟩, ⟨8, 2⟩])] }

/-- The geometry of 95_test_vectors 2.5. -/
def descRbc : Desc := { exampleDesc with l := 2, defaultLatches := 0, layout := [], cols := 3, pattern := .rbc }

/-- Vector S1 of 95_test_vectors 2.6. -/
def descS1 : Desc :=
  { exampleDesc with defaultLatches := 0, layout := [], padBit := false }

/-- Field width 22 (95_test_vectors 2.8). -/
def desc22 : Desc :=
  { exampleDesc with w := 22, lRd := 22, frameStart := 0, frameEnd := 0, colHdrPattern := 0, colHdrMask := 0 }

/-- A configuration cell. -/
def cfgCell (v : Nat) : Cell := ⟨.config, v⟩

/-- The bit-order text of numbers below 100, in the fewest digits (30_encoding R77). -/
def orderText (p : List Nat) : ByteString :=
  joinTokens (p.map fun n => if n < 10 then [BitVec.ofNat 8 (0x30 + n)]
    else [BitVec.ofNat 8 (0x30 + n / 10), BitVec.ofNat 8 (0x30 + n % 10)])

/-- The tokens `"29"` to `"0"`: thirty positions, in a text of 79 characters. -/
def tokens30 : List ByteString :=
  (descending 30).map fun n => if n < 10 then [BitVec.ofNat 8 (0x30 + n)]
    else [BitVec.ofNat 8 (0x30 + n / 10), BitVec.ofNat 8 (0x30 + n % 10)]

/-- A response `OK`. -/
def ok (r : Results) : Option Response := some (okResponse r)

/-- An error without detail. -/
def err (st : Status) : Option Response := some (errorResponse st .none)

/-- The good frame of 95_test_vectors 2.9. -/
def frameWs : List Word := [0xA5C09360, 0xBFF68000]

/-! ### Decoding: one request per operation, byte by byte -/

theorem test_decode_addParamDir :
    decode [0x10, 1, 0x41, 4, 0, 0, 0, 1, 10, 0, 0, 0x80] = .request (.addParamDir [0x41] 4 0b001 0x8000000A) [] := by decide
theorem test_decode_addParamOrd :
    decode [0x11, 1, 0x43, 3, 0x31, 0x2C, 0x30, 5, 0, 0, 0] = .request (.addParamOrd [0x43] [0x31, 0x2C, 0x30] 5) [] := by decide
theorem test_decode_setParamIdx :
    decode [0x12, 0xFF, 0xFF, 0xFF, 0xFF, 0x0F, 1, 0, 0] = .request (.setParamIdx 0xFFFFFFFF 0x10F) [] := by decide
theorem test_decode_setParamName :
    decode [0x13, 2, 0x41, 0x42, 7, 0, 0, 0] = .request (.setParamName [0x41, 0x42] 7) [] := by decide
theorem test_decode_getParamIdx : decode [0x14, 2, 0, 0, 0] = .request (.getParamIdx 2) [] := by decide
theorem test_decode_getParamName : decode [0x15, 1, 0x42] = .request (.getParamName [0x42]) [] := by decide
theorem test_decode_getWidthIdx : decode [0x16, 3, 0, 0, 0] = .request (.getWidthIdx 3) [] := by decide
theorem test_decode_getWidthName : decode [0x17, 1, 0x43] = .request (.getWidthName [0x43]) [] := by decide
theorem test_decode_getOrderIdx : decode [0x18, 4, 0, 0, 0] = .request (.getOrderIdx 4) [] := by decide
theorem test_decode_getOrderName : decode [0x19, 1, 0x44] = .request (.getOrderName [0x44]) [] := by decide
theorem test_decode_getName : decode [0x1A, 5, 0, 0, 0] = .request (.getName 5) [] := by decide
theorem test_decode_getIdx2Name : decode [0x1B, 6, 0, 0, 0] = .request (.getIdx2Name 6) [] := by decide
theorem test_decode_getName2Idx : decode [0x1C, 1, 0x45] = .request (.getName2Idx [0x45]) [] := by decide
theorem test_decode_clear : decode [0x1D, 0xAA] = .request .clear [0xAA] := by decide
theorem test_decode_genBitvec : decode [0x1E, 5] = .request (.genBitvec 0b101) [] := by decide
theorem test_decode_pcNew : decode [0x20] = .request .pcNew [] := by decide
theorem test_decode_pcSetBit :
    decode [0x21, 0, 0x80, 0x40, 13, 0, 0, 0, 1] = .request (.pcSetBit ⟨.config, 0x2000⟩ 13 true) [] := by decide
theorem test_decode_pcGetBit :
    decode [0x22, 1, 5, 2, 0, 0, 0] = .request (.pcGetBit ⟨.decoded, 5⟩ 2) [] := by decide
theorem test_decode_pcSetSubfield :
    decode [0x23, 0, 1, 4, 0, 0, 0, 3, 0, 0, 0, 0x0D] = .request (.pcSetSubfield ⟨.config, 1⟩ 4 3 0xD) [] := by decide
theorem test_decode_pcGetSubfield :
    decode [0x24, 0, 1, 4, 0, 0, 0, 3, 0, 0, 0] = .request (.pcGetSubfield ⟨.config, 1⟩ 4 3) [] := by decide
theorem test_decode_pcSetNamed :
    decode [0x25, 0, 0, 1, 0x54, 5] = .request (.pcSetNamed ⟨.config, 0⟩ [0x54] 5) [] := by decide
theorem test_decode_pcGetNamed :
    decode [0x26, 0, 7, 1, 0x54] = .request (.pcGetNamed ⟨.config, 7⟩ [0x54]) [] := by decide
theorem test_decode_pcSetLatches :
    decode [0x27, 1, 2, 0x83, 1] = .request (.pcSetLatches ⟨.decoded, 2⟩ 131) [] := by decide
theorem test_decode_pcEq :
    decode [0x28, 0, 3, 1, 4] = .request (.pcEq ⟨.config, 3⟩ ⟨.decoded, 4⟩) [] := by decide
theorem test_decode_progMatrix :
    decode [0x30, 1, 1, 2, 3, 1, 0] = .request (.progMatrix (.paired [((2, 3), (1, 0))])) [] := by decide
theorem test_decode_configureMatrix :
    decode [0x31, 1, 0, 1, 1, 0, 3, 2, 0, 0, 0] =
      .request (.configureMatrix (some (.single [((1, 0), 3)])) 2) [] := by decide
theorem test_decode_nextField :
    decode [0x40, 1, 0x60, 0x93, 0xC0, 0xA5, 2, 1, 0, 0, 31] = .request (.nextField [0xA5C09360] ⟨0x102, 31⟩) [] := by decide
theorem test_decode_decodeFrame :
    decode [0x41, 1, 0, 0x80, 0xF6, 0xBF] = .request (.decodeFrame [0xBFF68000]) [] := by decide
theorem test_decode_splitFrame : decode [0x42, 0] = .request (.splitFrame []) [] := by decide

theorem test_decode_unassigned : decode [0x2F, 1] = .unassigned 0x2F [1] := by decide
theorem test_decode_incomplete : decode [0x14, 0, 0, 0] = .rejected .incomplete := by decide
theorem test_decode_malformed_bool : decode [0x21, 0, 0, 0, 0, 0, 0, 2] = .rejected .malformed := by decide
theorem test_decode_malformed_dir : decode [0x1E, 8] = .rejected .malformed := by decide
theorem test_decode_malformed_bi : decode [0x40, 0, 0, 0, 0, 0, 32] = .rejected .malformed := by decide
theorem test_tableWord_clear : decodeTableWord 8 0x1D = some .clear := by decide
theorem test_tableWord_unassigned : decodeTableWord 8 0x1F = none := by decide
theorem test_opcodes_distinct :
    ((List.range 256).filter fun b => (operandsOf (BitVec.ofNat 8 b)).isSome).length = 29 := by decide

/-! ### WellFormed refuses what lies outside R72's types -/

theorem test_wf_cell_too_wide : Instr.wellFormed State.reset.cfg (.pcGetBit (cfgCell 8) 0) = false := by decide
theorem test_wf_eq_widths : Instr.wellFormed State.reset.cfg (.pcEq (cfgCell 0) ⟨.decoded, 0⟩) = false := by decide
theorem test_wf_matrix_key_twice :
    Instr.wellFormed State.reset.cfg (.progMatrix (.single [((0, 0), 1), ((0, 0), 2)])) = false := by decide
theorem test_wf_matrix_cell_too_wide :
    Instr.wellFormed State.reset.cfg (.progMatrix (.single [((0, 0), 8)])) = false := by decide
theorem test_wf_matrix_kind : Instr.wellFormed State.reset.cfg (.progMatrix (.paired [])) = false := by decide
theorem test_wf_pair_too_wide :
    Instr.wellFormed (withDescriptor descRbc).cfg (.progMatrix (.paired [((0, 0), (0, 4))])) = false := by decide
theorem test_wf_accepts_far_key :
    Instr.wellFormed State.reset.cfg (.progMatrix (.single [((9, 9), 7)])) = true := by decide

/-! ### Descriptors: well formed, and one break per clause of R31 -/

theorem test_desc_wf :
    (descWellFormed exampleDesc && descWellFormed desc14 && descWellFormed descRbc && descWellFormed descS1 &&
      descWellFormed desc22) = true := by decide
theorem test_desc_ill_default : descWellFormed { exampleDesc with defaultLatches := 8 } = false := by decide
theorem test_desc_ill_piece : descWellFormed { exampleDesc with layout := [([1], [⟨2, 2⟩])] } = false := by decide
theorem test_desc_ill_overlap : descWellFormed { exampleDesc with layout := [([1], [⟨0, 2⟩, ⟨1, 1⟩])] } = false := by decide
theorem test_desc_ill_odd_cols :
    descWellFormed { exampleDesc with cols := 3, sel := defaultSel 3 2 } = false := by decide
theorem test_desc_ill_sel :
    descWellFormed { exampleDesc with sel := [(0, 0), (1, 0), (0, 0), (1, 1)] } = false := by decide
theorem test_desc_ill_w : descWellFormed { exampleDesc with w := 33, lRd := 33 } = false := by decide
theorem test_desc_ill_pattern_outside_mask :
    descWellFormed { exampleDesc with colHdrPattern := 0xC1 } = false := by decide
theorem test_desc_ill_refused :
    exec .pcNew (withDescriptor { exampleDesc with l := 0 }) = .refused .illFormedDescriptor := by rfl

/-! ### Registry (95_test_vectors 2.1, 2.2) -/

theorem test_addParamDir_appends :
    regOf (exec (.addParamDir [0x41] 4 0 10) State.reset) = some [⟨[0x41], [3, 2, 1, 0], 10⟩] := by decide
theorem test_addParamDir_width_first :
    respOf (exec (.addParamDir [0x41] 0 5 1) (withReg regABC)) = err .errBadWidth := by decide
theorem test_addParamOrd_appends :
    regOf (exec (.addParamOrd [0x43] [0x31, 0x2C, 0x30, 0x2C, 0x32] 9) State.reset) =
      some [⟨[0x43], [1, 0, 2], 7⟩] := by decide
theorem test_addParamOrd_text_first :
    respOf (exec (.addParamOrd [0x43] [0x30, 0x2C, 0x32] 0) (withReg regABC)) = err .errBadOrder := by decide
theorem test_parse_leading_zero : parseOrder [0x30, 0x31, 0x2C, 0x30] = .ok [1, 0] := by rfl
theorem test_parse_empty_token : parseOrder [0x30, 0x2C, 0x2C, 0x31] = .error .errBadOrder := by rfl
theorem test_parse_space : parseOrder [0x30, 0x2C, 0x20, 0x31] = .error .errBadText := by rfl
theorem test_parse_31_entries :
    parseOrder (orderText (descending 31)) = .error .errBadText ∧ (orderText (descending 30)).length = 79 := by
  exact ⟨rfl, rfl⟩
theorem test_setParamIdx_top :
    regOf (exec (.setParamIdx 0 15) (withReg (regABC.take 1))) = some [⟨[0x41], [3, 2, 1, 0], 15⟩] := by decide
theorem test_setParamIdx_negative :
    respOf (exec (.setParamIdx 0xFFFFFFFF 0) (withReg regABC)) = err .errUnknownParam := by decide
theorem test_setParamName_range :
    respOf (exec (.setParamName [0x42] 8) (withReg regABC)) = err .errValueRange := by decide
theorem test_setParamName_unknown :
    respOf (exec (.setParamName [0x5A] 0) (withReg regABC)) = err .errUnknownParam := by decide
theorem test_getParamIdx_miss : respOf (exec (.getParamIdx 9) (withReg regABC)) = ok (.int (-1)) := by decide
theorem test_getParamName : respOf (exec (.getParamName [0x42]) (withReg regABC)) = ok (.int 6) := by decide
theorem test_getWidthIdx : respOf (exec (.getWidthIdx 1) (withReg regABC)) = ok (.int 3) := by decide
theorem test_getWidthName_miss : respOf (exec (.getWidthName [0x5A]) (withReg regABC)) = ok (.int (-1)) := by decide
theorem test_getOrderIdx : respOf (exec (.getOrderIdx 2) (withReg regABC)) = ok (.order [1, 0, 2]) := by decide
theorem test_getOrderName_miss : respOf (exec (.getOrderName [0x5A]) (withReg regABC)) = ok (.order []) := by decide
theorem test_getName : respOf (exec (.getName 1) (withReg regABC)) = ok (.name [0x42]) := by decide
theorem test_getIdx2Name_miss : respOf (exec (.getIdx2Name 7) (withReg regABC)) = ok (.name []) := by decide
theorem test_getName2Idx : respOf (exec (.getName2Idx [0x43]) (withReg regABC)) = ok (.int 2) := by decide
theorem test_getName2Idx_empty : respOf (exec (.getName2Idx []) (withReg regABC)) = ok (.int (-1)) := by decide
theorem test_clear : regOf (exec .clear (withReg regABC)) = some [] := by decide

/-! ### Serializer (95_test_vectors 2.3) -/

/-- The order "1,2,0" separates the two readings of 90_conflicts C1. -/
theorem test_genBitvec_not_self_inverse :
    respOf (exec (.genBitvec 0) (withReg [⟨[0x50], [1, 2, 0], 0b001⟩])) = ok (.bits [false, false, true]) := by decide
/-- `0110111010`. -/
theorem test_genBitvec_inverted_lsb :
    respOf (exec (.genBitvec 3) (withReg regABC)) =
      ok (.bits [false, true, true, false, true, true, true, false, true, false]) := by decide

/-! ### PixelCell (95_test_vectors 2.4) -/

theorem test_pcNew : respOf (exec .pcNew (withDescriptor desc14)) = ok (.cell (cfgCell 0x2000)) := by decide
theorem test_pcSetBit_clears_top :
    respOf (exec (.pcSetBit (cfgCell 0x2001) 13 false) (withDescriptor desc14)) = ok (.cell (cfgCell 1)) := by decide
theorem test_pcSetBit_range :
    respOf (exec (.pcSetBit (cfgCell 0x2000) 14 true) (withDescriptor desc14)) = err .errCellRange := by decide
theorem test_pcGetBit : respOf (exec (.pcGetBit (cfgCell 0x2001) 13) (withDescriptor desc14)) = ok (.bool true) := by decide
theorem test_pcSetSubfield_truncates :
    respOf (exec (.pcSetSubfield (cfgCell 0x2001) 4 3 0xD) (withDescriptor desc14)) = ok (.cell (cfgCell 0x2051)) := by decide
theorem test_pcSetSubfield_clears :
    respOf (exec (.pcSetSubfield (cfgCell 0x3FFF) 6 4 0) (withDescriptor desc14)) = ok (.cell (cfgCell 0x3C3F)) := by decide
theorem test_pcGetSubfield :
    respOf (exec (.pcGetSubfield (cfgCell 0x2051) 4 3) (withDescriptor desc14)) = ok (.ul 5) := by decide
theorem test_pcSetNamed_split :
    respOf (exec (.pcSetNamed (cfgCell 0) [0x54] 5) (withDescriptor desc14)) = ok (.cell (cfgCell 0x0208)) := by decide
theorem test_pcSetNamed_clears :
    respOf (exec (.pcSetNamed (cfgCell 0x3FFF) [0x54] 0) (withDescriptor desc14)) = ok (.cell (cfgCell 0x3CF7)) := by decide
theorem test_pcGetNamed : respOf (exec (.pcGetNamed (cfgCell 0x0208) [0x54]) (withDescriptor desc14)) = ok (.ul 5) := by decide
theorem test_pcGetNamed_unknown :
    respOf (exec (.pcGetNamed (cfgCell 0) [0x55]) (withDescriptor desc14)) = err .errUnknownField := by decide
theorem test_pcSetLatches :
    respOf (exec (.pcSetLatches (cfgCell 0x2000) 0x0ABC) (withDescriptor desc14)) = ok (.cell (cfgCell 0x0ABC)) := by decide
theorem test_pcSetLatches_range :
    respOf (exec (.pcSetLatches (cfgCell 0x2000) 0x4000) (withDescriptor desc14)) = err .errValueRange := by decide
theorem test_pcEq_differs :
    respOf (exec (.pcEq (cfgCell 0x2051) (cfgCell 0x2050)) (withDescriptor desc14)) = ok (.bool false) := by decide

/-- A cell too wide for its width still runs: the bit written is there, whatever the rest (log 10). -/
theorem test_out_of_type_cell_runs :
    respOf (exec (.pcSetLatches (cfgCell 8) 5) State.reset) = ok (.cell (cfgCell 5)) ∧
    respOf (exec (.pcGetBit (cfgCell 8) 3) State.reset) = err .errCellRange := by decide

/-! ### Matrix encoder (95_test_vectors 2.5, 2.6, 2.7) -/

/-- The eight words `110, 011, 001, 001, 001, 101, 100, 001`. -/
theorem test_progMatrix_rbc :
    respOf (exec (.progMatrix (.paired [((0, 0), (2, 1)), ((1, 0), (3, 0)), ((2, 0), (1, 3)), ((0, 1), (0, 2)),
      ((2, 1), (3, 1))])) (withDescriptor descRbc)) =
    ok (.matrixOut (.words [[true, true, false], [false, true, true], [false, false, true], [false, false, true],
      [false, false, true], [true, false, true], [true, false, false], [false, false, true]])) := by decide

/-- Vector S1: `001010110001100`, bytes `0x2B 0x18`. -/
theorem test_progMatrix_snake :
    respOf (exec (.progMatrix (.single [((0, 0), 5), ((1, 0), 3), ((0, 1), 6)])) (withDescriptor descS1)) =
    ok (.matrixOut (.bytes [false, false, true, false, true, false, true, true, false, false, false, true, true,
      false, false] [0x2B, 0x18])) := by decide

/-- Vector S1 packed with the first bit in bit 0: `0xD4 0x18`. -/
theorem test_pack_lsb_first :
    pack8 { descS1 with byteMsbFirst := false } (snake descS1 (.single [((0, 0), 5), ((1, 0), 3), ((0, 1), 6)])) =
      [0xD4, 0x18] := by decide

/-- A key given twice, and a matrix of pairs, leave the bits of that coordinate open and nothing else: vector S1's
row 0 stands where it stood (log 24). -/
theorem test_out_of_type_matrix_runs :
    (snake descS1 (.single [((0, 0), 5), ((1, 0), 3), ((0, 1), 6), ((1, 1), 1), ((1, 1), 1)])).take 8 =
      (snake descS1 (.single [((0, 0), 5), ((1, 0), 3), ((0, 1), 6)])).take 8 ∧
    (snake descS1 (.paired [((0, 1), (6, 1))])).length = 15 := by decide

/-- Two attempts, the same bytes twice (program P4 step 1). -/
theorem test_configureMatrix_second_attempt :
    sentOf (exec (.configureMatrix (some (.single [((0, 0), 4), ((1, 0), 3)])) 0)
      { State.reset with verifyAnswers := [.mismatch, .passed] }) =
    some (List.replicate 2 (.bytes [true, true, true, false, false, false, true, true, false, false, false, false,
      false, false, true] [0xE3, 0x02])) := by decide
theorem test_configureMatrix_exhausted :
    respOf (exec (.configureMatrix (some (.single [])) 0)
      { State.reset with verifyAnswers := List.replicate 3 .mismatch }) =
    some (errorResponse .errCommFatal (.attempts 3)) := by decide

/-! ### Frame decoder (95_test_vectors 2.8, 2.9) -/

theorem test_nextField_straddles :
    respOf (exec (.nextField [0x000002AB, 0xCDE00000] ⟨0, 9⟩) (withDescriptor desc22)) =
      ok (.field 0x2ABCDE ⟨1, 19⟩) := by decide
theorem test_nextField_exact_and_short :
    nextFieldAt 22 [0xFFFFFFFF] ⟨0, 21⟩ = .field 0x3FFFFF ⟨1, 31⟩ ∧
      nextFieldAt 22 [0xFFFFFFFF] ⟨0, 20⟩ = .truncated := by decide
theorem test_decodeFrame :
    respOf (exec (.decodeFrame frameWs) State.reset) =
      ok (.matrix [((0, 0), ⟨.decoded, 0x93⟩), ((0, 1), ⟨.decoded, 0⟩), ((1, 0), ⟨.decoded, 0⟩),
        ((1, 1), ⟨.decoded, 0xFF⟩)] ⟨1, 13⟩) := by decide
/-- The column index is checked after the pattern, and the first failing check is named. -/
theorem test_decodeFrame_checks :
    respOf (exec (.decodeFrame [0xA5C09360, 0x3FF68000]) State.reset) =
      some (errorResponse .errColumnIndex (.columnObserved 1 0xC0)) ∧
    respOf (exec (.decodeFrame [0xA5C09368, 0xBFF68000]) State.reset) =
      some (errorResponse .errColumnHeader (.columnObserved 1 0xD1)) := by decide
theorem test_splitFrame :
    respOf (exec (.splitFrame [0xA5C09360, 0xBFF6C000]) State.reset) =
      ok (.fields [0xA5, 0xC0, 0x93, 0, 0xC1, 0, 0xFF, 0xDB] ⟨1, 13⟩) := by decide
theorem test_splitFrame_truncated :
    respOf (exec (.splitFrame [0xA5C09360]) State.reset) =
      some (errorResponse .errTruncated (.fieldsSoFar [0xA5, 0xC0, 0x93, 0])) := by decide

/-! ### Status codes (60_exceptions R241) and the step -/

theorem test_statusCode_spot : statusCode .errUnknownParam = 0x18 ∧ statusCode .errIllegalOp = 0x7F := by decide
theorem test_step_illegal :
    respOf (step { withReg regABC with port := [0x00] }) = err .errIllegalOp := by decide
theorem test_step_reset : regOf (step { withReg regABC with resetLine := true }) = some [] := by decide
theorem test_step_runs_table_word :
    respOf (step (State.reset.withFetchWord 8 0x20)) = ok (.cell (cfgCell 0b100)) := by decide

/-! ### Witnesses: states and operands that meet the hypotheses of each statement together -/

/-- A state with request bytes in its port and the registry A, B, C. -/
def withPortABC (bytes : List Byte) : State := { withReg regABC with port := bytes }

/-- The registry A, B, C keeps its invariants. -/
theorem test_regABC_ok : RegistryOk regABC := by decide

theorem witness_StepRunsTheDecodedRequest :
    (withPortABC [0x1D, 0x20]).resetLine = false ∧
      decode (withPortABC [0x1D, 0x20]).port = .request .clear [0x20] := by decide

/-- A well-formed descriptor, a cell in its type and one outside, a matrix outside its type. -/
theorem witness_OutOfTypeOperandsRunAsSomeInTypeOperands :
    descWellFormed State.reset.cfg.desc = true ∧ CellOk State.reset.cfg.desc (cfgCell 7) ∧
      ¬ CellOk State.reset.cfg.desc (cfgCell 8) ∧
      Matrix.fits State.reset.cfg.desc (.single [((0, 0), 1), ((0, 0), 2)]) = false := by decide

theorem witness_UnassignedOpcodeAnswersIllegalOp :
    (withPortABC [0x2F, 1]).resetLine = false ∧ (withPortABC [0x2F, 1]).port = 0x2F :: [1] ∧
    (0x2F#8).toNat ∉ [0x10, 0x11, 0x12, 0x13, 0x14, 0x15, 0x16, 0x17, 0x18, 0x19, 0x1A, 0x1B, 0x1C, 0x1D, 0x1E,
      0x20, 0x21, 0x22, 0x23, 0x24, 0x25, 0x26, 0x27, 0x28, 0x30, 0x31, 0x40, 0x41, 0x42] := by decide

theorem witness_NothingRequestedWaits : (withReg regABC).resetLine = false ∧ (withReg regABC).port = [] := by decide

theorem witness_ResetEmptiesTheRegistry : { withReg regABC with resetLine := true }.resetLine = true := by decide

/-- The invariant holds of a state with three entries and a request, and its step answers a next state. -/
theorem witness_EveryStepKeepsInvariant :
    (withPortABC [0x12, 0, 0, 0, 0, 15, 0, 0, 0]).Inv ∧
      ∃ t, step (withPortABC [0x12, 0, 0, 0, 0, 15, 0, 0, 0]) = .next t :=
  ⟨⟨test_regABC_ok, by intro r h; cases h⟩, _, rfl⟩

theorem witness_NoStepWritesTheDescriptor : ∃ t, step (withPortABC [0x1D]) = .next t := ⟨_, rfl⟩

theorem witness_OnlyFiveOperationsWriteTheRegistry : ∃ t, exec .clear (withReg regABC) = .next t := ⟨_, rfl⟩

theorem witness_EntriesKeepIndexNameAndOrder :
    Instr.setParamIdx 2 7 ≠ .clear ∧ (∃ t, exec (.setParamIdx 2 7) (withReg regABC) = .next t) ∧
      (withReg regABC).reg[2]? = some ⟨[0x43], [1, 0, 2], 5⟩ :=
  ⟨by decide, ⟨_, rfl⟩, rfl⟩

theorem witness_ErrorsLeaveTheStateUnchanged :
    ∃ t r, exec (.setParamIdx 3 0) (withReg regABC) = .next t ∧ t.resp = some r ∧ r.status ≠ .ok ∧ r.status ≠ .eos ∧
      (Instr.setParamIdx 3 0).opcode ≠ 0x31#8 :=
  ⟨_, _, rfl, rfl, by decide, by decide, by decide⟩

theorem witness_OnlyConfigureMatrixMeetsTheTransport :
    (∃ t, exec .pcNew State.reset = .next t) ∧ Instr.pcNew.opcode ≠ 0x31#8 := ⟨⟨_, rfl⟩, by decide⟩

theorem witness_ResponsesDependOnRegistryAndDescriptorOnly :
    (Instr.genBitvec 0).opcode ≠ 0x31#8 ∧ (withReg regABC).reg = (withPortABC [1]).reg ∧
      (withReg regABC).cfg = (withPortABC [1]).cfg ∧ ∃ t, exec (.genBitvec 0) (withReg regABC) = .next t :=
  ⟨by decide, rfl, rfl, _, rfl⟩

theorem witness_OnlyASilentTransportStopsTheMachine :
    exec (.configureMatrix (some (.single [])) 0) { State.reset with verifyAnswers := [.mismatch, .silent] } =
      .fault .transportNeverAnswers := rfl

/-- Silence on the first attempt and on the last one of the limit, with the descriptor's limit and the operand's. -/
theorem witness_OnlyASilentTransportStopsTheMachine_limits :
    descWellFormed State.reset.cfg.desc = true ∧
      2 < (if (0#32) = 0 then State.reset.cfg.desc.maxAttempts else (0#32).toNat) ∧
      0 < (if (1#32) = 0 then State.reset.cfg.desc.maxAttempts else (1#32).toNat) ∧
      { State.reset with verifyAnswers := [.mismatch, .mismatch, .silent] }.verifyAnswers =
        List.replicate 2 .mismatch ++ .silent :: [] ∧
      { State.reset with verifyAnswers := [.silent] }.verifyAnswers =
        List.replicate 0 .mismatch ++ .silent :: [] := by decide

theorem witness_EveryOperationAnswersUnderAWellFormedDescriptor :
    descWellFormed State.reset.cfg.desc = true ∧ VerifyAnswer.silent ∉ State.reset.verifyAnswers := by decide

/-- A descriptor that breaks R31, an operation below and one from opcode 0x20 on. -/
theorem witness_OnlyDescriptorOperationsNeedTheDescriptor :
    descWellFormed (withDescriptor { exampleDesc with l := 0 }).cfg.desc = false ∧
      (Instr.genBitvec 0).opcode.toNat < 0x20 ∧ ¬ Instr.pcNew.opcode.toNat < 0x20 := by decide

/-- Both ends of the width's range. -/
theorem witness_AddParamDirAppendsTheEntry :
    1 ≤ (1#32).toNat ∧ (1#32).toNat ≤ 30 ∧ 1 ≤ (30#32).toNat ∧ (30#32).toNat ≤ 30 ∧
      CanAdd (withReg regABC) [0x44] := by decide

/-- Every branch of the checks is met: widths 0 and 31, a direction, an empty name, a known name, `OK`. -/
theorem witness_AddParamDirChecksInOrder :
    respOf (exec (.addParamDir [0x44] 0 0 0) (withReg regABC)) = err .errBadWidth ∧
    respOf (exec (.addParamDir [0x44] 31 0 0) (withReg regABC)) = err .errBadWidth ∧
    respOf (exec (.addParamDir [0x44] 30 2 0) (withReg regABC)) = err .errBadDirection ∧
    respOf (exec (.addParamDir [] 1 1 0) (withReg regABC)) = err .errBadName ∧
    respOf (exec (.addParamDir [0x43] 1 1 0) (withReg regABC)) = err .errDupName ∧
    respOf (exec (.addParamDir [0x44] 1 1 0) { withReg regABC with
      cfg := { desc := exampleDesc, regCapacity := some 3, nameMax := none } }) = err .errRegFull ∧
    respOf (exec (.addParamDir [0x44] 1 1 0) (withReg regABC)) = ok .absent := by decide

/-- Leading zeros, `"01,0"`, and both ends of the width's range: one position, and thirty. -/
theorem witness_AddParamOrdAppendsTheParsedOrder :
    ((∀ tok ∈ [[0x30#8, 0x31#8], [0x30#8]], IsToken tok) ∧ (joinTokens [[0x30, 0x31], [0x30]]).length ≤ 80 ∧
      ([[0x30#8, 0x31#8], [0x30#8]].map tokenValue).Perm (List.range 2)) ∧
    (IsToken [0x30] ∧ (joinTokens [[0x30]]).length ≤ 80 ∧ ([[0x30#8]].map tokenValue).Perm (List.range 1)) ∧
    (tokens30 ≠ [] ∧ (∀ tok ∈ tokens30, IsToken tok) ∧ (joinTokens tokens30).length ≤ 80 ∧
      (tokens30.map tokenValue).Perm (List.range tokens30.length)) ∧ CanAdd (withReg regABC) [0x44] :=
  ⟨by decide, by decide, ⟨by decide, by decide, by decide, List.reverse_perm (List.range 30)⟩, by decide⟩

theorem witness_AddParamOrdChecksInOrder :
    ((([] : ByteString).length < 1) ∧ 80 < (List.replicate 81 (0x30#8)).length ∧
      ∃ b ∈ [0x30#8, 0x20#8], b ≠ 0x2C#8 ∧ ¬ (0x30 ≤ b.toNat ∧ b.toNat ≤ 0x39)) ∧
    (1 ≤ [0x30#8, 0x2C#8].length ∧ [0x30#8, 0x2C#8].length ≤ 80 ∧
      (∀ b ∈ [0x30#8, 0x2C#8], b = 0x2C#8 ∨ (0x30 ≤ b.toNat ∧ b.toNat ≤ 0x39)) ∧
      [0x30#8, 0x2C#8].getLast? = some 0x2C#8) ∧
    ((∀ tok ∈ [[0x31#8, 0x30#8, 0x30#8]], IsToken tok) ∧ (joinTokens [[0x31, 0x30, 0x30]]).length ≤ 80 ∧
      ¬ ([[0x31#8, 0x30#8, 0x30#8]].map tokenValue).Perm (List.range 1)) ∧
    ((∀ tok ∈ [[0x30#8, 0x30#8], [0x30#8]], IsToken tok) ∧
      ¬ ([[0x30#8, 0x30#8], [0x30#8]].map tokenValue).Perm (List.range 2)) := by decide

/-- The three checks behind a text that parses, `"01,0"`: an empty name and one a byte longer than NAME_MAX, a
known name in a full registry, a new name of NAME_MAX bytes in a full registry. -/
theorem witness_AddParamOrdChecksInOrder_names :
    let s : State := { withReg regABC with cfg := { desc := exampleDesc, regCapacity := some 3, nameMax := some 1 } }
    let text := joinTokens [[0x30, 0x31], [0x30]]
    ((∀ tok ∈ [[0x30#8, 0x31#8], [0x30#8]], IsToken tok) ∧ text.length ≤ 80 ∧
      ([[0x30#8, 0x31#8], [0x30#8]].map tokenValue).Perm (List.range 2)) ∧
    respOf (exec (.addParamOrd [] text 0) s) = err .errBadName ∧
    respOf (exec (.addParamOrd [0x41, 0x41] text 0) s) = err .errBadName ∧
    respOf (exec (.addParamOrd [0x41] text 0) s) = err .errDupName ∧
    respOf (exec (.addParamOrd [0x44] text 0) s) = err .errRegFull := by decide

theorem witness_AcceptedOrderTextsGiveLegalWidths :
    ∃ t, exec (.addParamOrd [0x44] [0x31, 0x2C, 0x30] 0) (withReg regABC) = .next t ∧ HasStatus t .ok :=
  ⟨_, rfl, rfl⟩

/-- The largest value that fits and the smallest that does not; the index before and the index after the last. -/
theorem witness_SetParamIdxWritesOrRefuses :
    ((0#32).toInt = (0 : Nat) ∧ (withReg regABC).reg[0]? = some ⟨[0x41], [3, 2, 1, 0], 10⟩ ∧
      (15#32).toNat < 2 ^ [3, 2, 1, 0].length ∧ 2 ^ [3, 2, 1, 0].length ≤ (16#32).toNat) ∧
    (0xFFFFFFFF#32).toInt < 0 ∧ ((withReg regABC).reg.length : Int) ≤ (3#32).toInt := by decide

theorem witness_SetParamNameWritesOrRefuses :
    ((withReg regABC).reg.map Entry.name).Nodup ∧ (withReg regABC).reg[1]? = some ⟨[0x42], [0, 1, 2], 6⟩ ∧
      (7#32).toNat < 2 ^ [0, 1, 2].length ∧ 2 ^ [0, 1, 2].length ≤ (8#32).toNat ∧
      ∀ e ∈ (withReg regABC).reg, e.name ≠ [0x5A] := by decide

/-- A name that is found and one that is not. -/
theorem witness_SetByNameIsLookupThenSetByIndex :
    (∃ t, exec (.getName2Idx [0x43]) (withReg regABC) = .next t ∧ t.resp = some ⟨.ok, .int 2, .none⟩ ∧
      (2#32).toInt = 2) ∧
    (∃ t, exec (.getName2Idx [0x5A]) (withReg regABC) = .next t ∧ t.resp = some ⟨.ok, .int (-1), .none⟩ ∧
      (0xFFFFFFFF#32).toInt = -1) :=
  ⟨⟨_, rfl, rfl, by decide⟩, _, rfl, rfl, by decide⟩

theorem witness_LookupsByIndexHit :
    (2#32).toInt = (2 : Nat) ∧ (withReg regABC).reg[2]? = some ⟨[0x43], [1, 0, 2], 5⟩ := by decide

theorem witness_LookupsByNameHit :
    ((withReg regABC).reg.map Entry.name).Nodup ∧
      (withReg regABC).reg[0]? = some ⟨[0x41], [3, 2, 1, 0], 10⟩ := by decide

theorem witness_LookupMissesAnswerSentinels :
    (0xFFFFFFFF#32).toInt < 0 ∧ ((withReg regABC).reg.length : Int) ≤ (3#32).toInt ∧
      ∀ e ∈ (withReg regABC).reg, e.name ≠ [] := by decide

theorem witness_GetReadsWhatSetWrote :
    (∃ t, exec (.setParamIdx 0 15) (withReg regABC) = .next t ∧ HasStatus t .ok) ∧
    (∃ t, exec (.setParamName [0x42] 7) (withReg regABC) = .next t ∧ HasStatus t .ok) :=
  ⟨⟨_, rfl, rfl⟩, _, rfl, rfl⟩

/-- The inner premises of the layout: an entry and a place in its slice. -/
theorem witness_GenBitvecLaysOutTheEntries :
    (withReg regABC).reg[1]? = some ⟨[0x42], [0, 1, 2], 6⟩ ∧ 2 < [0, 1, 2].length := by decide

/-- The largest valid direction. -/
theorem witness_GenBitvecLengthIsTheTotalWidth : RegistryOk (withReg regABC).reg ∧ (3#3).toNat < 4 :=
  ⟨test_regABC_ok, by decide⟩

/-- The smallest invalid direction. -/
theorem witness_GenBitvecInvalidDirectionIsEmpty : 4 ≤ (4#3).toNat := by decide

theorem witness_EveryValueBitIsSentOnce :
    (withReg [⟨[0x43], [1, 0, 2], 5⟩]).reg = [⟨[0x43], [1, 0, 2], 5⟩] ∧ EntryOk ⟨[0x43], [1, 0, 2], 5⟩ := by decide

theorem witness_SingleParameterExpandsInItsOrder :
    State.reset.reg = [] ∧ ∃ t, exec (.addParamDir [0x41] 4 0b000 10) State.reset = .next t ∧ HasStatus t .ok :=
  ⟨rfl, _, rfl, rfl⟩

theorem witness_PcNewAnswersTheDefaultLatches : descWellFormed (withDescriptor desc14).cfg.desc = true := by decide

/-- The highest bit of the widest cell value. -/
theorem witness_SetBitChangesOneBitAndGetBitReadsIt :
    descWellFormed desc14 = true ∧ CellOk desc14 (cfgCell 0x3FFF) ∧
      (13#32).toNat < cellWidth desc14 (cfgCell 0x3FFF).kind := by decide

/-- A span that ends at the cell's top bit. -/
theorem witness_SetSubfieldWritesOnlyItsSpan :
    descWellFormed desc14 = true ∧ CellOk desc14 (cfgCell 0x2001) ∧
      (10#32).toNat + (4#32).toNat ≤ cellWidth desc14 (cfgCell 0x2001).kind := by decide

theorem witness_GetSubfieldReadsBackTheSpan :
    descWellFormed (withDescriptor desc14).cfg.desc = true ∧ CellOk desc14 (cfgCell 0x2001) ∧
      (4#32).toNat + (3#32).toNat ≤ cellWidth desc14 .config ∧
      ∃ t, exec (.pcSetSubfield (cfgCell 0x2001) 4 3 0xD) (withDescriptor desc14) = .next t ∧
        t.resp = some ⟨.ok, .cell (cfgCell 0x2051), .none⟩ :=
  ⟨by decide, by decide, by decide, _, rfl, rfl⟩

/-- One past the last bit, one past the last span, a field of a 14-bit cell in an 8-bit decoded cell, no field. -/
theorem witness_CellRequestsOutsideTheCellAreErrors :
    descWellFormed desc14 = true ∧ cellWidth desc14 .config ≤ (14#32).toNat ∧
      cellWidth desc14 .config < (10#32).toNat + (5#32).toNat ∧
      (desc14.layout.lookup [0x54] = some [⟨3, 1⟩, ⟨8, 2⟩] ∧
        ∃ p ∈ [(⟨3, 1⟩ : Piece), ⟨8, 2⟩], cellWidth desc14 .decoded < p.offset + p.width) ∧
      desc14.layout.lookup [0x55] = none := by decide

/-- A configuration cell, and a decoded cell wide enough for the field. -/
theorem witness_SetNamedWritesOnlyItsPieces :
    (descWellFormed desc14 = true ∧ CellOk desc14 (cfgCell 0x3FFF) ∧
      desc14.layout.lookup [0x54] = some [⟨3, 1⟩, ⟨8, 2⟩]) ∧
    (descWellFormed { desc14 with lRd := 10 } = true ∧ CellOk { desc14 with lRd := 10 } ⟨.decoded, 0x3FF⟩ ∧
      { desc14 with lRd := 10 }.layout.lookup [0x54] = some [⟨3, 1⟩, ⟨8, 2⟩] ∧
      ∀ p ∈ [(⟨3, 1⟩ : Piece), ⟨8, 2⟩], p.offset + p.width ≤ cellWidth { desc14 with lRd := 10 } .decoded) := by decide

theorem witness_GetNamedReadsBackSetNamed :
    descWellFormed (withDescriptor desc14).cfg.desc = true ∧ CellOk desc14 (cfgCell 0) ∧
      desc14.layout.lookup [0x54] = some [⟨3, 1⟩, ⟨8, 2⟩] ∧
      ∃ t, exec (.pcSetNamed (cfgCell 0) [0x54] 5) (withDescriptor desc14) = .next t ∧
        t.resp = some ⟨.ok, .cell (cfgCell 0x0208), .none⟩ :=
  ⟨by decide, by decide, by decide, _, rfl, rfl⟩

/-- The largest value that fits a cell and the smallest that does not. -/
theorem witness_SetLatchesReplacesTheCell :
    descWellFormed desc14 = true ∧ 0x3FFF < 2 ^ cellWidth desc14 .config ∧
      2 ^ cellWidth desc14 .config ≤ 0x4000 := by decide

/-- Two cells of one width, of one kind and of two. -/
theorem witness_PcEqComparesEveryBit :
    descWellFormed desc14 = true ∧ cellWidth desc14 (cfgCell 3).kind = cellWidth desc14 (cfgCell 5).kind ∧
      CellOk desc14 (cfgCell 3) ∧ CellOk desc14 (cfgCell 5) ∧ descWellFormed { exampleDesc with l := 8 } = true ∧
      cellWidth { exampleDesc with l := 8 } .config = cellWidth { exampleDesc with l := 8 } .decoded := by decide

theorem witness_RbcWordsFollowTheTraversal :
    descWellFormed descRbc = true ∧ Matrix.fits descRbc (.paired [((2, 1), (3, 1))]) = true := by decide

/-- The first and the last double column, row, sub-column and bit of vector S1, and a row with a block. -/
theorem witness_SnakeBitsFollowTheTraversal :
    descWellFormed descS1 = true ∧ Matrix.fits descS1 (.single [((0, 0), 5), ((0, 1), 6)]) = true ∧ 0 < descS1.cols / 2 ∧ 1 < descS1.rows ∧
      2 < descS1.l ∧ 0 % descS1.spRows = 0 ∧ descS1.periodicAtRow0 = true := by decide

theorem witness_SnakeBytesPackTheBits :
    ∃ t bits bytes, exec (.progMatrix (.single [((0, 0), 5), ((1, 0), 3), ((0, 1), 6)])) (withDescriptor descS1) =
      .next t ∧ t.resp = some ⟨.ok, .matrixOut (.bytes bits bytes), .none⟩ :=
  ⟨_, _, _, rfl, rfl⟩

/-- Two matrices that differ only outside the geometry. -/
theorem witness_KeysOutsideTheGeometryAreIgnored :
    descWellFormed State.reset.cfg.desc = true ∧
    (∀ k : Coord, k.1 < State.reset.cfg.desc.cols → k.2 < State.reset.cfg.desc.rows →
      ([((2, 0), 7), ((1, 1), 3)] : List (Coord × Nat)).filter (fun e => e.1 == k) =
        ([((1, 1), 3)] : List (Coord × Nat)).filter (fun e => e.1 == k)) ∧
    (∀ k : Coord, k.1 < State.reset.cfg.desc.cols → k.2 < State.reset.cfg.desc.rows →
      ([((0, 2), (1, 2))] : List (Coord × (Nat × Nat))).filter (fun e => e.1 == k) =
        ([] : List (Coord × (Nat × Nat))).filter (fun e => e.1 == k)) := by
  refine ⟨by decide, fun k h1 _ => ?_, fun k _ h2 => ?_⟩
  · have : ((2, 0) == k) = false := by simpa using fun h : (2, 0) = k => by subst h; exact absurd h1 (by decide)
    simp [this]
  · have : ((0, 2) == k) = false := by simpa using fun h : (0, 2) = k => by subst h; exact absurd h2 (by decide)
    simp [this]

/-- Success on the last attempt allowed, with the descriptor's limit and with the operand's. -/
theorem witness_ConfigureMatrixSucceedsWhenVerified :
    descWellFormed State.reset.cfg.desc = true ∧
      2 < (if (0#32) = 0 then State.reset.cfg.desc.maxAttempts else (0#32).toNat) ∧
      0 < (if (1#32) = 0 then State.reset.cfg.desc.maxAttempts else (1#32).toNat) ∧
      { State.reset with verifyAnswers := [.mismatch, .mismatch, .passed] }.verifyAnswers =
        List.replicate 2 .mismatch ++ .passed :: [] := by decide

theorem witness_ConfigureMatrixExhaustsItsAttempts :
    descWellFormed State.reset.cfg.desc = true ∧
      3 = (if (0#32) = 0 then State.reset.cfg.desc.maxAttempts else (0#32).toNat) ∧
      { State.reset with verifyAnswers := List.replicate 3 .mismatch }.verifyAnswers =
        List.replicate 3 .mismatch ++ [] := by decide

/-- No answer given in advance: the free oracle answers. -/
theorem witness_ConfigureMatrixIsBounded :
    descWellFormed State.reset.cfg.desc = true ∧
      2 = (if (2#32) = 0 then State.reset.cfg.desc.maxAttempts else (2#32).toNat) ∧
      VerifyAnswer.silent ∉ State.reset.verifyAnswers := by decide

theorem witness_MissingMatrixIsConfigFatal : descWellFormed State.reset.cfg.desc = true := by decide

/-- The three clauses at their boundaries: the first word past the end; the last bit, a 0; a full field one bit
short. -/
theorem witness_NextFieldEndsSuppressesAndTruncates :
    descWellFormed desc22 = true ∧ ([0xFFFFFFFE#32] : List Word).length ≤ (⟨1, 31⟩ : Cursor).wi.toNat ∧
      ((⟨0, 0⟩ : Cursor).wi.toNat < ([0xFFFFFFFE#32] : List Word).length ∧
        bitAtOffset [0xFFFFFFFE] (cursorOff ⟨0, 0⟩) = false) ∧
      (bitAtOffset [0xFFFFFFFE] (cursorOff ⟨0, 20⟩) = true ∧
        32 * ([0xFFFFFFFE#32] : List Word).length < cursorOff ⟨0, 20⟩ + desc22.w) := by decide

/-- A full field that ends with the stream. -/
theorem witness_NextFieldReadsFullFields :
    descWellFormed desc22 = true ∧ bitAtOffset [0xFFFFFFFF] (cursorOff ⟨0, 21⟩) = true ∧
      cursorOff ⟨0, 21⟩ + desc22.w ≤ 32 * ([0xFFFFFFFF#32] : List Word).length := by decide

/-- The eight fields of the frame of program P3. -/
theorem witness_SplitFrameReadsEncodedFields :
    descWellFormed exampleDesc = true ∧
      [0xA5, 0xC0, 0x93, 0, 0xC1, 0, 0xFF, 0xDA].length = 2 + exampleDesc.cols * (1 + exampleDesc.rows) ∧
      (∀ v ∈ [0xA5, 0xC0, 0x93, 0, 0xC1, 0, 0xFF, 0xDA], FieldValueOk exampleDesc.w v) ∧
      StreamBegins frameWs ([0xA5, 0xC0, 0x93, 0, 0xC1, 0, 0xFF, 0xDA].flatMap (fieldBits exampleDesc.w)) := by
  decide

/-- A stream for each of the three answers: whole, ended on a field boundary, truncated. -/
theorem witness_SplitFrameAlwaysAnswers :
    descWellFormed State.reset.cfg.desc = true ∧
    respOf (exec (.splitFrame frameWs) State.reset) =
      ok (.fields [0xA5, 0xC0, 0x93, 0, 0xC1, 0, 0xFF, 0xDA] ⟨1, 13⟩) ∧
    respOf (exec (.splitFrame [0xA5C093FF]) State.reset) =
      some (eosResponse (.fields [0xA5, 0xC0, 0x93, 0xFF, 0, 0, 0, 0] ⟨1, 31⟩)) ∧
    respOf (exec (.splitFrame [0xA5C09360]) State.reset) =
      some (errorResponse .errTruncated (.fieldsSoFar [0xA5, 0xC0, 0x93, 0])) := by decide

/-- The header values and the pixels of the good frame. -/
def goodHeader (c : Nat) : Nat := 0xC0 + c
/-- Its pixels. -/
def goodPixel (c r : Nat) : Nat := if c = 0 ∧ r = 0 then 0x93 else if c = 1 ∧ r = 1 then 0xFF else 0

theorem witness_DecodeFrameInvertsTheFrameFormat :
    State.reset.cfg.desc = exampleDesc ∧ descWellFormed exampleDesc = true ∧
      (∀ v ∈ frameFields exampleDesc goodHeader goodPixel, FieldValueOk exampleDesc.w v) ∧
      (∀ c, c < exampleDesc.cols → HeaderOk exampleDesc c (goodHeader c)) ∧
      StreamBegins frameWs ((frameFields exampleDesc goodHeader goodPixel).flatMap (fieldBits exampleDesc.w)) := by
  decide

/-- The split fields of a good frame meet the last clause; a wrong end, index, pattern and start the others. -/
theorem witness_DecodeFrameNamesTheFirstFailedCheck :
    (∃ t c, exec (.splitFrame frameWs) State.reset = .next t ∧
      t.resp = some ⟨.ok, .fields [0xA5, 0xC0, 0x93, 0, 0xC1, 0, 0xFF, 0xDA] c, .none⟩) ∧
    (∃ t c, exec (.splitFrame [0xA5C09360, 0xBFF6C000]) State.reset = .next t ∧
      t.resp = some ⟨.ok, .fields [0xA5, 0xC0, 0x93, 0, 0xC1, 0, 0xFF, 0xDB] c, .none⟩) ∧
    (∃ t c, exec (.splitFrame [0xA5C09360, 0x3FF68000]) State.reset = .next t ∧
      t.resp = some ⟨.ok, .fields [0xA5, 0xC0, 0x93, 0, 0xC0, 0, 0xFF, 0xDA] c, .none⟩) ∧
    (∃ t c, exec (.splitFrame [0xA5C09368, 0xBFF68000]) State.reset = .next t ∧
      t.resp = some ⟨.ok, .fields [0xA5, 0xC0, 0x93, 0, 0xD1, 0, 0xFF, 0xDA] c, .none⟩) ∧
    (∃ t c, exec (.splitFrame [0xA6C09360, 0xBFF68000]) State.reset = .next t ∧
      t.resp = some ⟨.ok, .fields [0xA6, 0xC0, 0x93, 0, 0xC1, 0, 0xFF, 0xDA] c, .none⟩) ∧
    (∀ k, k < 2 → HeaderOk exampleDesc k (goodHeader k)) ∧ 0xA5 = exampleDesc.frameStart ∧
    0xDA = exampleDesc.frameEnd ∧ 0xDB ≠ exampleDesc.frameEnd ∧ 0xA6 ≠ exampleDesc.frameStart ∧
    (0xC0 &&& 0xF0 = exampleDesc.colHdrPattern ∧ (0xC0 &&& 0x0F) >>> 0 ≠ 1) ∧
    0xD1 &&& 0xF0 ≠ exampleDesc.colHdrPattern :=
  ⟨⟨_, _, rfl, rfl⟩, ⟨_, _, rfl, rfl⟩, ⟨_, _, rfl, rfl⟩, ⟨_, _, rfl, rfl⟩, ⟨_, _, rfl, rfl⟩, by decide⟩

/-- The clauses on short streams: fields that pass their checks before a truncated field and before the end of the
stream, no field at all, a wrong frame start, a wrong header pattern, a wrong column index. -/
theorem witness_ShortFramesAreNeverDecoded :
    (∃ t u, exec (.splitFrame [0xA5C09360]) State.reset = .next t ∧ ¬ HasStatus t .ok ∧
      exec (.decodeFrame [0xA5C09360]) State.reset = .next u) ∧
    (StreamBegins [0xA5C09360] ([0xA5, 0xC0, 0x93, 0].flatMap (fieldBits 8)) ∧
      TruncatedFieldAt 8 [0xA5C09360] ([0xA5, 0xC0, 0x93, 0].flatMap (fieldBits 8)).length ∧
      HeaderOk exampleDesc 0 0xC0) ∧
    (StreamBegins [0xA5C093FF] ([0xA5, 0xC0, 0x93, 0xFF].flatMap (fieldBits 8)) ∧
      ([0xA5, 0xC0, 0x93, 0xFF].flatMap (fieldBits 8)).length = 32 * ([0xA5C093FF#32] : List Word).length) ∧
    (StreamBegins [] (([] : List Nat).flatMap (fieldBits 8))) ∧
    (StreamBegins [0xA6C093FF] ([0xA6, 0xC0, 0x93, 0xFF].flatMap (fieldBits 8)) ∧ 0xA6 ≠ exampleDesc.frameStart) ∧
    (StreamBegins [0xA5D093FF] ([0xA5, 0xD0, 0x93, 0xFF].flatMap (fieldBits 8)) ∧
      0xD0 &&& exampleDesc.colHdrMask ≠ exampleDesc.colHdrPattern ∧ 1 + 0 * (1 + exampleDesc.rows) < 4) ∧
    (StreamBegins [0xA5C193FF] ([0xA5, 0xC1, 0x93, 0xFF].flatMap (fieldBits 8)) ∧
      0xC1 &&& exampleDesc.colHdrMask = exampleDesc.colHdrPattern ∧
      (0xC1 &&& exampleDesc.colIdxMask) >>> exampleDesc.colIdxShift ≠ 0) :=
  ⟨⟨_, _, rfl, by decide, rfl⟩, by decide⟩

end Sys2Proof.Machine
end

section
/-! PROOFS. What an operation that answers a next state has done to the state, said once for all 29 operations
(10_state R28, 43_matrix_encoder R196), and what follows for the registry. -/

namespace Sys2Proof.Machine

/-! ### Operations that only respond -/

/-- The outcome writes nothing of `s` but the response, or is the refusal of an ill-formed descriptor (10_state
R31). -/
def OnlyResponds (s : State) (r : Result) : Prop :=
  r = .refused .illFormedDescriptor ∨ ∃ q, r = .next (s.respond q)

section
variable {s : State}

theorem OnlyResponds.of_answer (r : Results) : OnlyResponds s (answer s r) := .inr ⟨_, rfl⟩

theorem OnlyResponds.of_raise (st : Status) (d : Detail) : OnlyResponds s (raise s st d) := .inr ⟨_, rfl⟩

theorem OnlyResponds.of_withDesc {k : Desc → Result} (h : ∀ d, OnlyResponds s (k d)) :
    OnlyResponds s (withDesc s k) := by
  unfold withDesc
  split
  · exact h _
  · exact .inl rfl

/-- A check that raises an error, before an answer. -/
theorem OnlyResponds.of_check {c : Prop} [Decidable c] (st : Status) (d : Detail) (r : Results) :
    OnlyResponds s (if c then raise s st d else answer s r) := by
  split
  · exact .of_raise _ _
  · exact .of_answer _

theorem execPcSetNamed_onlyResponds (cell : Cell) (field : ByteString) (value : Nat) :
    OnlyResponds s (execPcSetNamed cell field value s) :=
  .of_withDesc fun d => by
    cases layoutPieces d field with
    | none => exact .of_raise _ _
    | some ps => exact .of_check _ _ _

theorem execPcGetNamed_onlyResponds (cell : Cell) (field : ByteString) :
    OnlyResponds s (execPcGetNamed cell field s) :=
  .of_withDesc fun d => by
    cases layoutPieces d field with
    | none => exact .of_raise _ _
    | some ps => exact .of_check _ _ _

theorem execPcEq_onlyResponds (a b : Cell) : OnlyResponds s (execPcEq a b s) :=
  .of_withDesc fun _ => by
    split
    · exact .of_answer _
    · exact .of_answer _

theorem execNextField_onlyResponds (stream : List Word) (cursor : Cursor) :
    OnlyResponds s (execNextField stream cursor s) :=
  .of_withDesc fun d => by
    cases nextFieldAt d.w stream (cursorIn cursor) with
    | eos c => exact .inr ⟨_, rfl⟩
    | field v c => exact .of_answer _
    | truncated => exact .of_raise _ _

theorem execDecodeFrame_onlyResponds (stream : List Word) : OnlyResponds s (execDecodeFrame stream s) :=
  .of_withDesc fun d => by
    cases decodeFrameOf d stream with
    | error e => exact .of_raise _ _
    | ok r => exact .of_answer _

end

/-- The opcodes of the operations that do more to the state than respond: those that write the registry (10_state
R28), and CONFIGURE_MATRIX, which meets the transport (43_matrix_encoder R196). -/
def writingOpcodes : List Byte := [0x10, 0x11, 0x12, 0x13, 0x1D, 0x31]

/-- Every operation outside `writingOpcodes` only responds. -/
theorem exec_onlyResponds (i : Instr) (s : State) (hi : i.opcode ∉ writingOpcodes) : OnlyResponds s (exec i s) := by
  cases i with
  | addParamDir | addParamOrd | setParamIdx | setParamName | clear | configureMatrix =>
    simp [Instr.opcode, writingOpcodes] at hi
  | getParamIdx | getParamName | getWidthIdx | getWidthName | getOrderIdx | getOrderName | getName | getIdx2Name
  | getName2Idx | genBitvec => exact .of_answer _
  | pcNew | progMatrix => exact .of_withDesc fun _ => .of_answer _
  | pcSetBit | pcGetBit | pcSetSubfield | pcGetSubfield | pcSetLatches =>
    exact .of_withDesc fun _ => .of_check _ _ _
  | pcSetNamed cell field value => exact execPcSetNamed_onlyResponds cell field value
  | pcGetNamed cell field => exact execPcGetNamed_onlyResponds cell field
  | pcEq a b => exact execPcEq_onlyResponds a b
  | nextField stream cursor => exact execNextField_onlyResponds stream cursor
  | decodeFrame stream => exact execDecodeFrame_onlyResponds stream
  | splitFrame stream => exact .of_withDesc fun _ => .inr ⟨_, rfl⟩

/-! ### What each operation does to the state -/

/-- What operation `i`, started in `s`, can have done when it answers the next state. -/
inductive Effect (i : Instr) (s : State) : State → Prop where
  /-- It responded, an error or a result, and wrote nothing else. -/
  | responded (q : Response) : Effect i s (s.respond q)
  /-- An AddParameter form appended one entry (40_registry R106). -/
  | appended (hi : i.opcode ∈ [0x10#8, 0x11#8]) (e : Entry) :
      Effect i s ((s.appendEntry e).respond (okResponse .absent))
  /-- A SetParameter form wrote the value of one entry (40_registry R108). -/
  | valueSet (hi : i.opcode ∈ [0x12#8, 0x13#8]) (j : Nat) (e : Entry) (v : Nat) (hj : s.reg[j]? = some e) :
      Effect i s ((s.setEntryValue j v).respond (okResponse .absent))
  /-- CLEAR emptied the registry (40_registry R120). -/
  | cleared (hi : i = .clear) : Effect i s (s.clearReg.respond (okResponse .absent))
  /-- CONFIGURE_MATRIX met the transport and kept the rest (43_matrix_encoder R196). -/
  | transported (hi : i.opcode = 0x31#8) (t : State) (hreg : t.reg = s.reg) (hcfg : t.cfg = s.cfg)
      (hport : t.port = s.port) (hline : t.resetLine = s.resetLine) : Effect i s t

section
variable {i : Instr} {s t : State}

theorem OnlyResponds.effect {r : Result} (hr : OnlyResponds s r) (h : r = .next t) : Effect i s t := by
  obtain hr | ⟨q, hr⟩ := hr
  · cases hr.symm.trans h
  · cases hr.symm.trans h
    exact .responded q

theorem addEntry_effect (hi : i.opcode ∈ [0x10#8, 0x11#8]) {name : ByteString} {pos : List Nat} {initial : Nat}
    (h : addEntry s name pos initial = .next t) : Effect i s t := by
  obtain ⟨st, herr, -⟩ | ⟨hok, -⟩ := addEntry_cases (s := s) name pos initial
  · exact (OnlyResponds.of_raise st .none).effect (herr.symm.trans h)
  · cases hok.symm.trans h
    exact .appended hi _

theorem execAddParamDir_effect (hi : i.opcode ∈ [0x10#8, 0x11#8]) {name : ByteString} {width : Word}
    {direction : BitVec 3} {initial : Word} (h : execAddParamDir name width direction initial s = .next t) :
    Effect i s t := by
  unfold execAddParamDir at h
  split at h
  · exact (OnlyResponds.of_raise _ _).effect h
  · split at h
    · exact (OnlyResponds.of_raise _ _).effect h
    · exact addEntry_effect hi h

theorem execAddParamOrd_effect (hi : i.opcode ∈ [0x10#8, 0x11#8]) {name order : ByteString} {initial : Word}
    (h : execAddParamOrd name order initial s = .next t) : Effect i s t := by
  unfold execAddParamOrd at h
  split at h
  · exact (OnlyResponds.of_raise _ _).effect h
  · exact addEntry_effect hi h

theorem setParam_effect (hi : i.opcode ∈ [0x12#8, 0x13#8]) {key : Option Nat} {value : Nat}
    (h : setParam s key value = .next t) : Effect i s t := by
  obtain ⟨st, herr, -⟩ | ⟨j, e, -, hj, -, hok⟩ := setParam_cases (s := s) key value
  · exact (OnlyResponds.of_raise st .none).effect (herr.symm.trans h)
  · cases hok.symm.trans h
    exact .valueSet hi j e value hj

/-- The attempts write nothing but the transport's record and the response (43_matrix_encoder R196). -/
theorem configureLoop_frame {out : MatrixOut} {n a : Nat} (h : configureLoop out n a s = .next t) :
    t.reg = s.reg ∧ t.cfg = s.cfg ∧ t.port = s.port ∧ t.resetLine = s.resetLine := by
  induction n generalizing a s with
  | zero =>
    cases h
    simp
  | succ n ih =>
    rw [configureLoop] at h
    split at h
    · cases h
    · split at h
      · simpa using ih h
      · cases h
        simp

theorem execConfigureMatrix_effect (hi : i.opcode = 0x31#8) {matrix : Option Matrix} {maxAttempts : Word}
    (h : execConfigureMatrix matrix maxAttempts s = .next t) : Effect i s t := by
  obtain ⟨-, h⟩ := withDesc_next _ h
  cases matrix with
  | none => exact (OnlyResponds.of_raise _ _).effect h
  | some m =>
    obtain ⟨hreg, hcfg, hport, hline⟩ := configureLoop_frame h
    exact .transported hi t hreg hcfg hport hline

/-- Every operation that answers a next state has had one of the five effects. -/
theorem exec_effect (h : exec i s = .next t) : Effect i s t := by
  cases i with
  | addParamDir => exact execAddParamDir_effect (by simp [Instr.opcode]) h
  | addParamOrd => exact execAddParamOrd_effect (by simp [Instr.opcode]) h
  | setParamIdx | setParamName => exact setParam_effect (by simp [Instr.opcode]) h
  | clear =>
    cases h
    exact .cleared rfl
  | configureMatrix => exact execConfigureMatrix_effect rfl h
  | _ => exact (exec_onlyResponds _ s (by simp [Instr.opcode, writingOpcodes])).effect h

end

/-! ### The registry -/

/-- Writing the value of an entry that is there replaces that entry (10_state R28, 40_registry R108). -/
theorem State.setEntryValue_reg_of_getElem? {s : State} {j : Nat} {e : Entry} (hj : s.reg[j]? = some e) (v : Nat) :
    (s.setEntryValue j v).reg = s.reg.set j { e with value := v } := by
  simp [List.modify_eq_set_getElem?, hj]

/-- Settles O11, by the effect each operation can have. -/
theorem onlyFiveOperationsWriteTheRegistry : Obligations.OnlyFiveOperationsWriteTheRegistry := by
  intro i s t h
  cases exec_effect h with
  | responded q => exact .inl rfl
  | appended hi e => exact .inr (.inl ⟨hi, e, rfl⟩)
  | valueSet hi j e v hj =>
    exact .inr (.inr (.inl ⟨hi, j, e, v, hj, State.setEntryValue_reg_of_getElem? hj v⟩))
  | cleared hi => exact .inr (.inr (.inr ⟨hi, rfl⟩))
  | transported hi t hreg => exact .inl hreg

end Sys2Proof.Machine
end

section
/-! PROOFS. The registry operations (40_registry): what an address resolves to, AddParameter's checks and its append,
SetParameter at a known and at an unknown address, the lookups that miss, CLEAR. -/

namespace Sys2Proof.Machine

section
variable {s : State}

/-! ### Registry addresses (40_registry R109) -/

/-- An index resolves to nothing exactly when it is negative or past the last entry. -/
theorem resolveIdx_eq_none (reg : List Entry) (index : Word) :
    resolveIdx reg index = none ↔ index.toInt < 0 ∨ (reg.length : Int) ≤ index.toInt := by
  unfold resolveIdx
  split
  · simp only [reduceCtorEq, false_iff]
    omega
  · simp only [true_iff]
    omega

/-- The index of an entry resolves to its place. -/
theorem resolveIdx_of_getElem? {reg : List Entry} {index : Word} {i : Nat} {e : Entry} (hidx : index.toInt = i)
    (hi : reg[i]? = some e) : resolveIdx reg index = some i :=
  (resolveIdx_eq_some reg index i).mpr ⟨hidx, (List.getElem?_eq_some_iff.mp hi).1⟩

theorem resolveName_isSome_iff (reg : List Entry) (name : ByteString) :
    (resolveName reg name).isSome = true ↔ ∃ e ∈ reg, e.name = name := by
  simp [resolveName]

/-- Where names are unique (10_state R26), the name of an entry resolves to its place. -/
theorem resolveName_of_getElem? {reg : List Entry} (hnodup : (reg.map Entry.name).Nodup) {i : Nat} {e : Entry}
    (hi : reg[i]? = some e) : resolveName reg e.name = some i := by
  have hfound : (resolveName reg e.name).isSome = true :=
    (resolveName_isSome_iff reg e.name).mpr ⟨e, List.mem_of_getElem? hi, rfl⟩
  obtain ⟨j, hj⟩ := Option.isSome_iff_exists.mp hfound
  obtain ⟨e', hj', hname⟩ := resolveName_some reg e.name j hj
  have hnames : (reg.map Entry.name)[i]? = (reg.map Entry.name)[j]? := by
    simp [hi, hj', hname]
  have hlt : i < (reg.map Entry.name).length := by
    simpa using (List.getElem?_eq_some_iff.mp hi).1
  rw [hj, (List.getElem?_inj hlt hnodup).mp hnames]

/-! ### The checks of AddParameter in the statements' terms (40_registry R100, R102, R121) -/

theorem nameBad_iff (cfg : Config) (name : ByteString) :
    nameBad cfg name = true ↔ name = [] ∨ (cfg.nameMax.any fun m => decide (m < name.length)) = true := by
  unfold nameBad
  cases cfg.nameMax with
  | none => simp
  | some m => simp

theorem regFull_eq (s : State) : regFull s = s.cfg.regCapacity.any fun c => decide (c ≤ s.reg.length) := by
  unfold regFull
  cases s.cfg.regCapacity with
  | none => rfl
  | some c => rfl

/-- Only MSB_FIRST and LSB_FIRST have a built-in order (40_registry R101). -/
theorem builtinOrder_eq_none (width : Nat) (d : BitVec 3) :
    builtinOrder width d = none ↔ d ≠ 0b000 ∧ d ≠ 0b001 := by
  unfold builtinOrder dirMsbFirst dirLsbFirst
  split
  next hmsb => simp [hmsb]
  next hmsb =>
    split
    next hlsb => simp [hlsb]
    next hlsb => exact iff_of_true rfl ⟨hmsb, hlsb⟩

/-! ### AddParameter -/

/-- A name that can be added is added: the entry, with its value clamped, goes behind the others (40_registry R103,
R106). -/
theorem addEntry_of_canAdd {name : ByteString} (h : CanAdd s name) (pos : List Nat) (initial : Nat) :
    addEntry s name pos initial = .next { s with
      reg := s.reg ++ [⟨name, pos, min initial (2 ^ pos.length - 1)⟩]
      resp := some ⟨.ok, .absent, .none⟩ } := by
  obtain ⟨hne, hmax, hnew, hcap⟩ := h
  have hform : ¬ nameBad s.cfg name = true := by simp [nameBad_iff, hne, hmax]
  have hdup : ¬ (resolveName s.reg name).isSome = true := by simpa [resolveName_isSome_iff] using hnew
  have hroom : ¬ regFull s = true := by simp [regFull_eq, hcap]
  rw [addEntry, if_neg hform, if_neg hdup, if_neg hroom]
  rfl

/-- A legal width and a direction with a built-in order leave ADD_PARAM_DIR with the checks of the name and the
capacity (40_registry R102). -/
theorem execAddParamDir_of_order {width : Word} {direction : BitVec 3} {pos : List Nat} (hmin : 1 ≤ width.toNat)
    (hmax : width.toNat ≤ 30) (hpos : builtinOrder width.toNat direction = some pos) (name : ByteString)
    (initial : Word) : execAddParamDir name width direction initial s = addEntry s name pos initial.toNat := by
  have hwidth : ¬ (width.toNat < widthMin ∨ widthMax < width.toNat) := by
    simp only [widthMin, widthMax]
    omega
  rw [execAddParamDir, if_neg hwidth, hpos]

/-- The outcome of an operation on `s` is a next state with this status, and an error changes nothing but the
response (60_exceptions R250). -/
def EndsWith (s : State) (r : Result) (st : Status) : Prop :=
  ∃ t, r = .next t ∧ HasStatus t st ∧ (¬ HasStatus t .ok → t = { s with resp := t.resp })

theorem EndsWith.of_raise (st : Status) (d : Detail) : EndsWith s (raise s st d) st :=
  ⟨s.respond (errorResponse st d), rfl, rfl, fun _ => rfl⟩

/-- Success says nothing about the frame. -/
theorem EndsWith.of_answer (u : State) (r : Results) : EndsWith s (answer u r) .ok :=
  ⟨u.respond (okResponse r), rfl, rfl, fun h => absurd rfl h⟩

/-- One check of an operation against one check of the order the statement gives. -/
theorem EndsWith.check {c c' : Prop} [Decidable c] [Decidable c'] {r : Result} {st st' : Status} (hc : c ↔ c')
    (h : ¬ c' → EndsWith s r st') :
    EndsWith s (if c then raise s st .none else r) (if c' then st else st') := by
  by_cases hc' : c'
  · rw [if_pos hc', if_pos (hc.mpr hc')]
    exact .of_raise st .none
  · rw [if_neg hc', if_neg (mt hc.mp hc')]
    exact h hc'

/-- The common end of both AddParameter forms: name form, duplicate name, capacity, in this order (40_registry R102,
R105, R121). -/
theorem addEntry_endsWith (name : ByteString) (pos : List Nat) (initial : Nat) :
    EndsWith s (addEntry s name pos initial)
      (if name = [] ∨ (s.cfg.nameMax.any fun m => decide (m < name.length)) = true then .errBadName
      else if ∃ e ∈ s.reg, e.name = name then .errDupName
      else if (s.cfg.regCapacity.any fun c => decide (c ≤ s.reg.length)) = true then .errRegFull
      else .ok) :=
  .check (nameBad_iff s.cfg name) fun _ =>
    .check (resolveName_isSome_iff s.reg name) fun _ =>
      .check (by rw [regFull_eq]) fun _ => .of_answer _ _

/-! ### SetParameter (40_registry R108) -/

theorem setParam_none (value : Nat) :
    setParam s none value = .next { s with resp := some ⟨.errUnknownParam, .absent, .none⟩ } := rfl

/-- A value that fits the entry overwrites the stored one. -/
theorem setParam_of_lt {i value : Nat} {e : Entry} (hi : s.reg[i]? = some e) (hv : value < 2 ^ e.pos.length) :
    setParam s (some i) value = .next { s with
      reg := s.reg.set i { e with value := value }
      resp := some ⟨.ok, .absent, .none⟩ } := by
  have hfits : ¬ 2 ^ entryWidth e ≤ value := Nat.not_le.mpr hv
  simp only [setParam, hi, if_neg hfits]
  rw [answer, ← State.setEntryValue_reg_of_getElem? hi value]
  rfl

/-- A value of `2^width` or more is refused. -/
theorem setParam_of_le {i value : Nat} {e : Entry} (hi : s.reg[i]? = some e) (hv : 2 ^ e.pos.length ≤ value) :
    setParam s (some i) value = .next { s with resp := some ⟨.errValueRange, .absent, .none⟩ } := by
  have hrange : 2 ^ entryWidth e ≤ value := hv
  simp only [setParam, hi, if_pos hrange]
  rfl

/-! ### What each operation is at the address it resolves -/

theorem exec_setParamIdx (index value : Word) :
    exec (.setParamIdx index value) s = setParam s (resolveIdx s.reg index) value.toNat := rfl

theorem exec_setParamName (name : ByteString) (value : Word) :
    exec (.setParamName name value) s = setParam s (resolveName s.reg name) value.toNat := rfl

theorem exec_getParamIdx (index : Word) :
    exec (.getParamIdx index) s = answer s (.int (valueOrMiss (entryAt s.reg (resolveIdx s.reg index)))) := rfl

theorem exec_getWidthIdx (index : Word) :
    exec (.getWidthIdx index) s = answer s (.int (widthOrMiss (entryAt s.reg (resolveIdx s.reg index)))) := rfl

theorem exec_getOrderIdx (index : Word) :
    exec (.getOrderIdx index) s = answer s (.order (orderOrMiss (entryAt s.reg (resolveIdx s.reg index)))) := rfl

theorem exec_getName (index : Word) :
    exec (.getName index) s = answer s (.name (nameOrMiss (entryAt s.reg (resolveIdx s.reg index)))) := rfl

theorem exec_getIdx2Name (index : Word) :
    exec (.getIdx2Name index) s = answer s (.name (nameOrMiss (entryAt s.reg (resolveIdx s.reg index)))) := rfl

theorem exec_getParamName (name : ByteString) :
    exec (.getParamName name) s = answer s (.int (valueOrMiss (entryAt s.reg (resolveName s.reg name)))) := rfl

theorem exec_getWidthName (name : ByteString) :
    exec (.getWidthName name) s = answer s (.int (widthOrMiss (entryAt s.reg (resolveName s.reg name)))) := rfl

theorem exec_getOrderName (name : ByteString) :
    exec (.getOrderName name) s = answer s (.order (orderOrMiss (entryAt s.reg (resolveName s.reg name)))) := rfl

theorem exec_getName2Idx (name : ByteString) :
    exec (.getName2Idx name) s = answer s (.int (indexOrMiss (resolveName s.reg name))) := rfl

end

/-! ### The obligations -/

/-- Settles O20: the width and the direction are checked here, the rest in `addEntry_endsWith`. -/
theorem addParamDirChecksInOrder : Obligations.AddParamDirChecksInOrder := by
  intro s name width direction initial
  refine EndsWith.check (by simp only [widthMin, widthMax]; omega) fun _ => ?_
  cases hpos : builtinOrder width.toNat direction with
  | none =>
    rw [if_pos ((builtinOrder_eq_none _ _).mp hpos)]
    exact .of_raise _ _
  | some pos =>
    have hdir : ¬ (direction ≠ 0b000 ∧ direction ≠ 0b001) := by
      rw [← builtinOrder_eq_none width.toNat, hpos]
      simp
    rw [if_neg hdir]
    exact addEntry_endsWith name pos initial.toNat

/-- Settles O25: a name that some entry has resolves to that entry, and SetParameter does the rest. -/
theorem setParamNameWritesOrRefuses : Obligations.SetParamNameWritesOrRefuses := by
  intro s value i e name hnodup
  refine ⟨fun hi hv => ?_, fun hi hv => ?_, fun hmiss => ?_⟩
  · rw [exec_setParamName, resolveName_of_getElem? hnodup hi, setParam_of_lt hi hv]
  · rw [exec_setParamName, resolveName_of_getElem? hnodup hi, setParam_of_le hi hv]
  · rw [exec_setParamName, (resolveName_eq_none s.reg name).mpr hmiss, setParam_none]

/-- Settles O19, for each of the two built-in orders. -/
theorem addParamDirAppendsTheEntry : Obligations.AddParamDirAppendsTheEntry := by
  intro s name width initial hmin hmax hadd
  have hdir {d : BitVec 3} {pos : List Nat} (hpos : builtinOrder width.toNat d = some pos) :
      exec (.addParamDir name width d initial) s = _ :=
    (execAddParamDir_of_order hmin hmax hpos name initial).trans (addEntry_of_canAdd hadd pos initial.toNat)
  constructor
  · simpa [descending] using hdir (pos := descending width.toNat) rfl
  · simpa using hdir (pos := List.range width.toNat) rfl

/-- Settles O24: an index resolves to its entry or to nothing, and SetParameter does the rest. -/
theorem setParamIdxWritesOrRefuses : Obligations.SetParamIdxWritesOrRefuses := by
  intro s index value i e
  refine ⟨fun hidx hi hv => ?_, fun hidx hi hv => ?_, fun hmiss => ?_⟩
  · rw [exec_setParamIdx, resolveIdx_of_getElem? hidx hi, setParam_of_lt hi hv]
  · rw [exec_setParamIdx, resolveIdx_of_getElem? hidx hi, setParam_of_le hi hv]
  · rw [exec_setParamIdx, (resolveIdx_eq_none s.reg index).mpr hmiss, setParam_none]

/-- Settles O29: an unknown address resolves to nothing, where each lookup answers its sentinel. -/
theorem lookupMissesAnswerSentinels : Obligations.LookupMissesAnswerSentinels := by
  intro s index name
  constructor
  · intro hmiss
    rw [exec_getParamIdx, exec_getWidthIdx, exec_getOrderIdx, exec_getName, exec_getIdx2Name,
      (resolveIdx_eq_none s.reg index).mpr hmiss]
    exact ⟨rfl, rfl, rfl, rfl, rfl⟩
  · intro hmiss
    rw [exec_getParamName, exec_getWidthName, exec_getOrderName, exec_getName2Idx,
      (resolveName_eq_none s.reg name).mpr hmiss]
    exact ⟨rfl, rfl, rfl, rfl⟩

/-- Settles O31: CLEAR has no check, so this is its definition. -/
theorem clearEmptiesTheRegistry : Obligations.ClearEmptiesTheRegistry := fun _ => rfl

end Sys2Proof.Machine
end

section
/-! PROOFS. GEN_BITVEC (41_serializer): the slice of one entry, the slices of all entries in registry order, and what
each direction answers. -/

namespace Sys2Proof.Machine

/-! ### The slice of one entry (41_serializer R142) -/

@[simp] theorem slice_length (e : Entry) (rev : Bool) : (slice e rev).length = e.pos.length := by
  cases rev with
  | false => simp [slice]
  | true => simp [slice]

/-- Place `k` of a slice holds the value bit that `pos` names at `k` from the left, or from the right when the scan is
reversed. -/
theorem slice_getElem? (e : Entry) (rev : Bool) {k : Nat} (hk : k < e.pos.length) :
    (slice e rev)[k]? = some (e.value.testBit (e.pos.getD (if rev then e.pos.length - 1 - k else k) 0)) := by
  cases rev with
  | false => simp [slice, hk]
  | true =>
    have hright : e.pos.length - 1 - k < e.pos.length := by omega
    simp [slice, hk, hright]

/-! ### All entries in registry order (41_serializer R141) -/

/-- The stream before a global inversion: the slices of the entries in registry order (R141's loop). -/
def joinedSlices (reg : List Entry) (rev : Bool) : List Bool := reg.flatMap fun e => slice e rev

theorem map_slice_length (reg : List Entry) (rev : Bool) :
    (reg.map fun e => slice e rev).map List.length = reg.map fun e => e.pos.length := by
  simp [Function.comp_def]

/-- All widths together (R144). -/
theorem joinedSlices_length (reg : List Entry) (rev : Bool) :
    (joinedSlices reg rev).length = (reg.map fun e => e.pos.length).sum := by
  simp [joinedSlices, List.length_flatMap]

/-- Past the widths of the first `i` entries stand the slices of the others. -/
theorem joinedSlices_drop (reg : List Entry) (rev : Bool) (i : Nat) :
    (joinedSlices reg rev).drop ((reg.take i).map fun e => e.pos.length).sum = joinedSlices (reg.drop i) rev := by
  have h := List.drop_sum_flatten (reg.map fun e => slice e rev) i
  rwa [map_slice_length, ← List.map_take, ← List.map_drop, ← List.flatMap_def, ← List.flatMap_def] at h

/-- The slice of entry `i` begins at the sum of the earlier widths. -/
theorem joinedSlices_getElem? {reg : List Entry} {i k : Nat} {e : Entry} (hi : reg[i]? = some e)
    (hk : k < e.pos.length) (rev : Bool) :
    (joinedSlices reg rev)[((reg.take i).map fun e => e.pos.length).sum + k]? = (slice e rev)[k]? := by
  obtain ⟨hlt, rfl⟩ := List.getElem?_eq_some_iff.mp hi
  rw [← List.getElem?_drop, joinedSlices_drop, List.drop_eq_getElem_cons hlt, joinedSlices, List.flatMap_cons,
    List.getElem?_append_left (by simpa using hk)]

/-- Entries of at most 30 bits each (10_state R23) make at most 30 bits an entry. -/
theorem RegistryOk.sum_widths_le {reg : List Entry} (h : RegistryOk reg) :
    (reg.map fun e => e.pos.length).sum ≤ 30 * reg.length := by
  obtain ⟨hentries, -⟩ := h
  have hwidth : ∀ w ∈ reg.map (fun e => e.pos.length), w ≤ 30 := by
    intro w hw
    obtain ⟨e, he, rfl⟩ := List.mem_map.mp hw
    obtain ⟨-, hmax, -⟩ := hentries e he
    exact hmax
  simpa [Nat.mul_comm] using List.sum_le_card_nsmul _ 30 hwidth

/-! ### The directions (30_encoding R74, 41_serializer R140) -/

/-- The valid directions are the codes below 4. -/
theorem dirValid_eq (d : BitVec 3) : dirValid d = decide (d.toNat < 4) := by
  revert d
  decide

/-- A valid direction answers the joined slices, reversed as a whole when it is inverted (R143). -/
theorem bitVector_of_lt (reg : List Entry) {d : BitVec 3} (hd : d.toNat < 4) :
    bitVector reg d =
      if dirInv d then (joinedSlices reg (dirRev d)).reverse else joinedSlices reg (dirRev d) := by
  rw [bitVector, dirValid_eq, if_pos (decide_eq_true hd)]
  rfl

/-- MSB_FIRST and LSB_FIRST answer the joined slices as they are. -/
theorem bitVector_plain (reg : List Entry) (rev : Bool) :
    bitVector reg (if rev then 0b001 else 0b000) = joinedSlices reg rev := by
  cases rev with
  | false => exact bitVector_of_lt reg (d := 0b000) (by decide)
  | true => exact bitVector_of_lt reg (d := 0b001) (by decide)

/-- GLOBAL_INVERTED_MSB_FIRST and GLOBAL_INVERTED_LSB_FIRST answer them reversed as a whole (R143). -/
theorem bitVector_inverted (reg : List Entry) (rev : Bool) :
    bitVector reg (if rev then 0b011 else 0b010) = (joinedSlices reg rev).reverse := by
  cases rev with
  | false => exact bitVector_of_lt reg (d := 0b010) (by decide)
  | true => exact bitVector_of_lt reg (d := 0b011) (by decide)

/-- Any other code answers the empty sequence (R145). -/
theorem bitVector_of_le (reg : List Entry) {d : BitVec 3} (hd : 4 ≤ d.toNat) : bitVector reg d = [] := by
  rw [bitVector, dirValid_eq, if_neg (by simpa using hd)]

/-- The length is the same under every valid direction. -/
theorem bitVector_length (reg : List Entry) {d : BitVec 3} (hd : d.toNat < 4) :
    (bitVector reg d).length = (reg.map fun e => e.pos.length).sum := by
  rw [bitVector_of_lt reg hd]
  split
  · rw [List.length_reverse, joinedSlices_length]
  · rw [joinedSlices_length]

/-- GEN_BITVEC has no check (R141): it answers the direction's bit vector and writes nothing. -/
theorem exec_genBitvec (d : BitVec 3) (s : State) :
    exec (.genBitvec d) s = .next { s with resp := some ⟨.ok, .bits (bitVector s.reg d), .none⟩ } := rfl

/-! ### The obligations -/

/-- Settles O32: the vector is the joined slices, which the inverted direction of the family reverses. -/
theorem genBitvecLaysOutTheEntries : Obligations.GenBitvecLaysOutTheEntries := by
  intro s rev
  refine ⟨joinedSlices s.reg rev, joinedSlices_length s.reg rev, fun i k e hi hk => ?_, ?_, ?_⟩
  · rw [joinedSlices_getElem? hi hk, slice_getElem? e rev hk]
  · rw [exec_genBitvec, bitVector_plain]
  · rw [exec_genBitvec, bitVector_inverted]

/-- Settles O33: the length is that of the joined slices, and the registry's invariant bounds each width. -/
theorem genBitvecLengthIsTheTotalWidth : Obligations.GenBitvecLengthIsTheTotalWidth := by
  intro s direction hok hd
  have hlen := bitVector_length s.reg hd
  exact ⟨bitVector s.reg direction, exec_genBitvec direction s, hlen, hlen ▸ hok.sum_widths_le⟩

/-- Settles O34: a code of 4 or more is no valid direction. -/
theorem genBitvecInvalidDirectionIsEmpty : Obligations.GenBitvecInvalidDirectionIsEmpty := by
  intro s direction hd
  rw [exec_genBitvec, bitVector_of_le s.reg hd]

end Sys2Proof.Machine
end

section
/-! PROOFS. The PixelCell operations that handle a cell whole (42_pixelcell): the default cell, the replaced cell, the
comparison of two cells. -/

namespace Sys2Proof.Machine

section
variable {s : State}

/-! ### Cells as bits (10_state R33) -/

/-- Two cells of `w` bits are the same exactly when they agree at every place below `w`. -/
theorem eq_iff_testBit_of_lt {w x y : Nat} (hx : x < 2 ^ w) (hy : y < 2 ^ w) :
    x = y ↔ ∀ k, k < w → x.testBit k = y.testBit k := by
  refine ⟨fun h _ _ => by rw [h], fun hlow => Nat.eq_of_testBit_eq fun k => ?_⟩
  by_cases hk : k < w
  · exact hlow k hk
  · have hpow : 2 ^ w ≤ 2 ^ k := Nat.pow_le_pow_right (by omega) (Nat.not_lt.mp hk)
    rw [Nat.testBit_lt_two_pow (hx.trans_le hpow), Nat.testBit_lt_two_pow (hy.trans_le hpow)]

/-! ### What each operation is under a well-formed descriptor (10_state R31) -/

theorem exec_pcNew (hdesc : descWellFormed s.cfg.desc = true) :
    exec .pcNew s = answer s (.cell ⟨.config, s.cfg.desc.defaultLatches⟩) := by
  change execPcNew s = _
  rw [execPcNew, withDesc_wellFormed _ hdesc]

/-- The one check of PC_SET_LATCHES is that the value fits the cell's width (R168). -/
theorem exec_pcSetLatches (hdesc : descWellFormed s.cfg.desc = true) (c : Cell) (value : Nat) :
    exec (.pcSetLatches c value) s =
      if 2 ^ cellWidth s.cfg.desc c.kind ≤ value then raise s .errValueRange .none
      else answer s (.cell ⟨c.kind, value⟩) := by
  change execPcSetLatches c value s = _
  rw [execPcSetLatches, withDesc_wellFormed _ hdesc]

/-- Cells of one width are compared by their latches, whatever their kinds (R169). -/
theorem exec_pcEq_of_width_eq (hdesc : descWellFormed s.cfg.desc = true) {a b : Cell}
    (hwidth : cellWidth s.cfg.desc a.kind = cellWidth s.cfg.desc b.kind) :
    exec (.pcEq a b) s = answer s (.bool (decide (latchesOf s.cfg.desc a = latchesOf s.cfg.desc b))) := by
  change execPcEq a b s = _
  rw [execPcEq, withDesc_wellFormed _ hdesc, if_pos hwidth]

end

/-! ### The obligations -/

/-- Settles O45: cells in their types hold their operands, and such numbers are equal exactly when their bits are. -/
theorem pcEqComparesEveryBit : Obligations.PcEqComparesEveryBit := by
  intro s a b hdesc hwidth ha hb
  refine ⟨_, exec_pcEq_of_width_eq hdesc hwidth, ?_⟩
  rw [decide_eq_true_iff, latchesOf_of_lt ha, latchesOf_of_lt hb]
  exact eq_iff_testBit_of_lt ha (hwidth ▸ hb)

/-- Settles O37: PC_NEW has no check but that of the descriptor. -/
theorem pcNewAnswersTheDefaultLatches : Obligations.PcNewAnswersTheDefaultLatches :=
  fun _ hdesc => exec_pcNew hdesc

/-- Settles O44, by the two outcomes of the range check. -/
theorem setLatchesReplacesTheCell : Obligations.SetLatchesReplacesTheCell := by
  intro s c value hdesc
  rw [exec_pcSetLatches hdesc]
  refine ⟨fun hfits => ?_, fun hrange => ?_⟩
  · rw [if_neg (Nat.not_le.mpr hfits)]
    rfl
  · rw [if_pos hrange]
    rfl

end Sys2Proof.Machine
end

section
/-! PROOFS. The matrix encoder (43_matrix_encoder): where each word and bit of the RBC traversal stands, how the bits of
a SNAKE output are packed into bytes, CONFIGURE_MATRIX without a matrix. -/

namespace Sys2Proof.Machine

section
variable {s t : State} {d : Desc}

/-! ### What each operation is under a well-formed descriptor (10_state R31) -/

/-- PROG_MATRIX has no check but that of the descriptor (R180). -/
theorem exec_progMatrix (hdesc : descWellFormed s.cfg.desc = true) (m : Matrix) :
    exec (.progMatrix m) s = answer s (.matrixOut (progMatrixOut s.cfg.desc m)) := by
  change execProgMatrix m s = _
  rw [execProgMatrix, withDesc_wellFormed _ hdesc]

/-- PROG_MATRIX completes only through a well-formed descriptor, with the matrix's output as its one result. -/
theorem exec_progMatrix_next {m : Matrix} (h : exec (.progMatrix m) s = .next t) :
    t.resp = some (okResponse (.matrixOut (progMatrixOut s.cfg.desc m))) := by
  change execProgMatrix m s = _ at h
  obtain ⟨-, hanswer⟩ := withDesc_next _ h
  cases hanswer
  rfl

/-- CONFIGURE_MATRIX without a matrix stops before the first attempt (R198). -/
theorem exec_configureMatrix_none (hdesc : descWellFormed s.cfg.desc = true) (maxAttempts : Word) :
    exec (.configureMatrix none maxAttempts) s = raise s .errConfigFatal .none := by
  change execConfigureMatrix none maxAttempts s = _
  rw [execConfigureMatrix, withDesc_wellFormed _ hdesc]

/-! ### Loop nests as lists -/

/-- Where every turn of a loop puts out `n` elements, element `k` is element `k % n` of turn `k / n`. -/
theorem getElem?_flatMap_of_length_eq {α β : Type} {f : α → List β} {n : Nat} {l : List α} (hn : 0 < n)
    (hlen : ∀ a ∈ l, (f a).length = n) (k : Nat) :
    (l.flatMap f)[k]? = l[k / n]?.bind fun a => (f a)[k % n]? := by
  induction l generalizing k with
  | nil => simp
  | cons a l ih =>
    obtain ⟨ha, hl⟩ := List.forall_mem_cons.mp hlen
    rw [List.flatMap_cons]
    by_cases hk : k < n
    · rw [List.getElem?_append_left (ha ▸ hk), Nat.div_eq_of_lt hk, Nat.mod_eq_of_lt hk]
      rfl
    · have hle : n ≤ k := Nat.not_lt.mp hk
      rw [List.getElem?_append_right (ha ▸ hle), ha, ih hl, ← Nat.mod_eq_sub_mod hle,
        Nat.div_eq_sub_div hn hle, List.getElem?_cons_succ]

/-- The same for a loop over `0, ..., m - 1`. -/
theorem getElem?_flatMap_range {β : Type} {f : Nat → List β} {n m k : Nat}
    (hlen : ∀ i, (f i).length = n) (hk : k < m * n) :
    ((List.range m).flatMap f)[k]? = (f (k / n))[k % n]? := by
  have hn : 0 < n := Nat.pos_of_lt_mul_left hk
  have hturn : k / n < m := (Nat.div_lt_iff_lt_mul hn).mpr hk
  rw [getElem?_flatMap_of_length_eq hn fun i _ => hlen i, List.getElem?_range hturn]
  rfl

/-- Such a loop puts out `m * n` elements. -/
theorem length_flatMap_range {β : Type} {f : Nat → List β} {n : Nat} (hlen : ∀ i, (f i).length = n) (m : Nat) :
    ((List.range m).flatMap f).length = m * n := by
  simp [List.length_flatMap, hlen]

@[simp] theorem descending_length (n : Nat) : (descending n).length = n := by
  simp [descending]

theorem descending_getElem? {n k : Nat} (hk : k < n) : (descending n)[k]? = some (n - 1 - k) := by
  simp [descending, hk]

/-! ### The RBC traversal (R183) -/

@[simp] theorem rbcWord_length (d : Desc) (stage : Nat → Nat → Nat) (r b : Nat) :
    (rbcWord d stage r b).length = d.cols := by
  simp [rbcWord]

theorem rbcWord_getElem? (stage : Nat → Nat → Nat) (r b : Nat) {c : Nat} (hc : c < d.cols) :
    (rbcWord d stage r b)[c]? = some ((stage c r).testBit b) := by
  simp [rbcWord, hc]

@[simp] theorem rbcStage_length (d : Desc) (stage : Nat → Nat → Nat) :
    (rbcStage d stage).length = d.rows * d.l :=
  length_flatMap_range (by simp) d.rows

/-- Word `k` of a stage belongs to row `k / L` and, the bits descending, to bit `L - 1 - k % L`. -/
theorem rbcStage_getElem? (stage : Nat → Nat → Nat) {k : Nat} (hk : k < d.rows * d.l) :
    (rbcStage d stage)[k]? = some (rbcWord d stage (k / d.l) (d.l - 1 - k % d.l)) := by
  have hbit : k % d.l < d.l := Nat.mod_lt _ (Nat.pos_of_lt_mul_left hk)
  rw [rbcStage, getElem?_flatMap_range (by simp) hk, List.getElem?_map, descending_getElem? hbit]
  rfl

/-- The cells of stage 1, numbered 0, and of stage 2. -/
def stageCell (d : Desc) (m : Matrix) (st c r : Nat) : Nat :=
  if st = 0 then (pairAt d m (c, r)).1 else (pairAt d m (c, r)).2

/-- R183's outermost loop. -/
theorem rbc_eq_flatMap (d : Desc) (m : Matrix) :
    rbc d m = (List.range 2).flatMap fun st => rbcStage d (stageCell d m st) := by
  change _ = rbcStage d (stageCell d m 0) ++ (rbcStage d (stageCell d m 1) ++ [])
  rw [List.append_nil]
  rfl

theorem rbc_length (d : Desc) (m : Matrix) : (rbc d m).length = 2 * (d.rows * d.l) := by
  rw [rbc_eq_flatMap, length_flatMap_range fun st => rbcStage_length d _]

/-- The stage, the row and the bit of word `k`. -/
theorem rbc_getElem? (m : Matrix) {k : Nat} (hk : k < 2 * (d.rows * d.l)) :
    (rbc d m)[k]? = some (rbcWord d (stageCell d m (k / (d.rows * d.l))) (k % (d.rows * d.l) / d.l)
      (d.l - 1 - k % d.l)) := by
  have hword : k % (d.rows * d.l) < d.rows * d.l := Nat.mod_lt _ (Nat.pos_of_lt_mul_left hk)
  rw [rbc_eq_flatMap, getElem?_flatMap_range (fun st => rbcStage_length d _) hk, rbcStage_getElem? _ hword,
    Nat.mod_mul_left_mod]

/-- A two-stage matrix in its type is encoded under pattern RBC (10_state R38). -/
theorem progMatrixOut_paired {cells : List (Coord × (Nat × Nat))} (h : Matrix.fits d (.paired cells) = true) :
    progMatrixOut d (.paired cells) = .words (rbc d (.paired cells)) := by
  simp only [Matrix.fits, Bool.and_eq_true, decide_eq_true_eq] at h
  obtain ⟨⟨hpattern, -⟩, -⟩ := h
  simp [progMatrixOut, hpattern]

/-! ### Bits packed into bytes (R193) -/

/-- Only the SNAKE pattern answers bytes, and they are the packing of its bits. -/
theorem progMatrixOut_eq_bytes {m : Matrix} {bits : List Bool} {bytes : List Byte}
    (h : progMatrixOut d m = .bytes bits bytes) : bytes = pack8 d bits := by
  unfold progMatrixOut at h
  split at h
  · cases h
  · cases h
    rfl

theorem pack8_length (d : Desc) (bits : List Bool) : (pack8 d bits).length = (bits.length + 7) / 8 := by
  simp [pack8, byteBits]

theorem pack8_getD {bits : List Bool} {g : Nat} (hg : g < (pack8 d bits).length) :
    (pack8 d bits).getD g 0 = packByte d bits g := by
  rw [List.getD_eq_getElem _ _ hg]
  simp [pack8]

/-- The place in its byte of the bit sent `k`-th (30_encoding R88), and the `k` of the bit at a place. -/
def bytePlace (d : Desc) (k : Nat) : Nat := if d.byteMsbFirst then 7 - k else k

theorem bytePlace_lt (d : Desc) {k : Nat} (hk : k < 8) : bytePlace d k < 8 := by
  unfold bytePlace
  split
  · omega
  · exact hk

theorem bytePlace_bytePlace (d : Desc) {k : Nat} (hk : k < 8) : bytePlace d (bytePlace d k) = k := by
  unfold bytePlace
  split
  · omega
  · rfl

/-- The number with bit `f k` at each place `k` below `n`. -/
def placedBits (f : Nat → Bool) (n : Nat) : Nat := ((List.range n).map fun k => (f k).toNat * 2 ^ k).sum

theorem placedBits_succ (f : Nat → Bool) (n : Nat) :
    placedBits f (n + 1) = 2 ^ n * (f n).toNat + placedBits f n := by
  simp [placedBits, List.range_succ, Nat.add_comm, Nat.mul_comm]

theorem placedBits_lt (f : Nat → Bool) (n : Nat) : placedBits f n < 2 ^ n := by
  induction n with
  | zero => simp [placedBits]
  | succ n ih =>
    have htop : 2 ^ n * (f n).toNat ≤ 2 ^ n * 1 := Nat.mul_le_mul_left _ (Bool.toNat_le _)
    rw [placedBits_succ]
    omega

theorem placedBits_testBit (f : Nat → Bool) {n k : Nat} (hk : k < n) : (placedBits f n).testBit k = f k := by
  induction n with
  | zero => omega
  | succ n ih =>
    rw [placedBits_succ, Nat.testBit_two_pow_mul_add _ (placedBits_lt f n)]
    split
    next hlow => exact ih hlow
    next hlow =>
      obtain rfl : k = n := by omega
      rw [Nat.sub_self]
      cases f k with
      | false => rfl
      | true => rfl

/-- In either bit order the bits of a group fill the eight places of the byte. -/
theorem map_bytePlace_perm (d : Desc) : ((List.range 8).map (bytePlace d)).Perm (List.range 8) := by
  unfold bytePlace
  cases d.byteMsbFirst with
  | false => decide
  | true => decide

/-- A byte holds at each place the bit of the group that belongs there. -/
theorem packByte_eq (d : Desc) (bits : List Bool) (g : Nat) :
    packByte d bits g =
      BitVec.ofNat 8 (placedBits (fun k => bits.getD (8 * g + bytePlace d k) d.tailFill) 8) := by
  rw [packByte, placedBits, ← ((map_bytePlace_perm d).map _).sum_eq, List.map_map]
  refine congrArg (fun l : List Nat => BitVec.ofNat 8 l.sum) (List.map_congr_left fun k hk => ?_)
  rw [Function.comp_apply, bytePlace_bytePlace d (List.mem_range.mp hk)]
  rfl

/-- Bit `k` of group `g` stands at place `bytePlace d k` of byte `g`. -/
theorem packByte_getLsbD (d : Desc) (bits : List Bool) (g : Nat) {k : Nat} (hk : k < 8) :
    (packByte d bits g).getLsbD (bytePlace d k) = bits.getD (8 * g + k) d.tailFill := by
  have hplace := bytePlace_lt d hk
  rw [packByte_eq, BitVec.getLsbD_ofNat, decide_eq_true hplace, Bool.true_and, placedBits_testBit _ hplace,
    bytePlace_bytePlace d hk]

end

/-! ### The obligations -/

/-- Settles O46: the place of a word gives its stage, row and bit, and in its type the matrix holds its entries. -/
theorem rbcWordsFollowTheTraversal : Obligations.RbcWordsFollowTheTraversal := by
  intro s d cells hd hdesc hfits
  subst hd
  refine ⟨rbc s.cfg.desc (.paired cells), ?_, ?_, fun k hk => ?_⟩
  · rw [exec_progMatrix hdesc, progMatrixOut_paired hfits]
    rfl
  · rw [rbc_length, Nat.mul_assoc]
  · rw [Nat.mul_assoc] at hk
    refine ⟨_, rbc_getElem? _ hk, rbcWord_length _ _ _ _, fun c hc => ?_⟩
    rw [rbcWord_getElem? _ _ _ hc, stageCell, pairAt_paired hfits]

/-- Settles O48: bit `j` is bit `j % 8` of group `j / 8`. -/
theorem snakeBytesPackTheBits : Obligations.SnakeBytesPackTheBits := by
  intro s t m bits bytes h hresp
  have hout : progMatrixOut s.cfg.desc m = .bytes bits bytes := by
    simpa [okResponse] using (exec_progMatrix_next h).symm.trans hresp
  obtain rfl := progMatrixOut_eq_bytes hout
  refine ⟨pack8_length _ bits, fun j hj => ?_⟩
  have hbit := packByte_getLsbD s.cfg.desc bits (j / 8) (Nat.mod_lt j (by decide : 0 < 8))
  rw [pack8_getD (Nat.div_lt_of_lt_mul hj)]
  rwa [Nat.div_add_mod] at hbit

/-- Settles O53: the missing matrix is found before anything is handed out. -/
theorem missingMatrixIsConfigFatal : Obligations.MissingMatrixIsConfigFatal :=
  fun _ maxAttempts hdesc => exec_configureMatrix_none hdesc maxAttempts

end Sys2Proof.Machine
end

section
/-! PROOFS. NEXT_FIELD (44_frame_decoder): what the bit loop reads, the operation's four outcomes by the linear offset
of the position, the cursor it answers. -/

namespace Sys2Proof.Machine

section
variable {s : State} {w : Nat} {ws : List Word} {p : Position}

/-! ### Positions and linear offsets (10_state R40, 20_memory R53) -/

theorem posOff_div_wordBits (p : Position) : posOff p / 32 = p.wi := by
  simp only [posOff, wordBits]
  omega

theorem posOff_mod_wordBits (p : Position) : posOff p % 32 = 31 - p.bi.val := by
  simp only [posOff, wordBits]
  omega

theorem posOff_lt_iff (ws : List Word) (p : Position) : posOff p < 32 * ws.length ↔ p.wi < ws.length := by
  rw [← posOff_div_wordBits, Nat.div_lt_iff_lt_mul (by decide), Nat.mul_comm]

theorem streamBit_eq_bitAtOffset (ws : List Word) (p : Position) : streamBit ws p = bitAtOffset ws (posOff p) := by
  have hbi : 31 - (31 - p.bi.val) = p.bi.val := by omega
  rw [bitAtOffset, posOff_div_wordBits, posOff_mod_wordBits, hbi, streamBit]

/-- Behind the stream there are no 1 bits. -/
theorem lt_of_bitAtOffset {q : Nat} (hbit : bitAtOffset ws q = true) : q < 32 * ws.length := by
  by_contra hend
  have hword : ws.length ≤ q / 32 := by omega
  simp [bitAtOffset, hword] at hbit

/-- On a stream of fewer than `2^32` words every position up to its end is answered as it is. -/
theorem cursorOff_cursorOut_of_le (hp : posOff p ≤ 32 * ws.length) (hws : ws.length < 2 ^ 32) :
    cursorOff (cursorOut p) = posOff p := by
  refine cursorOff_cursorOut p (lt_of_le_of_lt ?_ hws)
  rw [← posOff_div_wordBits]
  omega

/-! ### The bit loop (R213) -/

theorem shiftLeft_one_or_toNat (v : Nat) (b : Bool) : v <<< 1 ||| b.toNat = Nat.bit b v := by
  rw [← Nat.shiftLeft_add_eq_or_of_lt (Bool.toNat_lt b), Nat.shiftLeft_eq, Nat.bit_val, Nat.mul_comm]

/-- The loop appends its `n` bits below those of the value so far, the first one read the most significant. -/
theorem readBits_testBit (ws : List Word) (n v : Nat) (p : Position) (k : Nat) :
    (readBits ws n v p).1.testBit k =
      if k < n then bitAtOffset ws (posOff p + (n - 1 - k)) else v.testBit (k - n) := by
  induction n generalizing v p with
  | zero => rfl
  | succ n ih =>
    rw [readBits, ih, posOff_adv, shiftLeft_one_or_toNat, streamBit_eq_bitAtOffset]
    obtain hlow | rfl | hhigh := Nat.lt_trichotomy k n
    · have hplace : posOff p + 1 + (n - 1 - k) = posOff p + (n + 1 - 1 - k) := by omega
      rw [if_pos hlow, if_pos (Nat.lt_succ_of_lt hlow), hplace]
    · simp
    · have hplace : k - n = k - (n + 1) + 1 := by omega
      rw [if_neg (by omega), if_neg (by omega), hplace, Nat.testBit_bit_succ]

/-- The value of a full field of `w` bits at a position. -/
def fullFieldValue (w : Nat) (ws : List Word) (p : Position) : Nat := (readBits ws w 0 p).1 &&& maskN w

theorem fullFieldValue_lt (w : Nat) (ws : List Word) (p : Position) : fullFieldValue w ws p < 2 ^ w :=
  Nat.and_lt_two_pow _ (Nat.sub_lt (Nat.two_pow_pos w) Nat.one_pos)

/-- Bit `j` of a full field, counted from its most significant, stands `j` bits behind the field's start. -/
theorem fullFieldValue_testBit {j : Nat} (ws : List Word) (p : Position) (hj : j < w) :
    (fullFieldValue w ws p).testBit (w - 1 - j) = bitAtOffset ws (posOff p + j) := by
  have hk : w - 1 - j < w := by omega
  have hback : w - 1 - (w - 1 - j) = j := by omega
  rw [fullFieldValue, Nat.testBit_and, maskN_testBit, decide_eq_true hk, Bool.and_true, readBits_testBit, if_pos hk,
    hback]

/-! ### The four outcomes (R211 to R214) -/

theorem nextFieldAt_of_le (w : Nat) (hend : ws.length ≤ p.wi) : nextFieldAt w ws p = .eos p :=
  if_pos hend

theorem nextFieldAt_of_zero (w : Nat) (hin : p.wi < ws.length) (hbit : bitAtOffset ws (posOff p) = false) :
    nextFieldAt w ws p = .field 0 (posAdv p) := by
  rw [nextFieldAt, if_neg (Nat.not_le.mpr hin), streamBit_eq_bitAtOffset, if_pos hbit]

/-- On a 1 bit the bits left decide, which the offset counts down. -/
theorem nextFieldAt_of_one (w : Nat) (hbit : bitAtOffset ws (posOff p) = true) :
    nextFieldAt w ws p =
      if 32 * ws.length < posOff p + w then .truncated
      else .field (fullFieldValue w ws p) (readBits ws w 0 p).2 := by
  have hin : p.wi < ws.length := (posOff_lt_iff ws p).mp (lt_of_bitAtOffset hbit)
  have hleft : bitsLeft ws p < w ↔ 32 * ws.length < posOff p + w := by
    have hsum := bitsLeft_add_posOff ws p hin
    omega
  rw [nextFieldAt, if_neg (Nat.not_le.mpr hin), streamBit_eq_bitAtOffset, hbit, if_neg (by decide)]
  exact if_congr hleft rfl rfl

theorem nextFieldAt_of_short (hbit : bitAtOffset ws (posOff p) = true) (hshort : 32 * ws.length < posOff p + w) :
    nextFieldAt w ws p = .truncated := by
  rw [nextFieldAt_of_one w hbit, if_pos hshort]

theorem nextFieldAt_of_full (hbit : bitAtOffset ws (posOff p) = true) (hroom : posOff p + w ≤ 32 * ws.length) :
    nextFieldAt w ws p = .field (fullFieldValue w ws p) (readBits ws w 0 p).2 := by
  rw [nextFieldAt_of_one w hbit, if_neg (Nat.not_lt.mpr hroom)]

/-- The response NEXT_FIELD gives to each outcome (R210). -/
def fieldResponse : FieldResult → Response
  | .eos p => eosResponse (.field 0 (cursorOut p))
  | .field v p => okResponse (.field v (cursorOut p))
  | .truncated => errorResponse .errTruncated .none

theorem exec_nextField (hdesc : descWellFormed s.cfg.desc = true) (ws : List Word) (c : Cursor) :
    exec (.nextField ws c) s =
      .next (s.respond (fieldResponse (nextFieldAt s.cfg.desc.w ws (cursorIn c)))) := by
  change execNextField ws c s = _
  rw [execNextField, withDesc_wellFormed _ hdesc]
  cases nextFieldAt s.cfg.desc.w ws (cursorIn c) with
  | eos p => rfl
  | field v p => rfl
  | truncated => rfl

end

/-! ### The obligations -/

/-- Settles O54: the first three outcomes, the position behind a 0 bit being one bit further. -/
theorem nextFieldEndsSuppressesAndTruncates : Obligations.NextFieldEndsSuppressesAndTruncates := by
  intro s ws c hdesc
  rw [exec_nextField hdesc]
  refine ⟨fun hend => ?_, fun hin hzero => ?_, fun _ hone hshort => ?_⟩
  · rw [nextFieldAt_of_le _ hend, fieldResponse, cursorOut_cursorIn]
    rfl
  · have hstart : cursorOff c < 32 * ws.length := (posOff_lt_iff ws (cursorIn c)).mpr hin
    have hmove : posOff (posAdv (cursorIn c)) = cursorOff c + 1 := posOff_adv (cursorIn c)
    rw [nextFieldAt_of_zero _ hin hzero]
    exact ⟨_, rfl, fun hws => (cursorOff_cursorOut_of_le (hmove ▸ hstart) hws).trans hmove⟩
  · rw [nextFieldAt_of_short hone hshort]
    rfl

/-- Settles O55: the fourth outcome, its value read off the bit loop. -/
theorem nextFieldReadsFullFields : Obligations.NextFieldReadsFullFields := by
  intro s ws c hdesc hone hroom
  have hmove : posOff (readBits ws s.cfg.desc.w 0 (cursorIn c)).2 = cursorOff c + s.cfg.desc.w :=
    readBits_posOff ws s.cfg.desc.w 0 (cursorIn c)
  rw [exec_nextField hdesc, nextFieldAt_of_full hone hroom]
  exact ⟨_, _, rfl, fun hws => (cursorOff_cursorOut_of_le (hmove ▸ hroom) hws).trans hmove, fullFieldValue_lt _ _ _,
    fun j hj => fullFieldValue_testBit ws (cursorIn c) hj⟩

end Sys2Proof.Machine
end

section
/-! PROOFS. The request framing (30_encoding R71; log 1): each reader undoes its writer, so the decoder undoes the
encoder; and what a step does with what the decoder finds in the port. -/

namespace Sys2Proof

/-! ### Readers that undo writers -/

/-- The reader gives back what the writer wrote and leaves the bytes behind it. -/
def Undoes {α : Type} (r : Reader α) (f : α → List Byte) : Prop := ∀ a rest, r (f a ++ rest) = .ok (a, rest)

/-- A reader that undoes a writer hands the value written to what follows. -/
theorem Undoes.readThen {α β : Type} {r : Reader α} {f : α → List Byte} (h : Undoes r f) (k : α → Reader β) (a : α)
    (rest : List Byte) : readThen r k (f a ++ rest) = k a rest :=
  readThen_ok (h a rest)

theorem readWord_undoes : Undoes readWord wordBytes := readWord_wordBytes

/-- With fuel for all its digits a number is read back digit by digit. -/
theorem readNat_natBytesFuel {fuel n : Nat} (hn : n ≤ fuel) (rest : List Byte) :
    readNat (natBytesFuel fuel n ++ rest) = .ok (n, rest) := by
  induction fuel generalizing n with
  | zero =>
    obtain rfl : n = 0 := by omega
    rfl
  | succ fuel ih =>
    rw [natBytesFuel]
    split
    next hlast =>
      have hbyte : (BitVec.ofNat 8 n).toNat = n := by simp; omega
      rw [List.singleton_append, readNat, hbyte, if_pos hlast]
    next hmore =>
      have hbyte : (BitVec.ofNat 8 (128 + n % 128)).toNat = 128 + n % 128 := by simp; omega
      have hsum : 128 + n % 128 - 128 + 128 * (n / 128) = n := by omega
      rw [List.cons_append, readNat, hbyte, if_neg (by omega), ih (by omega)]
      simp only [hsum]

theorem readNat_undoes : Undoes readNat natBytes := fun _ rest => readNat_natBytesFuel le_rfl rest

theorem readSeq_undoes {α : Type} {r : Reader α} {f : α → List Byte} (h : Undoes r f) :
    Undoes (readSeq r) (seqBytes f) := by
  intro as rest
  rw [readSeq, seqBytes, List.append_assoc, readNat_undoes.readThen]
  exact readCount_flatMap h as rest

theorem readString_undoes : Undoes readString stringBytes := readSeq_undoes fun _ _ => rfl

theorem readWords_undoes : Undoes readWords wordsBytes := readSeq_undoes readWord_undoes

theorem readBool_undoes : Undoes readBool boolBytes := by
  intro b rest
  cases b with
  | false => rfl
  | true => rfl

theorem readDir_undoes : Undoes readDir dirBytes := by
  intro d rest
  have hbyte : (d.setWidth 8).toNat = d.toNat := by simp; omega
  rw [dirBytes, List.singleton_append, readDir, readThen_ok (readByte_cons _ _), hbyte, if_pos d.isLt,
    BitVec.ofNat_toNat, BitVec.setWidth_eq, readPure_eq]

theorem readCell_undoes : Undoes readCell cellBytes := by
  rintro ⟨kind, v⟩ rest
  cases kind with
  | config => exact readNat_undoes.readThen (fun v => readPure (Cell.mk .config v)) v rest
  | decoded => exact readNat_undoes.readThen (fun v => readPure (Cell.mk .decoded v)) v rest

theorem readSingle_undoes : Undoes readSingle singleBytes := by
  rintro ⟨⟨c, r⟩, v⟩ rest
  simp only [readSingle, singleBytes, List.append_assoc, readNat_undoes.readThen, readPure_eq]

theorem readPair_undoes : Undoes readPair pairBytes := by
  rintro ⟨⟨c, r⟩, v1, v2⟩ rest
  simp only [readPair, pairBytes, List.append_assoc, readNat_undoes.readThen, readPure_eq]

theorem readMatrix_undoes : Undoes readMatrix matrixBytes := by
  intro m rest
  cases m with
  | single cells => exact (readSeq_undoes readSingle_undoes).readThen (fun cs => readPure (Matrix.single cs)) cells rest
  | paired cells => exact (readSeq_undoes readPair_undoes).readThen (fun cs => readPure (Matrix.paired cs)) cells rest

theorem readOptMatrix_undoes : Undoes readOptMatrix optMatrixBytes := by
  intro m rest
  cases m with
  | none => rfl
  | some m =>
    rw [readOptMatrix, optMatrixBytes, List.append_assoc, readBool_undoes.readThen]
    exact readMatrix_undoes.readThen (fun m => readPure (some m)) m rest

theorem readCursor_undoes : Undoes readCursor cursorBytes := by
  rintro ⟨wi, bi⟩ rest
  have hbyte : (BitVec.ofNat 8 bi.val).toNat = bi.val := by simp; omega
  rw [readCursor, cursorBytes, List.append_assoc, readWord_undoes.readThen, List.singleton_append,
    readThen_ok (readByte_cons _ _), dif_pos (hbyte.trans_lt bi.isLt), readPure_eq]
  simp only [hbyte]

/-! ### Whole requests -/

/-- The readers of an opcode's operands undo the writers of that operation's operands (30_encoding R73). -/
theorem operandsOf_undoes (i : Instr) (rest : List Byte) :
    ∃ r, operandsOf i.opcode = some r ∧ r (i.operandBytes ++ rest) = .ok (i, rest) := by
  cases i <;>
    exact ⟨_, rfl, by simp only [Instr.operandBytes, List.append_assoc, List.nil_append, readPure_eq,
      readWord_undoes.readThen, readNat_undoes.readThen, readString_undoes.readThen, readWords_undoes.readThen,
      readBool_undoes.readThen, readDir_undoes.readThen, readCell_undoes.readThen, readMatrix_undoes.readThen,
      readOptMatrix_undoes.readThen, readCursor_undoes.readThen]⟩

/-- Settles O1: the opcode byte selects the readers that undo the operands' writers. -/
theorem decodeInvertsEncode : Obligations.DecodeInvertsEncode := by
  intro i rest
  obtain ⟨r, hr, hread⟩ := operandsOf_undoes i rest
  rw [encode, List.cons_append, decode, hr]
  simp only [hread]

/-- Settles O2, by reading each of the five requests. -/
theorem handWrittenRequestsDecode : Obligations.HandWrittenRequestsDecode :=
  ⟨by decide, by decide, by decide, by decide, by decide⟩

/-- An opcode outside 30_encoding R73 has no operands' readers (R87 a). -/
theorem operandsOf_eq_none {b : Byte}
    (hb : b.toNat ∉ [0x10, 0x11, 0x12, 0x13, 0x14, 0x15, 0x16, 0x17, 0x18, 0x19, 0x1A, 0x1B, 0x1C, 0x1D, 0x1E,
      0x20, 0x21, 0x22, 0x23, 0x24, 0x25, 0x26, 0x27, 0x28, 0x30, 0x31, 0x40, 0x41, 0x42]) :
    operandsOf b = none := by
  unfold operandsOf
  split <;> simp_all

end Sys2Proof

namespace Sys2Proof.Machine

/-! ### Steps -/

section
variable {s : State}

theorem step_of_reset (hr : s.resetLine = true) : step s = .next s.applyReset := if_pos hr

theorem step_of_waiting (hr : s.resetLine = false) (hf : fetch s = .waiting) : step s = .next s := by
  simp [step, hr, hf]

theorem step_of_illegal {s' : State} (hr : s.resetLine = false) (hf : fetch s = .illegal s') :
    step s = illegalOp s' := by
  simp [step, hr, hf]

end

/-- Settles O3: a request the decoder finds is fetched with its bytes taken. -/
theorem stepRunsTheDecodedRequest : Obligations.StepRunsTheDecodedRequest :=
  fun s i rest hr hdecode => step_run i rest hr (by rw [fetch, hdecode])

/-- Settles O5: an opcode without operands' readers is fetched as illegal, with its byte taken. -/
theorem unassignedOpcodeAnswersIllegalOp : Obligations.UnassignedOpcodeAnswersIllegalOp := by
  intro s b bs hr hport hb
  have hfetch : fetch s = .illegal (s.takeRequest bs) := by
    rw [fetch, hport, decode, operandsOf_eq_none hb]
  rw [step_of_illegal hr hfetch]
  rfl

/-- Settles O6: the empty port is fetched as waiting. -/
theorem nothingRequestedWaits : Obligations.NothingRequestedWaits := by
  intro s hr hport
  have hfetch : fetch s = .waiting := by rw [fetch, hport, decode]
  exact step_of_waiting hr hfetch

/-- Settles O7: the reset line is looked at before the port. -/
theorem resetEmptiesTheRegistry : Obligations.ResetEmptiesTheRegistry := fun _ hr => step_of_reset hr

/-- Settles O8: without entries and without a response the invariant asks nothing. -/
theorem resetStateSatisfiesInvariant : Obligations.ResetStateSatisfiesInvariant := by
  refine ⟨rfl, ⟨?_, List.nodup_nil⟩, ?_⟩
  · intro e he
    cases he
  · intro r hr
    cases hr

end Sys2Proof.Machine
end

section
/-! PROOFS. SPLIT_FRAME (44_frame_decoder R226, R227): the fields a stream holds from a position on, that NEXT_FIELD reads
exactly these, and the three ways in which the loop over them ends. -/

namespace Sys2Proof.Machine

section
variable {s t : State} {d : Desc} {w : Nat} {ws : List Word} {p p' q : Position} {fs gs : List Nat}

/-! ### The bits a stream holds (20_memory R53) -/

/-- From offset `o` on, the stream holds these bits. -/
def HoldsAt (ws : List Word) (o : Nat) (bits : List Bool) : Prop :=
  o + bits.length ≤ 32 * ws.length ∧ ∀ j, j < bits.length → bits[j]? = some (bitAtOffset ws (o + j))

theorem holdsAt_zero {bits : List Bool} : HoldsAt ws 0 bits ↔ StreamBegins ws bits := by
  simp [HoldsAt, StreamBegins]

theorem holdsAt_nil {o : Nat} : HoldsAt ws o [] ↔ o ≤ 32 * ws.length := by
  simp [HoldsAt]

theorem holdsAt_append {o : Nat} {a b : List Bool} :
    HoldsAt ws o (a ++ b) ↔ HoldsAt ws o a ∧ HoldsAt ws (o + a.length) b := by
  simp only [HoldsAt, List.length_append]
  constructor
  · rintro ⟨hroom, hbits⟩
    refine ⟨⟨by omega, fun j hj => ?_⟩, by omega, fun j hj => ?_⟩
    · rw [← hbits j (by omega), List.getElem?_append_left hj]
    · rw [Nat.add_assoc, ← hbits (a.length + j) (by omega), List.getElem?_append_right (by omega),
        Nat.add_sub_cancel_left]
  · rintro ⟨⟨-, ha⟩, hroom, hb⟩
    refine ⟨by omega, fun j hj => ?_⟩
    by_cases hja : j < a.length
    · rw [List.getElem?_append_left hja, ha j hja]
    · have hplace : o + a.length + (j - a.length) = o + j := by omega
      rw [List.getElem?_append_right (by omega), hb _ (by omega), hplace]

/-! ### One field (30_encoding R81, R82) -/

theorem fieldBits_zero (w : Nat) : fieldBits w 0 = [false] := if_pos rfl

theorem fieldBits_of_ne_zero {v : Nat} (w : Nat) (hv : v ≠ 0) :
    fieldBits w v = (List.range w).map fun j => v.testBit (w - 1 - j) := if_neg hv

/-- The values of full fields are those with their top bit set. -/
theorem testBit_top_iff {v : Nat} (hw : 1 ≤ w) (hv : v < 2 ^ w) : v.testBit (w - 1) = true ↔ 2 ^ (w - 1) ≤ v := by
  refine ⟨Nat.ge_two_pow_of_testBit, fun hle => Nat.testBit_of_two_pow_le_and_two_pow_add_one_gt hle ?_⟩
  rwa [Nat.sub_add_cancel hw]

/-- A stream holds the bits of a full field exactly when the field read there has that value. -/
theorem holdsAt_fullField {v : Nat} (hne : v ≠ 0) (hv : v < 2 ^ w) :
    HoldsAt ws (posOff p) (fieldBits w v) ↔ posOff p + w ≤ 32 * ws.length ∧ fullFieldValue w ws p = v := by
  rw [fieldBits_of_ne_zero w hne, HoldsAt]
  simp only [List.length_map, List.length_range]
  refine and_congr_right fun _ => ⟨fun hbits => ?_, fun heq j hj => ?_⟩
  · refine (eq_iff_testBit_of_lt (fullFieldValue_lt w ws p) hv).mpr fun k hk => ?_
    have hj : w - 1 - k < w := by omega
    have hback : w - 1 - (w - 1 - k) = k := by omega
    have hbit := hbits _ hj
    rw [← fullFieldValue_testBit ws p hj] at hbit
    simpa [hj, hback, eq_comm] using hbit
  · rw [← fullFieldValue_testBit ws p hj, heq]
    simp [hj]

/-- Where the stream holds the encoding of a value, NEXT_FIELD answers the value and moves behind it. -/
theorem nextFieldAt_of_holdsAt {v : Nat} (hw : 1 ≤ w) (hv : FieldValueOk w v)
    (h : HoldsAt ws (posOff p) (fieldBits w v)) :
    ∃ p', nextFieldAt w ws p = .field v p' ∧ posOff p' = posOff p + (fieldBits w v).length := by
  obtain rfl | ⟨htop, hlt⟩ := hv
  · rw [fieldBits_zero] at h ⊢
    obtain ⟨hroom, hbits⟩ := h
    have hbit : bitAtOffset ws (posOff p) = false := by simpa using hbits 0 (by simp)
    have hin : p.wi < ws.length := (posOff_lt_iff ws p).mp (by simpa using hroom)
    exact ⟨_, nextFieldAt_of_zero w hin hbit, posOff_adv p⟩
  · have hne : v ≠ 0 := by
      have := Nat.two_pow_pos (w - 1)
      omega
    obtain ⟨hroom, hval⟩ := (holdsAt_fullField hne hlt).mp h
    have hbit : bitAtOffset ws (posOff p) = true := by
      have hfirst := fullFieldValue_testBit ws p hw
      rwa [Nat.sub_zero, hval, (testBit_top_iff hw hlt).mpr htop, Nat.add_zero, eq_comm] at hfirst
    refine ⟨_, hval ▸ nextFieldAt_of_full hbit hroom, ?_⟩
    rw [readBits_posOff, fieldBits_of_ne_zero w hne]
    simp

/-- What NEXT_FIELD answers as a field is a value whose encoding the stream holds there, and it moves behind it. -/
theorem holdsAt_of_nextFieldAt {v : Nat} (hw : 1 ≤ w) (h : nextFieldAt w ws p = .field v p') :
    FieldValueOk w v ∧ HoldsAt ws (posOff p) (fieldBits w v) ∧
      posOff p' = posOff p + (fieldBits w v).length := by
  obtain ⟨-, heq⟩ | ⟨hin, hbit, heq⟩ | ⟨-, -, -, heq⟩ | ⟨hin, hbit, hleft, heq⟩ := nextFieldAt_cases w ws p
  · cases heq.symm.trans h
  · cases heq.symm.trans h
    have hroom := (posOff_lt_iff ws p).mpr hin
    rw [streamBit_eq_bitAtOffset] at hbit
    rw [fieldBits_zero]
    refine ⟨.inl rfl, ⟨hroom, fun j hj => ?_⟩, posOff_adv p⟩
    obtain rfl : j = 0 := by simpa using hj
    simp [hbit]
  · cases heq.symm.trans h
  · cases heq.symm.trans h
    rw [streamBit_eq_bitAtOffset] at hbit
    have hroom : posOff p + w ≤ 32 * ws.length := by
      have hsum := bitsLeft_add_posOff ws p hin
      omega
    have hlt : fullFieldValue w ws p < 2 ^ w := fullFieldValue_lt w ws p
    have htop : 2 ^ (w - 1) ≤ fullFieldValue w ws p := by
      have hfirst := fullFieldValue_testBit ws p hw
      rw [Nat.sub_zero, Nat.add_zero, hbit] at hfirst
      exact (testBit_top_iff hw hlt).mp hfirst
    have hne : fullFieldValue w ws p ≠ 0 := by
      have := Nat.two_pow_pos (w - 1)
      omega
    refine ⟨.inr ⟨htop, hlt⟩, (holdsAt_fullField hne hlt).mpr ⟨hroom, rfl⟩, ?_⟩
    change posOff _ = posOff p + (fieldBits w (fullFieldValue w ws p)).length
    rw [readBits_posOff, fieldBits_of_ne_zero w hne]
    simp

theorem nextFieldAt_eos (h : nextFieldAt w ws p = .eos p') : p' = p ∧ ws.length ≤ p.wi := by
  obtain ⟨hend, heq⟩ | ⟨-, -, heq⟩ | ⟨-, -, -, heq⟩ | ⟨-, -, -, heq⟩ := nextFieldAt_cases w ws p
  · cases heq.symm.trans h
    exact ⟨rfl, hend⟩
  all_goals cases heq.symm.trans h

/-- A field is truncated exactly where the statements say so (R214). -/
theorem nextFieldAt_truncated_iff : nextFieldAt w ws p = .truncated ↔ TruncatedFieldAt w ws (posOff p) := by
  refine ⟨fun h => ?_, fun ⟨hbit, hshort⟩ => nextFieldAt_of_short hbit hshort⟩
  obtain ⟨-, heq⟩ | ⟨-, -, heq⟩ | ⟨hin, hbit, hleft, -⟩ | ⟨-, -, -, heq⟩ := nextFieldAt_cases w ws p
  · cases heq.symm.trans h
  · cases heq.symm.trans h
  · have hsum := bitsLeft_add_posOff ws p hin
    exact ⟨streamBit_eq_bitAtOffset ws p ▸ hbit, by omega⟩
  · cases heq.symm.trans h

/-! ### Several fields -/

/-- From position `p` on, NEXT_FIELD answers these fields one after the other and then stands at the last position. -/
inductive Reads (w : Nat) (ws : List Word) : Position → List Nat → Position → Prop where
  | nil (p : Position) : Reads w ws p [] p
  | cons {p p₁ p' : Position} {v : Nat} {vs : List Nat} (hfield : nextFieldAt w ws p = .field v p₁)
      (hrest : Reads w ws p₁ vs p') : Reads w ws p (v :: vs) p'

/-- No field can be read at this position: the stream ends there or truncates a full field. -/
def NoField (w : Nat) (ws : List Word) (p : Position) : Prop := ∀ v p', nextFieldAt w ws p ≠ .field v p'

theorem reads_nil : Reads w ws p [] p' ↔ p = p' :=
  ⟨fun h => by cases h; rfl, fun h => h ▸ .nil p⟩

theorem reads_cons {v : Nat} :
    Reads w ws p (v :: fs) p' ↔ ∃ p₁, nextFieldAt w ws p = .field v p₁ ∧ Reads w ws p₁ fs p' := by
  constructor
  · intro h
    cases h with
    | cons hfield hrest => exact ⟨_, hfield, hrest⟩
  · rintro ⟨p₁, hfield, hrest⟩
    exact .cons hfield hrest

theorem reads_append : Reads w ws p (fs ++ gs) p' ↔ ∃ q, Reads w ws p fs q ∧ Reads w ws q gs p' := by
  induction fs generalizing p with
  | nil => simp [reads_nil]
  | cons v fs ih =>
    simp only [List.cons_append, reads_cons, ih]
    constructor
    · rintro ⟨p₁, hfield, q, hfs, hgs⟩
      exact ⟨q, ⟨p₁, hfield, hfs⟩, hgs⟩
    · rintro ⟨q, ⟨p₁, hfield, hfs⟩, hgs⟩
      exact ⟨p₁, hfield, q, hfs, hgs⟩

/-- A stream that holds the encoding of the fields has them read. -/
theorem reads_of_holdsAt (hw : 1 ≤ w) (hfs : ∀ v ∈ fs, FieldValueOk w v)
    (h : HoldsAt ws (posOff p) (fs.flatMap (fieldBits w))) :
    ∃ p', Reads w ws p fs p' ∧ posOff p' = posOff p + (fs.flatMap (fieldBits w)).length := by
  induction fs generalizing p with
  | nil => exact ⟨p, .nil p, rfl⟩
  | cons v fs ih =>
    obtain ⟨hv, hfs⟩ := List.forall_mem_cons.mp hfs
    rw [List.flatMap_cons] at h ⊢
    obtain ⟨hfirst, hrest⟩ := holdsAt_append.mp h
    obtain ⟨p₁, hfield, hoff₁⟩ := nextFieldAt_of_holdsAt hw hv hfirst
    rw [← hoff₁] at hrest
    obtain ⟨p', hreads, hoff⟩ := ih hfs hrest
    exact ⟨p', .cons hfield hreads, by rw [hoff, hoff₁, List.length_append, Nat.add_assoc]⟩

/-- The fields read are values whose encoding the stream holds. -/
theorem Reads.holdsAt (hw : 1 ≤ w) (hin : posOff p ≤ 32 * ws.length) (h : Reads w ws p fs p') :
    (∀ v ∈ fs, FieldValueOk w v) ∧ HoldsAt ws (posOff p) (fs.flatMap (fieldBits w)) ∧
      posOff p' = posOff p + (fs.flatMap (fieldBits w)).length := by
  induction h with
  | nil p => exact ⟨by simp, holdsAt_nil.mpr hin, rfl⟩
  | cons hfield _ ih =>
    obtain ⟨hv, hfirst, hoff₁⟩ := holdsAt_of_nextFieldAt hw hfield
    obtain ⟨hvs, hrest, hoff⟩ := ih (hoff₁ ▸ hfirst.1)
    rw [List.flatMap_cons]
    exact ⟨List.forall_mem_cons.mpr ⟨hv, hvs⟩, holdsAt_append.mpr ⟨hfirst, hoff₁ ▸ hrest⟩,
      by rw [hoff, hoff₁, List.length_append, Nat.add_assoc]⟩

/-- From every position up to `n` fields can be read, fewer only where no further field can be read. -/
theorem exists_reads (w : Nat) (ws : List Word) (n : Nat) (p : Position) :
    ∃ fs p', Reads w ws p fs p' ∧ fs.length ≤ n ∧ (fs.length < n → NoField w ws p') := by
  induction n generalizing p with
  | zero => exact ⟨[], p, .nil p, le_rfl, fun h => absurd h (Nat.lt_irrefl 0)⟩
  | succ n ih =>
    by_cases hfield : ∃ v p₁, nextFieldAt w ws p = .field v p₁
    · obtain ⟨v, p₁, hfield⟩ := hfield
      obtain ⟨fs, p', hreads, hlen, hlast⟩ := ih p₁
      exact ⟨v :: fs, p', .cons hfield hreads, Nat.succ_le_succ hlen, fun h => hlast (Nat.lt_of_succ_lt_succ h)⟩
    · exact ⟨[], p, .nil p, Nat.zero_le _, fun _ v p₁ h => hfield ⟨v, p₁, h⟩⟩

/-! ### The loop (R226, R227) -/

/-- The loop takes over the fields read. -/
theorem splitLoop_of_reads (h : Reads d.w ws p fs p') (n : Nat) (out : List Nat) (eos : Bool) :
    splitLoop d ws (fs.length + n) out eos p = splitLoop d ws n (out ++ fs) eos p' := by
  induction h generalizing out with
  | nil p => simp
  | cons hfield _ ih =>
    rw [List.length_cons, Nat.succ_add, splitLoop]
    simp only [hfield]
    rw [ih, List.append_assoc, List.singleton_append]

/-- Past the end every further field is answered as 0. -/
theorem splitLoop_of_le (hend : ws.length ≤ p.wi) (n : Nat) (out : List Nat) (eos : Bool) :
    splitLoop d ws (n + 1) out eos p = eosResponse (.fields (out ++ List.replicate (n + 1) 0) (cursorOut p)) := by
  induction n generalizing out eos with
  | zero =>
    rw [splitLoop, nextFieldAt_of_le _ hend]
    rfl
  | succ n ih =>
    rw [splitLoop, nextFieldAt_of_le _ hend]
    simp only [ih]
    rw [List.append_assoc, List.singleton_append, ← List.replicate_succ]

/-- The three ways the loop for `n` fields ends: with all of them, past the stream's end, or before a truncated
field. -/
theorem splitLoop_cases (d : Desc) (ws : List Word) (n : Nat) (p : Position) :
    ∃ fs p', Reads d.w ws p fs p' ∧
      ((fs.length = n ∧ splitLoop d ws n [] false p = okResponse (.fields fs (cursorOut p'))) ∨
        (fs.length < n ∧ ws.length ≤ p'.wi ∧ splitLoop d ws n [] false p =
          eosResponse (.fields (fs ++ List.replicate (n - fs.length) 0) (cursorOut p'))) ∨
        (fs.length < n ∧ nextFieldAt d.w ws p' = .truncated ∧
          splitLoop d ws n [] false p = errorResponse .errTruncated (.fieldsSoFar fs))) := by
  obtain ⟨fs, p', hreads, hle, hlast⟩ := exists_reads d.w ws n p
  obtain ⟨m, rfl⟩ := Nat.exists_eq_add_of_le hle
  refine ⟨fs, p', hreads, ?_⟩
  rw [splitLoop_of_reads hreads, List.nil_append, Nat.add_sub_cancel_left]
  cases m with
  | zero => exact .inl ⟨rfl, rfl⟩
  | succ m =>
    have hlt : fs.length < fs.length + (m + 1) := by omega
    cases hfield : nextFieldAt d.w ws p' with
    | eos q =>
      have hend := (nextFieldAt_eos hfield).2
      exact .inr (.inl ⟨hlt, hend, splitLoop_of_le hend m fs false⟩)
    | field v q => exact absurd hfield (hlast hlt v q)
    | truncated => exact .inr (.inr ⟨hlt, rfl, by rw [splitLoop, hfield]⟩)

/-- SPLIT_FRAME has no check but that of the descriptor: it answers what the loop for `NF` fields ends with. -/
theorem exec_splitFrame (hdesc : descWellFormed s.cfg.desc = true) {r : Response}
    (hloop : splitLoop s.cfg.desc ws (frameFieldCount s.cfg.desc) [] false posStart = r) :
    exec (.splitFrame ws) s = .next { s with resp := some r } := by
  change execSplitFrame ws s = _
  rw [execSplitFrame, withDesc_wellFormed _ hdesc, hloop]
  rfl

theorem posOff_posStart : posOff posStart = 0 := rfl

end

/-! ### The obligations -/

/-- Settles O56: the fields whose encoding the stream holds are read, and the loop takes them over. -/
theorem splitFrameReadsEncodedFields : Obligations.SplitFrameReadsEncodedFields := by
  intro s ws fs hdesc hlen hfs hbegins
  obtain ⟨hw, -⟩ := descWellFormed_decoder hdesc
  have hholds := holdsAt_zero.mpr hbegins
  obtain ⟨p', hreads, hoff⟩ := reads_of_holdsAt (p := posStart) hw hfs hholds
  rw [posOff_posStart, Nat.zero_add] at hoff
  have hloop : splitLoop s.cfg.desc ws (frameFieldCount s.cfg.desc) [] false posStart =
      okResponse (.fields fs (cursorOut p')) := by
    rw [frameFieldCount, ← hlen]
    exact splitLoop_of_reads hreads 0 [] false
  have hroom : posOff p' ≤ 32 * ws.length := by
    rw [hoff]
    exact hbegins.1
  exact ⟨cursorOut p', exec_splitFrame hdesc hloop, fun hws => (cursorOff_cursorOut_of_le hroom hws).trans hoff⟩

/-- Settles O57: each way the loop ends says what the stream holds behind the fields read. -/
theorem splitFrameAlwaysAnswers : Obligations.SplitFrameAlwaysAnswers := by
  intro s d ws hd hdesc nf
  subst hd
  refine ⟨?_, ?_⟩
  · obtain ⟨hw, -⟩ := descWellFormed_decoder hdesc
    obtain ⟨fs, p', hreads, hloop⟩ := splitLoop_cases s.cfg.desc ws nf posStart
    obtain ⟨hfs, hholds, hoff⟩ := hreads.holdsAt hw (Nat.zero_le _)
    rw [posOff_posStart, Nat.zero_add] at hoff
    have hbegins := holdsAt_zero.mp hholds
    have hroom : posOff p' ≤ 32 * ws.length := by
      rw [hoff]
      exact hbegins.1
    refine ⟨fs, cursorOut p', hfs, hbegins, ?_, fun hws => (cursorOff_cursorOut_of_le hroom hws).trans hoff⟩
    obtain ⟨hlen, heq⟩ | ⟨hlen, hend, heq⟩ | ⟨hlen, htrunc, heq⟩ := hloop
    · exact .inl ⟨hlen, exec_splitFrame hdesc heq⟩
    · have hlast : 32 * ws.length ≤ posOff p' := Nat.not_lt.mp (mt (posOff_lt_iff ws p').mp (Nat.not_lt.mpr hend))
      exact .inr (.inl ⟨hlen, by omega, exec_splitFrame hdesc heq⟩)
    · exact .inr (.inr ⟨hlen, hoff ▸ nextFieldAt_truncated_iff.mp htrunc, exec_splitFrame hdesc heq⟩)
  · have hnf : nf = s.cfg.desc.cols * (1 + s.cfg.desc.rows) + 1 + 1 := by omega
    have hstart : cursorOut posStart = ⟨0, 31⟩ := cursorOut_cursorIn ⟨0, 31⟩
    refine exec_splitFrame hdesc ?_
    change splitLoop s.cfg.desc [] nf [] false posStart = _
    rw [hnf, splitLoop_of_le (Nat.zero_le _), hstart]
    rfl

end Sys2Proof.Machine
end

section
/-! PROOFS. DECODE_FRAME (44_frame_decoder R217 to R225), over the fields SPLIT_FRAME reads: a column at a time, the first
check that fails, the stream that ends too early. -/

namespace Sys2Proof.Machine

section
variable {s t : State} {d : Desc} {ws : List Word} {p p' q : Position} {fs : List Nat} {col : Nat}
  {header : Nat → Nat} {pixel : Nat → Nat → Nat}

/-! ### One field and one header (R217, R220, R221) -/

theorem frameField_of_field {v : Nat} (h : nextFieldAt d.w ws p = .field v p') : frameField d ws p = .ok (v, p') := by
  rw [frameField, h]

theorem frameField_of_noField (h : NoField d.w ws p) : frameField d ws p = .error (.errTruncated, .none) := by
  obtain ⟨v, p', hfield, -⟩ | ⟨-, herr⟩ := frameField_cases d ws p
  · exact absurd hfield (h v p')
  · exact herr

theorem frameField_ok {v : Nat} (h : frameField d ws p = .ok (v, p')) : nextFieldAt d.w ws p = .field v p' := by
  obtain ⟨v, p', hfield, hok⟩ | ⟨-, herr⟩ := frameField_cases d ws p
  · cases hok.symm.trans h
    exact hfield
  · cases herr.symm.trans h

theorem headerCheck_of_ok {h : Nat} (hok : HeaderOk d col h) : headerCheck d col h = .ok () := by
  obtain ⟨hpat, hidx⟩ := hok
  rw [headerCheck, if_neg (not_not.mpr hpat), if_neg (not_not.mpr hidx)]

theorem headerCheck_of_pattern {h : Nat} (hpat : h &&& d.colHdrMask ≠ d.colHdrPattern) :
    headerCheck d col h = .error (.errColumnHeader, .columnObserved col h) := if_pos hpat

theorem headerCheck_of_index {h : Nat} (hpat : h &&& d.colHdrMask = d.colHdrPattern)
    (hidx : (h &&& d.colIdxMask) >>> d.colIdxShift ≠ col) :
    headerCheck d col h = .error (.errColumnIndex, .columnObserved col h) := by
  rw [headerCheck, if_neg (not_not.mpr hpat), if_pos hidx]

theorem noField_of_end (h : posOff p = 32 * ws.length) : NoField d.w ws p := by
  intro v p' hfield
  have hend : ws.length ≤ p.wi := Nat.not_lt.mp (mt (posOff_lt_iff ws p).mpr (by omega))
  cases (nextFieldAt_of_le d.w hend).symm.trans hfield

theorem noField_of_truncated (h : TruncatedFieldAt d.w ws (posOff p)) : NoField d.w ws p := by
  intro v p' hfield
  cases (nextFieldAt_truncated_iff.mpr h).symm.trans hfield

/-! ### The pixels of one column (R219, R222) -/

theorem decodeRows_of_reads {px : Nat → Nat} {rs : List Nat} (h : Reads d.w ws p (rs.map px) p') :
    decodeRows d ws col rs p = .ok (rs.map fun r => ((col, r), ⟨.decoded, px r⟩), p') := by
  induction rs generalizing p with
  | nil => rw [reads_nil.mp h]; rfl
  | cons r rs ih =>
    obtain ⟨p₁, hfield, hrest⟩ := reads_cons.mp h
    rw [decodeRows, frameField_of_field hfield]
    simp only [ih hrest, List.map_cons]

theorem decodeRows_of_short {rs : List Nat} (h : Reads d.w ws p fs p') (hend : NoField d.w ws p')
    (hlen : fs.length < rs.length) : decodeRows d ws col rs p = .error (.errTruncated, .none) := by
  induction rs generalizing p fs with
  | nil => simp at hlen
  | cons r rs ih =>
    rw [decodeRows]
    cases h with
    | nil => rw [frameField_of_noField hend]
    | cons hfield hrest =>
      rw [frameField_of_field hfield]
      simp only [ih hrest (Nat.lt_of_succ_lt_succ hlen)]

/-- The cells decoded are decoded cells that hold the fields read, one for each row. -/
theorem decodeRows_ok {rs : List Nat} {cells : List (Coord × Cell)} (h : decodeRows d ws col rs p = .ok (cells, p')) :
    ∃ vs, Reads d.w ws p vs p' ∧ vs.length = rs.length ∧ ∀ e ∈ cells, e.2.kind = .decoded ∧ e.2.latches ∈ vs := by
  induction rs generalizing p cells with
  | nil =>
    cases h
    exact ⟨[], .nil _, rfl, by simp⟩
  | cons r rs ih =>
    rw [decodeRows] at h
    split at h
    · cases h
    next v p₁ hfield =>
      split at h
      · cases h
      next more p₂ hrows =>
        cases h
        obtain ⟨vs, hreads, hlen, hcells⟩ := ih hrows
        refine ⟨v :: vs, .cons (frameField_ok hfield) hreads, congrArg Nat.succ hlen, ?_⟩
        exact List.forall_mem_cons.mpr ⟨⟨rfl, List.mem_cons_self⟩, fun e he =>
          ⟨(hcells e he).1, List.mem_cons_of_mem v (hcells e he).2⟩⟩

/-! ### Columns (R219, 30_encoding R83) -/

/-- The fields of column `c`: its header, then its pixels. -/
def columnFields (d : Desc) (header : Nat → Nat) (pixel : Nat → Nat → Nat) (c : Nat) : List Nat :=
  header c :: (List.range d.rows).map (pixel c)

/-- The cells of column `c`. -/
def columnCells (d : Desc) (pixel : Nat → Nat → Nat) (c : Nat) : List (Coord × Cell) :=
  (List.range d.rows).map fun r => ((c, r), ⟨.decoded, pixel c r⟩)

theorem frameFields_eq (d : Desc) (header : Nat → Nat) (pixel : Nat → Nat → Nat) :
    frameFields d header pixel =
      d.frameStart :: ((List.range d.cols).flatMap (columnFields d header pixel) ++ [d.frameEnd]) := rfl

@[simp] theorem columnFields_length (d : Desc) (header : Nat → Nat) (pixel : Nat → Nat → Nat) (c : Nat) :
    (columnFields d header pixel c).length = 1 + d.rows := by
  simp [columnFields, Nat.add_comm]

/-- Columns whose headers pass their checks are decoded, and the decoder goes on with the columns behind them. -/
theorem decodeCols_append {cols : List Nat} (h : Reads d.w ws p (cols.flatMap (columnFields d header pixel)) q)
    (hok : ∀ c ∈ cols, HeaderOk d c (header c)) (more : List Nat) :
    decodeCols d ws (cols ++ more) p =
      (decodeCols d ws more q).map fun r => (cols.flatMap (columnCells d pixel) ++ r.1, r.2) := by
  induction cols generalizing p with
  | nil =>
    rw [reads_nil.mp h]
    cases hmore : decodeCols d ws more q with
    | error e => simp [hmore, Except.map]
    | ok r => simp [hmore, Except.map]
  | cons c cols ih =>
    obtain ⟨hc, hok⟩ := List.forall_mem_cons.mp hok
    rw [List.flatMap_cons, columnFields, List.cons_append] at h
    obtain ⟨p₁, hfield, hrest⟩ := reads_cons.mp h
    obtain ⟨p₂, hrows, hrest⟩ := reads_append.mp hrest
    rw [List.cons_append, decodeCols, frameField_of_field hfield]
    simp only [headerCheck_of_ok hc, decodeRows_of_reads hrows, ih hrest hok]
    cases decodeCols d ws more q with
    | error e => rfl
    | ok r => simp [Except.map, columnCells]

theorem decodeCols_of_reads {cols : List Nat} (h : Reads d.w ws p (cols.flatMap (columnFields d header pixel)) q)
    (hok : ∀ c ∈ cols, HeaderOk d c (header c)) :
    decodeCols d ws cols p = .ok (cols.flatMap (columnCells d pixel), q) := by
  simpa [decodeCols, Except.map] using decodeCols_append h hok []

/-- A header that fails a check ends the decoding (R220, R221). -/
theorem decodeCols_of_header {cols : List Nat} {h : Nat} {e : DecodeErr} (hfield : nextFieldAt d.w ws p = .field h p')
    (herr : headerCheck d col h = .error e) : decodeCols d ws (col :: cols) p = .error e := by
  rw [decodeCols, frameField_of_field hfield]
  simp only [herr]

/-- A column the stream does not hold ends the decoding (R225), its header having passed where there is one. -/
theorem decodeCols_of_short {cols : List Nat} (h : Reads d.w ws p fs p') (hend : NoField d.w ws p')
    (hlen : fs.length < 1 + d.rows) (hok : ∀ v, fs.head? = some v → HeaderOk d col v) :
    decodeCols d ws (col :: cols) p = .error (.errTruncated, .none) := by
  rw [decodeCols]
  cases h with
  | nil => rw [frameField_of_noField hend]
  | @cons _ _ _ v vs hfield hrest =>
    have hrows : vs.length < (List.range d.rows).length := by
      simp only [List.length_cons, List.length_range] at hlen ⊢
      omega
    rw [frameField_of_field hfield]
    simp only [headerCheck_of_ok (hok v rfl), decodeRows_of_short hrest hend hrows]

/-- The cells decoded are decoded cells that hold fields read, `1 + ROWS` of them to a column. -/
theorem decodeCols_ok {cols : List Nat} {cells : List (Coord × Cell)} (h : decodeCols d ws cols p = .ok (cells, p')) :
    ∃ vs, Reads d.w ws p vs p' ∧ vs.length = cols.length * (1 + d.rows) ∧
      ∀ e ∈ cells, e.2.kind = .decoded ∧ e.2.latches ∈ vs := by
  induction cols generalizing p cells with
  | nil =>
    cases h
    exact ⟨[], .nil _, by simp, by simp⟩
  | cons c cols ih =>
    rw [decodeCols] at h
    split at h
    · cases h
    next v p₁ hfield =>
      split at h
      · cases h
      split at h
      · cases h
      next cells₁ p₂ hrows =>
        split at h
        · cases h
        next cells₂ p₃ hcols =>
          cases h
          obtain ⟨vs₁, hreads₁, hlen₁, hcells₁⟩ := decodeRows_ok hrows
          obtain ⟨vs₂, hreads₂, hlen₂, hcells₂⟩ := ih hcols
          refine ⟨v :: (vs₁ ++ vs₂), .cons (frameField_ok hfield) (reads_append.mpr ⟨p₂, hreads₁, hreads₂⟩), ?_, ?_⟩
          · simp only [List.length_cons, List.length_append, hlen₁, hlen₂, List.length_range]
            ring
          · intro e he
            obtain he | he := List.mem_append.mp he
            · obtain ⟨hkind, hmem⟩ := hcells₁ e he
              exact ⟨hkind, by simp [hmem]⟩
            · obtain ⟨hkind, hmem⟩ := hcells₂ e he
              exact ⟨hkind, by simp [hmem]⟩

/-! ### The places of a frame's fields (30_encoding R83) -/

/-- Among the fields of a frame, the header of column `k`. -/
def headerAt (d : Desc) (fs : List Nat) (k : Nat) : Nat := fs.getD (1 + k * (1 + d.rows)) 0

/-- Among the fields of a frame, the pixel of column `k` and row `r`. -/
def pixelAt (d : Desc) (fs : List Nat) (k r : Nat) : Nat := fs.getD (2 + k * (1 + d.rows) + r) 0

theorem columnFields_getElem? {c j : Nat} (hj : j < 1 + d.rows) :
    (columnFields d (headerAt d fs) (pixelAt d fs) c)[j]? = some (fs.getD (1 + (c * (1 + d.rows) + j)) 0) := by
  cases j with
  | zero => rfl
  | succ r =>
    have hr : r < d.rows := by omega
    have hplace : 2 + c * (1 + d.rows) + r = 1 + (c * (1 + d.rows) + (r + 1)) := by omega
    simp only [columnFields, List.getElem?_cons_succ, List.getElem?_map, List.getElem?_range hr, Option.map_some,
      pixelAt, hplace]

/-- Behind the frame start stand the fields of the first `n` columns. -/
theorem eq_columns_append_drop {n : Nat} (hn : n * (1 + d.rows) < fs.length) :
    fs = fs.getD 0 0 ::
      ((List.range n).flatMap (columnFields d (headerAt d fs) (pixelAt d fs)) ++ fs.drop (1 + n * (1 + d.rows))) := by
  refine List.ext_getElem? fun i => ?_
  have hlen := length_flatMap_range (columnFields_length d (headerAt d fs) (pixelAt d fs)) n
  cases i with
  | zero =>
    rw [List.getElem?_cons_zero, List.getD_eq_getElem?_getD, List.getElem?_eq_getElem (by omega)]
    rfl
  | succ i =>
    rw [List.getElem?_cons_succ]
    by_cases hi : i < n * (1 + d.rows)
    · rw [List.getElem?_append_left (hlen ▸ hi), getElem?_flatMap_range (columnFields_length d _ _) hi,
        columnFields_getElem? (Nat.mod_lt _ (by omega)), Nat.div_add_mod', Nat.add_comm 1 i,
        List.getD_eq_getElem _ _ (by omega), List.getElem?_eq_getElem]
    · rw [List.getElem?_append_right (by omega), List.getElem?_drop]
      congr 1
      omega

/-- The fields read are the frame start, the first `n` columns, and the others. -/
theorem Reads.columns (h : Reads d.w ws p fs p') {n : Nat} (hn : n * (1 + d.rows) < fs.length) :
    ∃ p₁ p₂, nextFieldAt d.w ws p = .field (fs.getD 0 0) p₁ ∧
      Reads d.w ws p₁ ((List.range n).flatMap (columnFields d (headerAt d fs) (pixelAt d fs))) p₂ ∧
      Reads d.w ws p₂ (fs.drop (1 + n * (1 + d.rows))) p' := by
  rw [eq_columns_append_drop hn, reads_cons] at h
  obtain ⟨p₁, hfield, hrest⟩ := h
  obtain ⟨p₂, hcols, hrest⟩ := reads_append.mp hrest
  exact ⟨p₁, p₂, hfield, hcols, hrest⟩

/-- Column `k` ends before column `n` begins. -/
theorem mul_add_le_mul_of_lt {k n m : Nat} (h : k < n) : k * m + m ≤ n * m :=
  Nat.succ_mul k m ▸ Nat.mul_le_mul_right m h

theorem getD_zero_of_head? {v : Nat} (h : fs.head? = some v) : fs.getD 0 0 = v := by
  rw [List.getD_eq_getElem?_getD, ← List.head?_eq_getElem?, h]
  rfl

/-- The columns, cut before column `n`. -/
theorem range_eq_append_cons {n m : Nat} (h : n < m) :
    List.range m = List.range n ++ n :: (List.range (m - n - 1)).map fun i => n + (i + 1) := by
  obtain ⟨k, rfl⟩ := Nat.exists_eq_add_of_lt h
  have hk : n + k + 1 - n - 1 = k := by omega
  rw [hk, Nat.add_assoc, List.range_add, List.range_succ_eq_map]
  simp [Function.comp_def]

/-! ### Frames (R217) -/

theorem decodeFrameOf_of_start {f : Nat} (hfield : nextFieldAt d.w ws posStart = .field f p) (hf : f ≠ d.frameStart) :
    decodeFrameOf d ws = .error (.errFrameStart, .observed f) := by
  rw [decodeFrameOf, frameField_of_field hfield]
  exact if_pos hf

theorem decodeFrameOf_of_noField (h : NoField d.w ws posStart) :
    decodeFrameOf d ws = .error (.errTruncated, .none) := by
  rw [decodeFrameOf, frameField_of_noField h]

theorem decodeFrameOf_of_cols_error {e : DecodeErr} (hfield : nextFieldAt d.w ws posStart = .field d.frameStart p)
    (hcols : decodeCols d ws (List.range d.cols) p = .error e) : decodeFrameOf d ws = .error e := by
  rw [decodeFrameOf, frameField_of_field hfield]
  simp only [hcols, ne_eq, not_true_eq_false, if_false]

section
variable {cells : List (Coord × Cell)} (hfield : nextFieldAt d.w ws posStart = .field d.frameStart p)
  (hcols : decodeCols d ws (List.range d.cols) p = .ok (cells, q))
include hfield hcols

theorem decodeFrameOf_of_end_noField (h : NoField d.w ws q) :
    decodeFrameOf d ws = .error (.errTruncated, .none) := by
  rw [decodeFrameOf, frameField_of_field hfield]
  simp only [hcols, frameField_of_noField h, ne_eq, not_true_eq_false, if_false]

theorem decodeFrameOf_of_end {v : Nat} (h : nextFieldAt d.w ws q = .field v p') :
    decodeFrameOf d ws = if v ≠ d.frameEnd then .error (.errFrameEnd, .observed v) else .ok (cells, p') := by
  rw [decodeFrameOf, frameField_of_field hfield]
  simp only [hcols, frameField_of_field h, ne_eq, not_true_eq_false, if_false]

end

/-- A frame decoded has all its fields read, and its cells are decoded cells that hold fields of it. -/
theorem decodeFrameOf_ok {cells : List (Coord × Cell)} (h : decodeFrameOf d ws = .ok (cells, p')) :
    ∃ fs, Reads d.w ws posStart fs p' ∧ fs.length = frameFieldCount d ∧
      ∀ e ∈ cells, e.2.kind = .decoded ∧ e.2.latches ∈ fs := by
  unfold decodeFrameOf at h
  split at h
  · cases h
  next f p₁ hstart =>
    split at h
    · cases h
    split at h
    · cases h
    next cells p₂ hcols =>
      split at h
      · cases h
      next v p₃ hend =>
        split at h
        · cases h
        cases h
        obtain ⟨vs, hreads, hlen, hcells⟩ := decodeCols_ok hcols
        refine ⟨f :: (vs ++ [v]), .cons (frameField_ok hstart) (reads_append.mpr ⟨p₂, hreads, ?_⟩), ?_, fun e he => ?_⟩
        · exact .cons (frameField_ok hend) (.nil _)
        · simp only [List.length_cons, List.length_append, List.length_nil, hlen, List.length_range, frameFieldCount]
          omega
        · obtain ⟨hkind, hmem⟩ := hcells e he
          exact ⟨hkind, by simp [hmem]⟩

theorem headerAt_ok_of_mem_range {n : Nat} (hok : ∀ k, k < n → HeaderOk d k (headerAt d fs k)) :
    ∀ c ∈ List.range n, HeaderOk d c (headerAt d fs c) := fun c hc => hok c (List.mem_range.mp hc)

/-! ### The decoder's errors are structural (60_exceptions R241) -/

/-- An error of 60_exceptions R241's structural class. -/
def IsStructural (e : DecodeErr) : Prop := statusClass e.1 = .structuralDecode

theorem frameField_error {e : DecodeErr} (h : frameField d ws p = .error e) : IsStructural e := by
  obtain ⟨v, p', -, hok⟩ | ⟨-, herr⟩ := frameField_cases d ws p
  · cases hok.symm.trans h
  · cases herr.symm.trans h
    rfl

theorem headerCheck_error {h : Nat} {e : DecodeErr} (herr : headerCheck d col h = .error e) : IsStructural e := by
  unfold headerCheck at herr
  split at herr
  · cases herr
    rfl
  split at herr
  · cases herr
    rfl
  · cases herr

theorem decodeRows_error {rs : List Nat} {e : DecodeErr} (h : decodeRows d ws col rs p = .error e) :
    IsStructural e := by
  induction rs generalizing p with
  | nil => cases h
  | cons r rs ih =>
    rw [decodeRows] at h
    split at h
    next hfield =>
      cases h
      exact frameField_error hfield
    next hfield =>
      split at h
      next hrows =>
        cases h
        exact ih hrows
      · cases h

theorem decodeCols_error {cols : List Nat} {e : DecodeErr} (h : decodeCols d ws cols p = .error e) :
    IsStructural e := by
  induction cols generalizing p with
  | nil => cases h
  | cons c cols ih =>
    rw [decodeCols] at h
    split at h
    next hfield =>
      cases h
      exact frameField_error hfield
    split at h
    next hheader =>
      cases h
      exact headerCheck_error hheader
    split at h
    next hrows =>
      cases h
      exact decodeRows_error hrows
    split at h
    next hcols =>
      cases h
      exact ih hcols
    · cases h

theorem decodeFrameOf_error {e : DecodeErr} (h : decodeFrameOf d ws = .error e) : IsStructural e := by
  unfold decodeFrameOf at h
  split at h
  next hfield =>
    cases h
    exact frameField_error hfield
  split at h
  · cases h
    rfl
  split at h
  next hcols =>
    cases h
    exact decodeCols_error hcols
  split at h
  next hfield =>
    cases h
    exact frameField_error hfield
  split at h
  · cases h
    rfl
  · cases h

/-! ### The first check that fails -/

/-- The first header that fails a check is named, the frame start having passed (R220, R221). -/
theorem decodeFrameOf_of_header (h : Reads d.w ws posStart fs p') {e : DecodeErr} (hstart : fs.getD 0 0 = d.frameStart)
    (hcol : col < d.cols) (hread : 1 + col * (1 + d.rows) < fs.length)
    (hok : ∀ k, k < col → HeaderOk d k (headerAt d fs k)) (herr : headerCheck d col (headerAt d fs col) = .error e) :
    decodeFrameOf d ws = .error e := by
  obtain ⟨p₁, p₂, hfield, hcols, hrest⟩ := h.columns (n := col) (by omega)
  rw [List.drop_eq_getElem_cons hread, reads_cons] at hrest
  obtain ⟨p₃, hheader, -⟩ := hrest
  have hval : fs[1 + col * (1 + d.rows)] = headerAt d fs col := (List.getD_eq_getElem _ _ hread).symm
  rw [hval] at hheader
  refine decodeFrameOf_of_cols_error (hstart ▸ hfield) ?_
  rw [range_eq_append_cons hcol, decodeCols_append hcols (headerAt_ok_of_mem_range hok),
    decodeCols_of_header hheader herr]
  rfl

/-- With all headers passed, a whole frame's last field decides (R223). -/
theorem decodeFrameOf_of_fields (h : Reads d.w ws posStart fs p') (hlen : fs.length = frameFieldCount d)
    (hstart : fs.getD 0 0 = d.frameStart) (hok : ∀ k, k < d.cols → HeaderOk d k (headerAt d fs k)) :
    decodeFrameOf d ws =
      if fs.getD (1 + d.cols * (1 + d.rows)) 0 ≠ d.frameEnd then
        .error (.errFrameEnd, .observed (fs.getD (1 + d.cols * (1 + d.rows)) 0))
      else .ok (decodedMatrix d (pixelAt d fs), p') := by
  have hlast : 1 + d.cols * (1 + d.rows) < fs.length := by
    rw [hlen, frameFieldCount]
    omega
  obtain ⟨p₁, p₂, hfield, hcols, hrest⟩ := h.columns (n := d.cols) (by omega)
  have hnil : fs.drop (1 + d.cols * (1 + d.rows) + 1) = [] := List.drop_eq_nil_of_le (by rw [hlen, frameFieldCount]; omega)
  rw [List.drop_eq_getElem_cons hlast, hnil, reads_cons] at hrest
  obtain ⟨p₃, hend, hnil⟩ := hrest
  obtain rfl := reads_nil.mp hnil
  rw [List.getD_eq_getElem _ _ hlast]
  exact decodeFrameOf_of_end (hstart ▸ hfield) (decodeCols_of_reads hcols (headerAt_ok_of_mem_range hok)) hend

/-- A stream that ends early, after fields that all pass their checks, is truncated (R225). -/
theorem decodeFrameOf_of_short (h : Reads d.w ws posStart fs p') (hend : NoField d.w ws p')
    (hlen : fs.length < frameFieldCount d) (hstart : fs = [] ∨ fs.head? = some d.frameStart)
    (hok : ∀ k, k < d.cols → 1 + k * (1 + d.rows) < fs.length → HeaderOk d k (headerAt d fs k)) :
    decodeFrameOf d ws = .error (.errTruncated, .none) := by
  obtain rfl | hstart := hstart
  · exact decodeFrameOf_of_noField (reads_nil.mp h ▸ hend)
  have hpos : 0 < fs.length := List.length_pos_of_ne_nil (by rintro rfl; simp at hstart)
  have hstart : fs.getD 0 0 = d.frameStart := getD_zero_of_head? hstart
  rw [frameFieldCount] at hlen
  obtain ⟨n, hn⟩ : ∃ n, n = (fs.length - 1) / (1 + d.rows) := ⟨_, rfl⟩
  have hdiv : n * (1 + d.rows) + (fs.length - 1) % (1 + d.rows) = fs.length - 1 := hn ▸ Nat.div_add_mod' _ _
  have hmod : (fs.length - 1) % (1 + d.rows) < 1 + d.rows := Nat.mod_lt _ (by omega)
  obtain ⟨p₁, p₂, hfield, hcols, hrest⟩ := h.columns (n := n) (by omega)
  have hread : ∀ k, k < n → 1 + k * (1 + d.rows) < fs.length := fun k hk => by
    have := mul_add_le_mul_of_lt (m := 1 + d.rows) hk
    omega
  have hnle : n ≤ d.cols := hn ▸ Nat.div_le_of_le_mul (by rw [Nat.mul_comm]; omega)
  have hpass := headerAt_ok_of_mem_range fun k hk => hok k (by omega) (hread k hk)
  obtain rfl | hnlt := Nat.eq_or_lt_of_le hnle
  · rw [List.drop_eq_nil_of_le (by omega), reads_nil] at hrest
    exact decodeFrameOf_of_end_noField (hstart ▸ hfield) (decodeCols_of_reads hcols hpass) (hrest ▸ hend)
  · have hcol : ∀ v, (fs.drop (1 + n * (1 + d.rows))).head? = some v → HeaderOk d n v := by
      intro v hv
      rw [List.head?_drop] at hv
      obtain ⟨hlt, rfl⟩ := List.getElem?_eq_some_iff.mp hv
      have := hok n hnlt hlt
      rwa [headerAt, List.getD_eq_getElem _ _ hlt] at this
    refine decodeFrameOf_of_cols_error (hstart ▸ hfield) ?_
    rw [range_eq_append_cons hnlt, decodeCols_append hcols hpass,
      decodeCols_of_short hrest hend (by rw [List.length_drop]; omega) hcol]
    rfl

/-- The response DECODE_FRAME gives to each outcome (R217, R224). -/
def frameResponse : Except DecodeErr (List (Coord × Cell) × Position) → Response
  | .error (st, det) => errorResponse st det
  | .ok (cells, p) => okResponse (.matrix cells (cursorOut p))

/-- DECODE_FRAME has no check but that of the descriptor and those of the frame. -/
theorem exec_decodeFrame (hdesc : descWellFormed s.cfg.desc = true)
    {r : Except DecodeErr (List (Coord × Cell) × Position)} (hr : decodeFrameOf s.cfg.desc ws = r) :
    exec (.decodeFrame ws) s = .next { s with resp := some (frameResponse r) } := by
  change execDecodeFrame ws s = _
  rw [execDecodeFrame, withDesc_wellFormed _ hdesc, hr]
  cases r with
  | error e => rfl
  | ok r => rfl

/-- SPLIT_FRAME answers only under a well-formed descriptor. -/
theorem descWellFormed_of_exec_splitFrame (h : exec (.splitFrame ws) s = .next t) :
    descWellFormed s.cfg.desc = true := by
  change execSplitFrame ws s = _ at h
  obtain ⟨hdesc, -⟩ := withDesc_next _ h
  exact hdesc

/-- SPLIT_FRAME answers `OK` exactly with the fields of a whole frame. -/
theorem reads_of_splitFrame {c : Cursor} (h : exec (.splitFrame ws) s = .next t)
    (hresp : t.resp = some ⟨.ok, .fields fs c, .none⟩) :
    ∃ p', Reads s.cfg.desc.w ws posStart fs p' ∧ fs.length = frameFieldCount s.cfg.desc ∧ c = cursorOut p' := by
  have hdesc := descWellFormed_of_exec_splitFrame h
  obtain ⟨fs', p', hreads, ⟨hlen, heq⟩ | ⟨-, -, heq⟩ | ⟨-, -, heq⟩⟩ :=
    splitLoop_cases s.cfg.desc ws (frameFieldCount s.cfg.desc) posStart
  all_goals
    cases (exec_splitFrame hdesc heq).symm.trans h
    cases hresp
  exact ⟨p', hreads, hlen, rfl⟩

end

/-! ### The obligations -/

/-- Settles O58: the fields are read, every header passes, and the last field is the frame end. -/
theorem decodeFrameInvertsTheFrameFormat : Obligations.DecodeFrameInvertsTheFrameFormat := by
  intro s d ws header pixel hd hdesc hfs hok hbegins
  subst hd
  obtain ⟨hw, -⟩ := descWellFormed_decoder hdesc
  obtain ⟨p', hreads, hoff⟩ := reads_of_holdsAt (p := posStart) hw hfs (holdsAt_zero.mpr hbegins)
  rw [posOff_posStart, Nat.zero_add] at hoff
  have hroom : posOff p' ≤ 32 * ws.length := by
    rw [hoff]
    exact hbegins.1
  rw [frameFields_eq, reads_cons] at hreads
  obtain ⟨p₁, hstart, hrest⟩ := hreads
  obtain ⟨p₂, hcols, hrest⟩ := reads_append.mp hrest
  obtain ⟨p₃, hend, hnil⟩ := reads_cons.mp hrest
  obtain rfl := reads_nil.mp hnil
  have hdecoded := decodeFrameOf_of_end hstart
    (decodeCols_of_reads hcols fun c hc => hok c (List.mem_range.mp hc)) hend
  rw [if_neg (not_not.mpr rfl)] at hdecoded
  exact ⟨cursorOut p₃, exec_decodeFrame hdesc hdecoded, fun hws => (cursorOff_cursorOut_of_le hroom hws).trans hoff⟩

/-- Settles O59: the fields SPLIT_FRAME answers are the ones DECODE_FRAME checks one after the other. -/
theorem decodeFrameNamesTheFirstFailedCheck : Obligations.DecodeFrameNamesTheFirstFailedCheck := by
  intro s t d ws fs c col hd h hresp hdr last
  subst hd
  have hdesc := descWellFormed_of_exec_splitFrame h
  obtain ⟨p', hreads, hlen, rfl⟩ := reads_of_splitFrame h hresp
  have hcount : fs.length = 2 + s.cfg.desc.cols * (1 + s.cfg.desc.rows) := hlen
  have hread (hcol : col < s.cfg.desc.cols) : 1 + col * (1 + s.cfg.desc.rows) < fs.length := by
    have := mul_add_le_mul_of_lt (m := 1 + s.cfg.desc.rows) hcol
    omega
  refine ⟨fun hne => ?_, fun hstart hcol hok => ⟨fun hpat => ?_, fun hpat hidx => ?_⟩, fun hstart hok =>
    ⟨fun hne => ?_, fun heq => ?_⟩⟩
  · obtain ⟨p₁, -, hfield, -⟩ := hreads.columns (n := 0) (by omega)
    exact exec_decodeFrame hdesc (decodeFrameOf_of_start hfield hne)
  · exact exec_decodeFrame hdesc
      (decodeFrameOf_of_header hreads hstart hcol (hread hcol) hok (headerCheck_of_pattern hpat))
  · exact exec_decodeFrame hdesc
      (decodeFrameOf_of_header hreads hstart hcol (hread hcol) hok (headerCheck_of_index hpat hidx))
  · exact exec_decodeFrame hdesc ((decodeFrameOf_of_fields hreads hlen hstart hok).trans (if_pos hne))
  · exact exec_decodeFrame hdesc ((decodeFrameOf_of_fields hreads hlen hstart hok).trans (if_neg (not_not.mpr heq)))

/-- Settles O60: a frame that is decoded is read whole, and fields that stop short either all pass their checks or the
first that fails is named. -/
theorem shortFramesAreNeverDecoded : Obligations.ShortFramesAreNeverDecoded := by
  constructor
  · intro s t u ws hsplit hstatus hdecode
    have hdesc := descWellFormed_of_exec_splitFrame hsplit
    cases hframe : decodeFrameOf s.cfg.desc ws with
    | error e =>
      cases (exec_decodeFrame hdesc hframe).symm.trans hdecode
      refine ⟨fun hok => ?_, rfl⟩
      have hstruct : statusClass e.1 = .structuralDecode := decodeFrameOf_error hframe
      have hst : e.1 = .ok := Option.some.inj hok
      rw [hst] at hstruct
      cases hstruct
    | ok r =>
      obtain ⟨fs, hreads, hlen, -⟩ := decodeFrameOf_ok hframe
      have hloop := splitLoop_of_reads hreads 0 [] false
      rw [Nat.add_zero, hlen] at hloop
      cases (exec_splitFrame hdesc hloop).symm.trans hsplit
      exact absurd rfl hstatus
  · intro s d ws fs col hd hdesc hfs hlen hbegins hlast read hdr
    subst hd
    obtain ⟨hw, -⟩ := descWellFormed_decoder hdesc
    obtain ⟨p', hreads, hoff⟩ := reads_of_holdsAt (p := posStart) hw hfs (holdsAt_zero.mpr hbegins)
    rw [posOff_posStart, Nat.zero_add] at hoff
    rw [← hoff] at hlast
    have hend : NoField s.cfg.desc.w ws p' := hlast.elim noField_of_end noField_of_truncated
    refine ⟨fun hstart hok => ?_, fun v hv hne => ?_, fun hstart hcol hread hok =>
      ⟨fun hpat => ?_, fun hpat hidx => ?_⟩⟩
    · exact exec_decodeFrame hdesc (decodeFrameOf_of_short hreads hend hlen hstart hok)
    · obtain ⟨vs, rfl⟩ := List.head?_eq_some_iff.mp hv
      obtain ⟨p₁, hfield, -⟩ := reads_cons.mp hreads
      exact exec_decodeFrame hdesc (decodeFrameOf_of_start hfield hne)
    · exact exec_decodeFrame hdesc (decodeFrameOf_of_header hreads (getD_zero_of_head? hstart) hcol hread hok
        (headerCheck_of_pattern hpat))
    · exact exec_decodeFrame hdesc (decodeFrameOf_of_header hreads (getD_zero_of_head? hstart) hcol hread hok
        (headerCheck_of_index hpat hidx))

end Sys2Proof.Machine
end

section
/-! PROOFS. The PixelCell operations on parts of a cell (42_pixelcell): one bit, a span, the pieces of a named field; bit
by bit what they write and read, and which requests they refuse. -/

namespace Sys2Proof.Machine

section
variable {s t : State} {d : Desc} {lc x : Nat} {ps : List Piece} {p : Piece}

/-! ### Masked writes and reads (R163, R164) -/

/-- In a cell that fits its width a masked write changes the span and no other bit. -/
theorem putBits_testBit_of_lt (hx : x < 2 ^ lc) (offset fw value k : Nat) :
    (putBits lc x offset fw value).testBit k =
      if offset ≤ k ∧ k < offset + fw then value.testBit (k - offset) else x.testBit k := by
  rw [putBits_testBit]
  refine if_congr Iff.rfl rfl ?_
  by_cases hk : k < lc
  · simp [hk]
  · have hpow : 2 ^ lc ≤ 2 ^ k := Nat.pow_le_pow_right (by omega) (Nat.not_lt.mp hk)
    simp [Nat.testBit_lt_two_pow (hx.trans_le hpow)]

/-- The write of one bit (R161) is the masked write of a span of width 1. -/
theorem setBit_eq_putBits (lc x index : Nat) (value : Bool) :
    (x &&& notN lc (1 <<< index)) ||| (value.toNat <<< index) = putBits lc x index 1 value.toNat := by
  cases value with
  | false => rfl
  | true => rfl

/-- A span read after it was written holds the value's low bits. -/
theorem getBits_putBits (lc x offset fw value : Nat) :
    getBits (putBits lc x offset fw value) offset fw = value % 2 ^ fw := by
  refine Nat.eq_of_testBit_eq fun k => ?_
  rw [getBits_testBit, putBits_testBit, Nat.testBit_mod_two_pow]
  by_cases hk : k < fw
  · simp [hk]
  · simp [hk]

/-! ### The pieces of a named field (R166, R167, R170, R171) -/

/-- All the widths of the pieces together. -/
def piecesWidth (ps : List Piece) : Nat := (ps.map Piece.width).sum

@[simp] theorem piecesWidth_nil : piecesWidth [] = 0 := rfl

@[simp] theorem piecesWidth_cons (p : Piece) (ps : List Piece) : piecesWidth (p :: ps) = p.width + piecesWidth ps :=
  rfl

theorem piecesOutside_eq_false : piecesOutside lc ps = false ↔ ∀ p ∈ ps, p.offset + p.width ≤ lc := by
  simp [piecesOutside, spanOutside]

theorem piecesOutside_eq_true : piecesOutside lc ps = true ↔ ∃ p ∈ ps, lc < p.offset + p.width := by
  simp [piecesOutside, spanOutside]

/-- The first piece of a well-formed field shares no bit with the others, which are well formed (10_state R31). -/
theorem piecesWellFormed_cons {l : Nat} (h : piecesWellFormed l (p :: ps) = true) :
    (∀ q ∈ ps, p.offset + p.width ≤ q.offset ∨ q.offset + q.width ≤ p.offset) ∧ piecesWellFormed l ps = true := by
  simp only [piecesWellFormed, Bool.and_eq_true, List.all_eq_true] at h
  obtain ⟨⟨-, hdisj⟩, hrest⟩ := h
  exact ⟨fun q hq => by simpa [piecesDisjoint] using hdisj q hq, hrest⟩

/-- Every bit position of a field lies in one of its pieces. -/
theorem exists_piece_of_lt {k : Nat} (hk : k < piecesWidth ps) :
    ∃ before p after j, ps = before ++ p :: after ∧ j < p.width ∧ k = piecesWidth before + j := by
  induction ps generalizing k with
  | nil => simp at hk
  | cons q qs ih =>
    by_cases hq : k < q.width
    · exact ⟨[], q, qs, k, rfl, hq, by simp⟩
    · rw [piecesWidth_cons] at hk
      obtain ⟨before, p, after, j, rfl, hj, hplace⟩ := ih (k := k - q.width) (by omega)
      exact ⟨q :: before, p, after, j, rfl, hj, by rw [piecesWidth_cons]; omega⟩

theorem putPieces_lt (hx : x < 2 ^ lc) (hin : ∀ p ∈ ps, p.offset + p.width ≤ lc) (value n : Nat) :
    putPieces lc value n x ps < 2 ^ lc := by
  induction ps generalizing n x with
  | nil => exact hx
  | cons p ps ih =>
    obtain ⟨hp, hps⟩ := List.forall_mem_cons.mp hin
    exact ih (putBits_lt lc x _ _ _ hp) hps _

/-- A bit outside the pieces is kept. -/
theorem putPieces_testBit_outside (hx : x < 2 ^ lc) (hin : ∀ p ∈ ps, p.offset + p.width ≤ lc) (value n : Nat) {k : Nat}
    (hk : ∀ p ∈ ps, ¬ (p.offset ≤ k ∧ k < p.offset + p.width)) :
    (putPieces lc value n x ps).testBit k = x.testBit k := by
  induction ps generalizing n x with
  | nil => rfl
  | cons p ps ih =>
    obtain ⟨hp, hps⟩ := List.forall_mem_cons.mp hin
    obtain ⟨hkp, hkps⟩ := List.forall_mem_cons.mp hk
    rw [putPieces, ih (putBits_lt lc x _ _ _ hp) hps _ hkps, putBits_testBit_of_lt hx, if_neg hkp]

/-- A piece gets the value bits behind those of the pieces before it. -/
theorem putPieces_testBit_inside {l : Nat} {before after : List Piece} (hx : x < 2 ^ lc)
    (hwf : piecesWellFormed l (before ++ p :: after) = true)
    (hin : ∀ q ∈ before ++ p :: after, q.offset + q.width ≤ lc) (value n : Nat) {j : Nat} (hj : j < p.width) :
    (putPieces lc value n x (before ++ p :: after)).testBit (p.offset + j) =
      value.testBit (n + piecesWidth before + j) := by
  induction before generalizing n x with
  | nil =>
    obtain ⟨hdisj, -⟩ := piecesWellFormed_cons hwf
    obtain ⟨hp, hafter⟩ := List.forall_mem_cons.mp hin
    have hkept : ∀ q ∈ after, ¬ (q.offset ≤ p.offset + j ∧ p.offset + j < q.offset + q.width) := by
      intro q hq
      have := hdisj q hq
      omega
    rw [List.nil_append, putPieces, putPieces_testBit_outside (putBits_lt lc x _ _ _ hp) hafter _ _ hkept,
      putBits_testBit, if_pos (by omega), Nat.testBit_shiftRight]
    congr 1
    simp
  | cons q before ih =>
    obtain ⟨-, hwf⟩ := piecesWellFormed_cons hwf
    obtain ⟨hq, hin⟩ := List.forall_mem_cons.mp hin
    rw [List.cons_append, putPieces, ih (putBits_lt lc x _ _ _ hq) hwf hin, piecesWidth_cons, Nat.add_assoc n]

theorem getBits_lt (x offset fw : Nat) : getBits x offset fw < 2 ^ fw := by
  rw [getBits_eq]
  exact Nat.mod_lt _ (Nat.two_pow_pos fw)

theorem getPieces_lt {n v : Nat} (hv : v < 2 ^ n) (x : Nat) (ps : List Piece) :
    getPieces x n v ps < 2 ^ (n + piecesWidth ps) := by
  induction ps generalizing n v with
  | nil => exact hv
  | cons p ps ih =>
    have hshift : getBits x p.offset p.width <<< n < 2 ^ (n + p.width) := by
      rw [Nat.shiftLeft_eq, Nat.pow_add, Nat.mul_comm]
      exact Nat.mul_lt_mul_of_pos_left (getBits_lt _ _ _) (Nat.two_pow_pos n)
    have hlow : v < 2 ^ (n + p.width) := hv.trans_le (Nat.pow_le_pow_right (by omega) (Nat.le_add_right _ _))
    rw [getPieces, piecesWidth_cons, ← Nat.add_assoc]
    exact ih (Nat.or_lt_two_pow hlow hshift)

/-- The bits read before are kept. -/
theorem getPieces_testBit_low {n k : Nat} (hk : k < n) (x v : Nat) (ps : List Piece) :
    (getPieces x n v ps).testBit k = v.testBit k := by
  induction ps generalizing n v with
  | nil => rfl
  | cons p ps ih =>
    have hbelow : ¬ k ≥ n := Nat.not_le.mpr hk
    rw [getPieces, ih (by omega), Nat.testBit_or, Nat.testBit_shiftLeft, decide_eq_false hbelow, Bool.false_and,
      Bool.or_false]

/-- The bits of a piece come behind those of the pieces before it. -/
theorem getPieces_testBit_inside {n v : Nat} (hv : v < 2 ^ n) (x : Nat) (before after : List Piece) {j : Nat}
    (hj : j < p.width) :
    (getPieces x n v (before ++ p :: after)).testBit (n + piecesWidth before + j) = x.testBit (p.offset + j) := by
  have hstep (q : Piece) : v ||| getBits x q.offset q.width <<< n < 2 ^ (n + q.width) := by
    simpa [getPieces] using getPieces_lt hv x [q]
  induction before generalizing n v with
  | nil =>
    have hnone : v.testBit (n + j) = false :=
      Nat.testBit_lt_two_pow (hv.trans_le (Nat.pow_le_pow_right (by omega) (Nat.le_add_right _ _)))
    rw [List.nil_append, getPieces, piecesWidth_nil, Nat.add_zero, getPieces_testBit_low (by omega), Nat.testBit_or,
      hnone, Nat.testBit_shiftLeft, getBits_testBit]
    simp [hj]
  | cons q before ih =>
    rw [List.cons_append, getPieces, piecesWidth_cons, ← Nat.add_assoc n]
    exact ih (hstep q) fun r => by simpa [getPieces] using getPieces_lt (hstep q) x [r]

/-- What was written to the pieces is what is read from them. -/
theorem getPieces_putPieces {l : Nat} (hx : x < 2 ^ lc) (hwf : piecesWellFormed l ps = true)
    (hin : ∀ p ∈ ps, p.offset + p.width ≤ lc) (value : Nat) :
    getPieces (putPieces lc value 0 x ps) 0 0 ps = value % 2 ^ piecesWidth ps := by
  have hlt : getPieces (putPieces lc value 0 x ps) 0 0 ps < 2 ^ piecesWidth ps := by
    simpa using getPieces_lt (n := 0) (v := 0) Nat.one_pos (putPieces lc value 0 x ps) ps
  refine (eq_iff_testBit_of_lt hlt (Nat.mod_lt _ (Nat.two_pow_pos _))).mpr fun k hk => ?_
  rw [Nat.testBit_mod_two_pow, decide_eq_true hk, Bool.true_and]
  obtain ⟨before, p, after, j, rfl, hj, rfl⟩ := exists_piece_of_lt hk
  have hread := getPieces_testBit_inside (n := 0) (v := 0) Nat.one_pos
    (putPieces lc value 0 x (before ++ p :: after)) before after hj
  rw [Nat.zero_add] at hread
  rw [hread, putPieces_testBit_inside hx hwf hin value 0 hj, Nat.zero_add]

/-! ### What each operation is under a well-formed descriptor (10_state R31) -/

section
variable (hdesc : descWellFormed s.cfg.desc = true) (c : Cell)
include hdesc

theorem exec_pcSetBit (index : Word) (value : Bool) :
    exec (.pcSetBit c index value) s =
      if cellWidth s.cfg.desc c.kind ≤ index.toNat then raise s .errCellRange .none
      else answer s (.cell ⟨c.kind,
        putBits (cellWidth s.cfg.desc c.kind) (latchesOf s.cfg.desc c) index.toNat 1 value.toNat⟩) := by
  change execPcSetBit c index value s = _
  rw [execPcSetBit, withDesc_wellFormed _ hdesc, setBit_eq_putBits]

theorem exec_pcGetBit (index : Word) :
    exec (.pcGetBit c index) s =
      if cellWidth s.cfg.desc c.kind ≤ index.toNat then raise s .errCellRange .none
      else answer s (.bool ((latchesOf s.cfg.desc c).testBit index.toNat)) := by
  change execPcGetBit c index s = _
  rw [execPcGetBit, withDesc_wellFormed _ hdesc]

theorem exec_pcSetSubfield (offset fieldWidth : Word) (value : Nat) :
    exec (.pcSetSubfield c offset fieldWidth value) s =
      if spanOutside (cellWidth s.cfg.desc c.kind) offset.toNat fieldWidth.toNat then raise s .errCellRange .none
      else answer s (.cell ⟨c.kind,
        putBits (cellWidth s.cfg.desc c.kind) (latchesOf s.cfg.desc c) offset.toNat fieldWidth.toNat value⟩) := by
  change execPcSetSubfield c offset fieldWidth value s = _
  rw [execPcSetSubfield, withDesc_wellFormed _ hdesc]

theorem exec_pcGetSubfield (offset fieldWidth : Word) :
    exec (.pcGetSubfield c offset fieldWidth) s =
      if spanOutside (cellWidth s.cfg.desc c.kind) offset.toNat fieldWidth.toNat then raise s .errCellRange .none
      else answer s (.ul (getBits (latchesOf s.cfg.desc c) offset.toNat fieldWidth.toNat)) := by
  change execPcGetSubfield c offset fieldWidth s = _
  rw [execPcGetSubfield, withDesc_wellFormed _ hdesc]

section
variable {field : ByteString} (hfield : s.cfg.desc.layout.lookup field = none)
include hfield

theorem exec_pcSetNamed_of_unknown (value : Nat) :
    exec (.pcSetNamed c field value) s = raise s .errUnknownField .none := by
  change execPcSetNamed c field value s = _
  rw [execPcSetNamed, withDesc_wellFormed _ hdesc, layoutPieces, hfield]

theorem exec_pcGetNamed_of_unknown :
    exec (.pcGetNamed c field) s = raise s .errUnknownField .none := by
  change execPcGetNamed c field s = _
  rw [execPcGetNamed, withDesc_wellFormed _ hdesc, layoutPieces, hfield]

end

section
variable {field : ByteString} (hfield : s.cfg.desc.layout.lookup field = some ps)
include hfield

theorem exec_pcSetNamed (value : Nat) :
    exec (.pcSetNamed c field value) s =
      if piecesOutside (cellWidth s.cfg.desc c.kind) ps then raise s .errCellRange .none
      else answer s (.cell ⟨c.kind,
        putPieces (cellWidth s.cfg.desc c.kind) value 0 (latchesOf s.cfg.desc c) ps⟩) := by
  change execPcSetNamed c field value s = _
  rw [execPcSetNamed, withDesc_wellFormed _ hdesc, layoutPieces, hfield]

theorem exec_pcGetNamed :
    exec (.pcGetNamed c field) s =
      if piecesOutside (cellWidth s.cfg.desc c.kind) ps then raise s .errCellRange .none
      else answer s (.ul (getPieces (latchesOf s.cfg.desc c) 0 0 ps)) := by
  change execPcGetNamed c field s = _
  rw [execPcGetNamed, withDesc_wellFormed _ hdesc, layoutPieces, hfield]

end
end

/-- The pieces of a known field are well formed (10_state R31). -/
theorem piecesWellFormed_of_lookup (hdesc : descWellFormed d = true) {field : ByteString}
    (hfield : d.layout.lookup field = some ps) : piecesWellFormed d.l ps = true := by
  obtain ⟨-, -, -, hlayout⟩ := descWellFormed_cells hdesc
  obtain ⟨before, after, heq, -⟩ := List.lookup_eq_some_iff.mp hfield
  exact hlayout (field, ps) (by simp [heq])

/-- A configuration cell holds the pieces of every field. -/
theorem pieces_inside (hdesc : descWellFormed d = true) {field : ByteString} (hfield : d.layout.lookup field = some ps)
    {c : Cell} (h : c.kind = .config ∨ ∀ p ∈ ps, p.offset + p.width ≤ cellWidth d c.kind) :
    ∀ p ∈ ps, p.offset + p.width ≤ cellWidth d c.kind := by
  obtain hkind | hin := h
  · intro p hp
    obtain ⟨-, hle⟩ := piecesWellFormed_mem (piecesWellFormed_of_lookup hdesc hfield) p hp
    rwa [hkind]
  · exact hin

/-! ### Cells in their types, requests inside the cell -/

section
variable {c : Cell} (hdesc : descWellFormed s.cfg.desc = true) (hc : CellOk s.cfg.desc c)
include hdesc hc

section
variable {offset fieldWidth : Word} (hspan : offset.toNat + fieldWidth.toNat ≤ cellWidth s.cfg.desc c.kind)
include hspan

theorem exec_pcSetSubfield_of_inside (value : Nat) :
    exec (.pcSetSubfield c offset fieldWidth value) s =
      answer s (.cell ⟨c.kind,
        putBits (cellWidth s.cfg.desc c.kind) c.latches offset.toNat fieldWidth.toNat value⟩) := by
  rw [exec_pcSetSubfield hdesc, if_neg (by simpa [spanOutside] using hspan), latchesOf_of_lt hc]

theorem exec_pcGetSubfield_of_inside :
    exec (.pcGetSubfield c offset fieldWidth) s =
      answer s (.ul (getBits c.latches offset.toNat fieldWidth.toNat)) := by
  rw [exec_pcGetSubfield hdesc, if_neg (by simpa [spanOutside] using hspan), latchesOf_of_lt hc]

end

section
variable {field : ByteString} (hfield : s.cfg.desc.layout.lookup field = some ps)
  (hin : ∀ p ∈ ps, p.offset + p.width ≤ cellWidth s.cfg.desc c.kind)
include hfield hin

theorem exec_pcSetNamed_of_inside (value : Nat) :
    exec (.pcSetNamed c field value) s =
      answer s (.cell ⟨c.kind, putPieces (cellWidth s.cfg.desc c.kind) value 0 c.latches ps⟩) := by
  rw [exec_pcSetNamed hdesc c hfield, if_neg (by simpa using piecesOutside_eq_false.mpr hin), latchesOf_of_lt hc]

theorem exec_pcGetNamed_of_inside :
    exec (.pcGetNamed c field) s = answer s (.ul (getPieces c.latches 0 0 ps)) := by
  rw [exec_pcGetNamed hdesc c hfield, if_neg (by simpa using piecesOutside_eq_false.mpr hin), latchesOf_of_lt hc]

end
end

end

/-! ### The obligations -/

/-- Settles O38: writing one bit is the masked write of a span of width 1. -/
theorem setBitChangesOneBitAndGetBitReadsIt : Obligations.SetBitChangesOneBitAndGetBitReadsIt := by
  intro s c index value hdesc hc hindex
  rw [exec_pcSetBit hdesc, exec_pcGetBit hdesc, if_neg (Nat.not_le.mpr hindex), if_neg (Nat.not_le.mpr hindex),
    latchesOf_of_lt hc]
  refine ⟨⟨_, rfl, putBits_lt _ _ _ _ _ hindex, fun k => ?_⟩, rfl⟩
  rw [putBits_testBit_of_lt hc]
  by_cases hk : k = index.toNat
  · subst hk
    cases value with
    | false => simp
    | true => simp
  · rw [if_neg hk, if_neg (by omega)]

/-- Settles O39, by the bits of a masked write. -/
theorem setSubfieldWritesOnlyItsSpan : Obligations.SetSubfieldWritesOnlyItsSpan := by
  intro s c offset fieldWidth value hdesc hc hspan
  exact ⟨_, exec_pcSetSubfield_of_inside hdesc hc hspan value, putBits_lt _ _ _ _ _ hspan,
    putBits_testBit_of_lt hc _ _ _⟩

/-- Settles O40: the cell written fits, so the read finds what the masked write put there. -/
theorem getSubfieldReadsBackTheSpan : Obligations.GetSubfieldReadsBackTheSpan := by
  intro s t c c' offset fieldWidth value hdesc hc hspan
  refine ⟨?_, fun hset hresp => ?_⟩
  · rw [exec_pcGetSubfield_of_inside hdesc hc hspan, getBits_eq]
    rfl
  · cases (exec_pcSetSubfield_of_inside hdesc hc hspan value).symm.trans hset
    cases hresp
    have hfits := putBits_lt (cellWidth s.cfg.desc c.kind) c.latches _ _ value hspan
    rw [← getBits_putBits]
    exact exec_pcGetSubfield_of_inside (c := ⟨c.kind, _⟩) hdesc hfits hspan

/-- Settles O42: disjoint pieces do not touch each other's bits. -/
theorem setNamedWritesOnlyItsPieces : Obligations.SetNamedWritesOnlyItsPieces := by
  intro s c value field ps hdesc hc hfield hkind
  have hin := pieces_inside hdesc hfield hkind
  refine ⟨_, exec_pcSetNamed_of_inside hdesc hc hfield hin value, putPieces_lt hc hin value 0, ?_,
    fun k hk => putPieces_testBit_outside hc hin value 0 hk⟩
  rintro before after p rfl j hj
  rw [putPieces_testBit_inside hc (piecesWellFormed_of_lookup hdesc hfield) hin value 0 hj, Nat.zero_add, piecesWidth]

/-- Settles O43: the read collects the pieces' bits in order, which the write had put there. -/
theorem getNamedReadsBackSetNamed : Obligations.GetNamedReadsBackSetNamed := by
  intro s c value field ps hdesc hc hfield hkind
  have hin := pieces_inside hdesc hfield hkind
  refine ⟨⟨_, exec_pcGetNamed_of_inside hdesc hc hfield hin, ?_, ?_⟩, fun t c' hset hresp => ?_⟩
  · simpa [piecesWidth] using getPieces_lt (n := 0) (v := 0) Nat.one_pos c.latches ps
  · rintro before after p rfl j hj
    simpa [piecesWidth] using getPieces_testBit_inside (n := 0) (v := 0) Nat.one_pos c.latches before after hj
  · cases (exec_pcSetNamed_of_inside hdesc hc hfield hin value).symm.trans hset
    cases hresp
    rw [← piecesWidth, ← getPieces_putPieces hc (piecesWellFormed_of_lookup hdesc hfield) hin]
    exact exec_pcGetNamed_of_inside (c := ⟨c.kind, _⟩) hdesc (putPieces_lt hc hin value 0) hfield hin

/-- Settles O41, by the check each request fails. -/
theorem cellRequestsOutsideTheCellAreErrors : Obligations.CellRequestsOutsideTheCellAreErrors := by
  intro s c index offset fieldWidth bit value field ps hdesc
  refine ⟨fun hindex => ?_, fun hspan => ?_, fun hfield hpiece => ?_, fun hfield => ?_⟩
  · rw [exec_pcSetBit hdesc, exec_pcGetBit hdesc, if_pos hindex, if_pos hindex]
    exact ⟨rfl, rfl⟩
  · have hout : spanOutside (cellWidth s.cfg.desc c.kind) offset.toNat fieldWidth.toNat = true := decide_eq_true hspan
    rw [exec_pcSetSubfield hdesc, exec_pcGetSubfield hdesc, if_pos hout, if_pos hout]
    exact ⟨rfl, rfl⟩
  · have hout := piecesOutside_eq_true.mpr hpiece
    rw [exec_pcSetNamed hdesc c hfield, exec_pcGetNamed hdesc c hfield, if_pos hout, if_pos hout]
    exact ⟨rfl, rfl⟩
  · rw [exec_pcSetNamed_of_unknown hdesc c hfield, exec_pcGetNamed_of_unknown hdesc c hfield]
    exact ⟨rfl, rfl⟩

end Sys2Proof.Machine
end

section
/-! PROOFS. The operands of the cell and matrix operations (10_state R33, R36 to R38): which coordinates PROG_MATRIX reads, and what
operands outside their types run as (log 10, 24). -/

namespace Sys2Proof.Machine

section
variable {s t : State} {d : Desc} {m m' : Matrix}

/-! ### The coordinates read (R181, 10_state R36) -/

/-- Row by row the pairs of the geometry are all that the RBC traversal reads. -/
theorem rbc_congr (h : ∀ k : Coord, k.1 < d.cols → k.2 < d.rows → pairAt d m k = pairAt d m' k) :
    rbc d m = rbc d m' := by
  have hstage (f : Nat × Nat → Nat) :
      rbcStage d (fun c r => f (pairAt d m (c, r))) = rbcStage d (fun c r => f (pairAt d m' (c, r))) := by
    refine List.flatMap_congr fun r hr => List.map_congr_left fun b _ => List.map_congr_left fun c hc => ?_
    exact congrArg (fun p => (f p).testBit b) (h (c, r) (List.mem_range.mp hc) (List.mem_range.mp hr))
  rw [rbc, rbc, hstage Prod.fst, hstage Prod.snd]

/-- An even number of columns makes two sub-columns of `DCOLS` double columns each. -/
theorem cols_eq_two_mul_dcols (h : d.cols % 2 = 0) : d.cols = 2 * dcols d := by
  rw [dcols]
  omega

/-- `SEL` answers coordinates of the geometry (10_state R31). -/
theorem selAt_lt (hdesc : descWellFormed d = true) (hp : d.pattern = .snake) {dc sc r : Nat} (hdc : dc < dcols d)
    (hsc : sc < nSubCols) (hr : r < d.rows) : (selAt d dc sc r).1 < d.cols ∧ (selAt d dc sc r).2 < d.rows := by
  obtain ⟨heven, -, hlen, hrange, -⟩ := descWellFormed_snake hdesc hp
  have hsub : (r * nSubCols + sc) * dcols d + dcols d ≤ d.rows * nSubCols * dcols d :=
    mul_add_le_mul_of_lt (by have := mul_add_le_mul_of_lt (m := nSubCols) hr; omega)
  have hindex : (r * nSubCols + sc) * dcols d + dc < d.sel.length := by
    have hsize : 2 * dcols d * d.rows = d.rows * nSubCols * dcols d := by
      rw [nSubCols]
      ring
    rw [hlen, cols_eq_two_mul_dcols heven, hsize]
    omega
  rw [selAt, List.getD_eq_getElem _ _ hindex]
  exact hrange _ (List.getElem_mem hindex)

/-- The cells of the geometry are all that the SNAKE traversal reads. -/
theorem snake_congr (hdesc : descWellFormed d = true) (hp : d.pattern = .snake)
    (h : ∀ k : Coord, k.1 < d.cols → k.2 < d.rows → cellAt d m k = cellAt d m' k) : snake d m = snake d m' := by
  have hrow : ∀ r ∈ List.range d.rows, snakeRow d m r = snakeRow d m' r := by
    intro r hr
    refine List.flatMap_congr fun sc hsc => List.flatMap_congr fun b _ => List.map_congr_left fun dc hdc => ?_
    obtain ⟨hcol, hrow⟩ := selAt_lt hdesc hp (List.mem_range.mp hdc) (List.mem_range.mp hsc) (List.mem_range.mp hr)
    rw [h _ hcol hrow]
  rw [snake, snake, List.flatMap_congr fun r hr => congrArg (_ ++ ·) (hrow r hr)]

theorem progMatrixOut_rbc (hp : d.pattern = .rbc) (m : Matrix) : progMatrixOut d m = .words (rbc d m) := by
  rw [progMatrixOut, hp]

theorem progMatrixOut_snake (hp : d.pattern = .snake) (m : Matrix) :
    progMatrixOut d m = .bytes (snake d m) (pack8 d (snake d m)) := by
  rw [progMatrixOut, hp]

theorem pairAt_congr {k : Coord} (h : entriesAt m k = entriesAt m' k) : pairAt d m k = pairAt d m' k := by
  unfold pairAt
  rw [h]

theorem cellAt_congr {k : Coord} (h : entriesAt m k = entriesAt m' k) : cellAt d m k = cellAt d m' k := by
  unfold cellAt
  rw [h]

/-- Two matrices with the same entries over the geometry give the same output. -/
theorem progMatrixOut_congr (hdesc : descWellFormed d = true)
    (h : ∀ k : Coord, k.1 < d.cols → k.2 < d.rows → entriesAt m k = entriesAt m' k) :
    progMatrixOut d m = progMatrixOut d m' := by
  cases hp : d.pattern with
  | rbc =>
    rw [progMatrixOut_rbc hp, progMatrixOut_rbc hp,
      rbc_congr fun k hcol hrow => pairAt_congr (h k hcol hrow)]
  | snake =>
    rw [progMatrixOut_snake hp, progMatrixOut_snake hp,
      snake_congr hdesc hp fun k hcol hrow => cellAt_congr (h k hcol hrow)]

/-! ### A matrix in its type for every operand (log 24) -/

/-- A coordinate that is no key has no entry. -/
theorem entriesAt_of_notMem {k : Coord} (hk : k ∉ matrixKeys m) : entriesAt m k = [] := by
  cases m with
  | single cells =>
    rw [entriesAt, List.map_eq_nil_iff, List.filter_eq_nil_iff]
    rintro e he hek
    exact hk (List.mem_map.mpr ⟨e, he, by simpa using hek⟩)
  | paired cells =>
    rw [entriesAt, List.map_eq_nil_iff, List.filter_eq_nil_iff]
    rintro e he hek
    exact hk (List.mem_map.mpr ⟨e, he, by simpa using hek⟩)

/-- A table of `f` over some keys answers `f`, and its default where `f` is the default outside the keys. -/
theorem lookup_table_getD {α : Type} {f : Coord → α} {keys : List Coord} {z : α} (hf : ∀ k, k ∉ keys → f k = z)
    (k : Coord) : ((keys.map fun k => (k, f k)).lookup k).getD z = f k := by
  by_cases hk : k ∈ keys
  · rw [List.lookup_graph f hk]
    rfl
  · have hnone : (keys.map fun k => (k, f k)).lookup k = none := by
      rw [List.lookup_eq_none_iff]
      rintro e he
      obtain ⟨k', hk', rfl⟩ := List.mem_map.mp he
      have hne : k ≠ k' := fun h => hk (h ▸ hk')
      simpa using hne
    rw [hnone, hf k hk]
    rfl

/-- The matrix in its type that an operand runs as: at each of its keys the cell or the pair read there. -/
def inTypeMatrix (d : Desc) (m : Matrix) : Matrix :=
  match d.pattern with
  | .snake => .single ((matrixKeys m).dedup.map fun k => (k, cellAt d m k))
  | .rbc => .paired ((matrixKeys m).dedup.map fun k => (k, pairAt d m k))

theorem inTypeMatrix_fits (d : Desc) (m : Matrix) : (inTypeMatrix d m).fits d = true := by
  unfold inTypeMatrix
  split
  next hp => simp [Matrix.fits, hp, Function.comp_def, List.nodup_dedup, cellAt_lt]
  next hp =>
    simp only [Matrix.fits, hp, List.map_map, Function.comp_def, List.map_id', List.nodup_dedup, List.all_map,
      pairAt_lt]
    simp

theorem matrixKeys_inTypeMatrix (d : Desc) (m : Matrix) : matrixKeys (inTypeMatrix d m) = (matrixKeys m).dedup := by
  unfold inTypeMatrix
  split
  · simp [matrixKeys, Function.comp_def]
  · simp [matrixKeys, Function.comp_def]

theorem progMatrixOut_inTypeMatrix (hdesc : descWellFormed d = true) (m : Matrix) :
    progMatrixOut d (inTypeMatrix d m) = progMatrixOut d m := by
  have hfits := inTypeMatrix_fits d m
  cases hp : d.pattern with
  | rbc =>
    have heq : inTypeMatrix d m = .paired ((matrixKeys m).dedup.map fun k => (k, pairAt d m k)) := by
      rw [inTypeMatrix, hp]
    rw [heq] at hfits
    rw [progMatrixOut_rbc hp, progMatrixOut_rbc hp, heq]
    refine congrArg MatrixOut.words (rbc_congr fun k _ _ => ?_)
    rw [pairAt_paired hfits]
    refine lookup_table_getD (fun k hk => ?_) k
    rw [pairAt, entriesAt_of_notMem fun h => hk (List.mem_dedup.mpr h)]
  | snake =>
    have heq : inTypeMatrix d m = .single ((matrixKeys m).dedup.map fun k => (k, cellAt d m k)) := by
      rw [inTypeMatrix, hp]
    rw [heq] at hfits
    have hsnake := snake_congr (m := .single ((matrixKeys m).dedup.map fun k => (k, cellAt d m k))) (m' := m) hdesc hp
      fun k _ _ => by
        rw [cellAt_single hfits]
        refine lookup_table_getD (fun k hk => ?_) k
        rw [cellAt, entriesAt_of_notMem fun h => hk (List.mem_dedup.mpr h)]
    rw [progMatrixOut_snake hp, progMatrixOut_snake hp, heq, hsnake]

/-- CONFIGURE_MATRIX with a matrix is its attempts (R196). -/
theorem exec_configureMatrix (hdesc : descWellFormed s.cfg.desc = true) (m : Matrix) (maxAttempts : Word) :
    exec (.configureMatrix (some m) maxAttempts) s =
      configureLoop (progMatrixOut s.cfg.desc m) (attemptLimit s.cfg.desc maxAttempts.toNat) 1 s := by
  change execConfigureMatrix (some m) maxAttempts s = _
  rw [execConfigureMatrix, withDesc_wellFormed _ hdesc]

/-! ### A cell in its type for every operand (log 10) -/

/-- The cell in its type that an operand runs as. -/
def inTypeCell (d : Desc) (c : Cell) : Cell := ⟨c.kind, latchesOf d c⟩

theorem latchesOf_inTypeCell (d : Desc) (c : Cell) : latchesOf d (inTypeCell d c) = latchesOf d c :=
  latchesOf_of_lt (c := inTypeCell d c) (latchesOf_lt d c)

theorem inTypeCell_kind (d : Desc) (c : Cell) : (inTypeCell d c).kind = c.kind := rfl

theorem inTypeCell_of_ok {c : Cell} (hc : CellOk d c) : inTypeCell d c = c := by
  rw [inTypeCell, latchesOf_of_lt hc]

section
variable (hdesc : descWellFormed s.cfg.desc = true) (c : Cell) (field : ByteString)
include hdesc

theorem exec_pcSetNamed_inTypeCell (value : Nat) :
    exec (.pcSetNamed c field value) s = exec (.pcSetNamed (inTypeCell s.cfg.desc c) field value) s := by
  cases hfield : s.cfg.desc.layout.lookup field with
  | none => rw [exec_pcSetNamed_of_unknown hdesc _ hfield, exec_pcSetNamed_of_unknown hdesc _ hfield]
  | some ps =>
    rw [exec_pcSetNamed hdesc _ hfield, exec_pcSetNamed hdesc _ hfield, latchesOf_inTypeCell, inTypeCell_kind]

theorem exec_pcGetNamed_inTypeCell :
    exec (.pcGetNamed c field) s = exec (.pcGetNamed (inTypeCell s.cfg.desc c) field) s := by
  cases hfield : s.cfg.desc.layout.lookup field with
  | none => rw [exec_pcGetNamed_of_unknown hdesc _ hfield, exec_pcGetNamed_of_unknown hdesc _ hfield]
  | some ps =>
    rw [exec_pcGetNamed hdesc _ hfield, exec_pcGetNamed hdesc _ hfield, latchesOf_inTypeCell, inTypeCell_kind]

/-- PC_EQ answers a Boolean whatever the two cells: open where they have two widths (R169; log 10). -/
theorem exec_pcEq (a b : Cell) :
    exec (.pcEq a b) s = answer s (.bool
      (if cellWidth s.cfg.desc a.kind = cellWidth s.cfg.desc b.kind then
        decide (latchesOf s.cfg.desc a = latchesOf s.cfg.desc b)
      else Config.openEq (cellWidth s.cfg.desc a.kind, a.latches) (cellWidth s.cfg.desc b.kind, b.latches))) := by
  change execPcEq a b s = _
  rw [execPcEq, withDesc_wellFormed _ hdesc, apply_ite Results.bool, apply_ite (answer s)]

end

end

/-! ### The obligations -/

/-- Settles O4: a cell operand counts through its latches, a matrix operand through what is read at its keys. -/
theorem outOfTypeOperandsRunAsSomeInTypeOperands : Obligations.OutOfTypeOperandsRunAsSomeInTypeOperands := by
  intro s hdesc
  refine ⟨fun c => ⟨inTypeCell s.cfg.desc c, rfl, latchesOf_lt _ c, inTypeCell_of_ok, ?_, ?_, ?_, ?_, ?_, ?_, ?_⟩,
    fun a b => ⟨_, exec_pcEq hdesc a b⟩, fun m => ⟨inTypeMatrix s.cfg.desc m, inTypeMatrix_fits _ m, ?_, ?_, ?_⟩⟩
  · intro index value
    rw [exec_pcSetBit hdesc, exec_pcSetBit hdesc, latchesOf_inTypeCell, inTypeCell_kind]
  · intro index
    rw [exec_pcGetBit hdesc, exec_pcGetBit hdesc, latchesOf_inTypeCell, inTypeCell_kind]
  · intro offset fieldWidth value
    rw [exec_pcSetSubfield hdesc, exec_pcSetSubfield hdesc, latchesOf_inTypeCell, inTypeCell_kind]
  · intro offset fieldWidth
    rw [exec_pcGetSubfield hdesc, exec_pcGetSubfield hdesc, latchesOf_inTypeCell, inTypeCell_kind]
  · exact exec_pcSetNamed_inTypeCell hdesc c
  · exact exec_pcGetNamed_inTypeCell hdesc c
  · intro value
    rw [exec_pcSetLatches hdesc, exec_pcSetLatches hdesc, inTypeCell_kind]
  · intro k hk
    rwa [matrixKeys_inTypeMatrix, List.mem_dedup] at hk
  · rw [exec_progMatrix hdesc, exec_progMatrix hdesc, progMatrixOut_inTypeMatrix hdesc]
  · intro maxAttempts
    rw [exec_configureMatrix hdesc, exec_configureMatrix hdesc, progMatrixOut_inTypeMatrix hdesc]

/-- Settles O49: what PROG_MATRIX reads at a coordinate of the geometry follows from the entries there. -/
theorem keysOutsideTheGeometryAreIgnored : Obligations.KeysOutsideTheGeometryAreIgnored := by
  intro s m₁ m₂ p₁ p₂ hdesc
  constructor
  · intro h
    rw [exec_progMatrix hdesc, exec_progMatrix hdesc, progMatrixOut_congr hdesc fun k hcol hrow => ?_]
    exact congrArg (List.map _) (h k hcol hrow)
  · intro h
    rw [exec_progMatrix hdesc, exec_progMatrix hdesc, progMatrixOut_congr hdesc fun k hcol hrow => ?_]
    exact congrArg (List.map _) (h k hcol hrow)

end Sys2Proof.Machine
end

section
/-! PROOFS. The SNAKE traversal (43_matrix_encoder R187 to R192): where each padding block and each cell's bit stands. -/

namespace Sys2Proof.Machine

section
variable {d : Desc}

/-! ### The SNAKE traversal (R187 to R192) -/

/-- Element `k` of turn `i` of a loop in which every turn puts out `n` elements. -/
theorem getElem?_flatMap_turn {β : Type} {f : Nat → List β} {n i j k : Nat} (hlen : ∀ i, (f i).length = n) (hi : i < j)
    (hk : k < n) : ((List.range j).flatMap f)[i * n + k]? = (f i)[k]? := by
  have hplace : i * n + k < j * n := by
    have := mul_add_le_mul_of_lt (m := n) hi
    omega
  have hn : 0 < n := by omega
  rw [getElem?_flatMap_range hlen hplace, Nat.mul_comm, Nat.mul_add_div hn, Nat.div_eq_of_lt hk, Nat.mul_add_mod,
    Nat.mod_eq_of_lt hk, Nat.add_zero]

/-- Element `k` of turn `i` of any loop: it stands behind what the turns before put out. -/
theorem getElem?_flatMap_after {β : Type} (f : Nat → List β) {i j k : Nat} (hi : i < j) (hk : k < (f i).length) :
    ((List.range j).flatMap f)[((List.range i).flatMap f).length + k]? = (f i)[k]? := by
  rw [range_eq_append_cons hi, List.flatMap_append, List.flatMap_cons,
    List.getElem?_append_right (Nat.le_add_right _ _), Nat.add_sub_cancel_left, List.getElem?_append_left hk]

theorem descending_eq_map (n : Nat) : descending n = (List.range n).map fun j => n - 1 - j := by
  refine List.ext_getElem (by simp) fun k hk _ => ?_
  simp [descending]

/-- The bits of one sub-column of a row: bit descending, then double column. -/
def subColumnBits (d : Desc) (m : Matrix) (r sc : Nat) : List Bool :=
  (List.range d.l).flatMap fun j =>
    (List.range (dcols d)).map fun dc => (cellAt d m (selAt d dc sc r)).testBit (d.l - 1 - j)

theorem snakeRow_eq (d : Desc) (m : Matrix) (r : Nat) :
    snakeRow d m r = (List.range nSubCols).flatMap (subColumnBits d m r) := by
  simp only [snakeRow, descending_eq_map, List.flatMap_map]
  rfl

@[simp] theorem subColumnBits_length (d : Desc) (m : Matrix) (r sc : Nat) :
    (subColumnBits d m r sc).length = d.l * dcols d :=
  length_flatMap_range (by simp) _

@[simp] theorem snakeRow_length (d : Desc) (m : Matrix) (r : Nat) :
    (snakeRow d m r).length = nSubCols * (d.l * dcols d) := by
  rw [snakeRow_eq, length_flatMap_range (subColumnBits_length d m r)]

theorem snakeRow_getElem? (m : Matrix) (r : Nat) {sc b dc : Nat} (hsc : sc < nSubCols) (hb : b < d.l)
    (hdc : dc < dcols d) :
    (snakeRow d m r)[(sc * d.l + (d.l - 1 - b)) * dcols d + dc]? =
      some ((cellAt d m (selAt d dc sc r)).testBit b) := by
  have hj : d.l - 1 - b < d.l := by omega
  have hback : d.l - 1 - (d.l - 1 - b) = b := by omega
  have hplace : (d.l - 1 - b) * dcols d + dc < d.l * dcols d := by
    have := mul_add_le_mul_of_lt (m := dcols d) hj
    omega
  rw [snakeRow_eq, Nat.add_mul, Nat.mul_assoc, Nat.add_assoc,
    getElem?_flatMap_turn (subColumnBits_length d m r) hsc hplace, subColumnBits,
    getElem?_flatMap_turn (by simp) hj hdc, List.getElem?_map, List.getElem?_range hdc, Option.map_some, hback]

/-- A row's bits with the padding block before it, where it has one (R189). -/
def rowBits (d : Desc) (m : Matrix) (r : Nat) : List Bool :=
  (if periodic d r then padBlock d else []) ++ snakeRow d m r

theorem snake_eq (d : Desc) (m : Matrix) :
    snake d m = padBlock d ++ ((List.range d.rows).flatMap (rowBits d m) ++ padBlock d) :=
  List.append_assoc _ _ _

@[simp] theorem padBlock_length (d : Desc) : (padBlock d).length = dcols d := List.length_replicate

theorem padBlock_getElem? {k : Nat} (hk : k < dcols d) : (padBlock d)[k]? = some d.padBit := by
  rw [padBlock, List.getElem?_replicate, if_pos hk]

/-- The number of rows before `r` with a padding block. -/
def periodicBefore (d : Desc) (r : Nat) : Nat := ((List.range r).filter (periodic d)).length

theorem periodicBefore_succ (d : Desc) (r : Nat) :
    periodicBefore d (r + 1) = periodicBefore d r + if periodic d r then 1 else 0 := by
  rw [periodicBefore, List.range_succ, List.filter_append, List.length_append, periodicBefore]
  cases hper : periodic d r with
  | false => simp [hper]
  | true => simp [hper]

theorem rowBits_length (d : Desc) (m : Matrix) (r : Nat) :
    (rowBits d m r).length = (if periodic d r then dcols d else 0) + nSubCols * (d.l * dcols d) := by
  rw [rowBits, List.length_append, snakeRow_length]
  split
  · rw [padBlock_length]
  · rfl

/-- The bits of the rows before `r`. -/
theorem rowsBefore_length (d : Desc) (m : Matrix) (r : Nat) :
    ((List.range r).flatMap (rowBits d m)).length =
      dcols d * periodicBefore d r + r * (nSubCols * (d.l * dcols d)) := by
  induction r with
  | zero => simp [periodicBefore]
  | succ r ih =>
    rw [List.range_succ, List.flatMap_append, List.length_append, ih, List.flatMap_singleton, rowBits_length,
      periodicBefore_succ, Nat.succ_mul]
    split
    · rw [Nat.mul_add, Nat.mul_one]
      omega
    · rw [Nat.add_zero]
      omega

/-- Bit `k` of row `r` in the whole traversal. -/
theorem snake_getElem?_row (m : Matrix) {r k : Nat} (hr : r < d.rows) (hk : k < (rowBits d m r).length) :
    (snake d m)[dcols d + (dcols d * periodicBefore d r + r * (nSubCols * (d.l * dcols d)) + k)]? =
      (rowBits d m r)[k]? := by
  have hplace := getElem?_flatMap_after (rowBits d m) hr hk
  rw [rowsBefore_length] at hplace
  obtain ⟨hlt, -⟩ := List.getElem?_eq_some_iff.mp (hplace.trans (List.getElem?_eq_getElem hk))
  rw [snake_eq, List.getElem?_append_right (by simp), padBlock_length, Nat.add_sub_cancel_left,
    List.getElem?_append_left hlt, hplace]

theorem snake_length (d : Desc) (m : Matrix) :
    (snake d m).length =
      dcols d * (2 + periodicBefore d d.rows) + d.rows * (nSubCols * (d.l * dcols d)) := by
  rw [snake_eq, List.length_append, List.length_append, rowsBefore_length, padBlock_length, Nat.mul_add]
  omega

/-- The padding block before all rows. -/
theorem snake_getElem?_first (m : Matrix) {k : Nat} (hk : k < dcols d) : (snake d m)[k]? = some d.padBit := by
  rw [snake_eq, List.getElem?_append_left (by simpa using hk), padBlock_getElem? hk]

/-- The padding block behind all rows. -/
theorem snake_getElem?_last (m : Matrix) {k : Nat} (hk : k < dcols d) :
    (snake d m)[(snake d m).length - dcols d + k]? = some d.padBit := by
  have hlen : (snake d m).length - dcols d =
      (padBlock d ++ (List.range d.rows).flatMap (rowBits d m)).length := by
    simp [snake_eq]
    omega
  rw [hlen, snake_eq, ← List.append_assoc, List.getElem?_append_right (Nat.le_add_right _ _),
    Nat.add_sub_cancel_left, padBlock_getElem? hk]

/-- The padding block before row `r`, where it has one. -/
theorem snake_getElem?_pad (m : Matrix) {r k : Nat} (hr : r < d.rows) (hper : periodic d r = true) (hk : k < dcols d) :
    (snake d m)[dcols d * (1 + periodicBefore d r) + r * (nSubCols * (d.l * dcols d)) + k]? = some d.padBit := by
  have hin : k < (rowBits d m r).length := by
    rw [rowBits_length, if_pos hper]
    omega
  have hrow := snake_getElem?_row m hr hin
  rw [rowBits, if_pos hper, List.getElem?_append_left (by simpa using hk), padBlock_getElem? hk] at hrow
  rw [← hrow, Nat.mul_add, Nat.mul_one]
  congr 1
  omega

/-- The bits of the cells of row `r`, behind its padding block. -/
theorem snake_getElem?_cell (m : Matrix) {r sc b dc : Nat} (hr : r < d.rows) (hsc : sc < nSubCols) (hb : b < d.l)
    (hdc : dc < dcols d) :
    (snake d m)[dcols d * (1 + periodicBefore d r + (if periodic d r then 1 else 0)) +
        r * (nSubCols * (d.l * dcols d)) + ((sc * d.l + (d.l - 1 - b)) * dcols d + dc)]? =
      some ((cellAt d m (selAt d dc sc r)).testBit b) := by
  obtain ⟨pad, hpad⟩ : ∃ pad, pad = if periodic d r then padBlock d else [] := ⟨_, rfl⟩
  have hpadlen : pad.length = dcols d * if periodic d r then 1 else 0 := by
    rw [hpad]
    split
    · rw [padBlock_length, Nat.mul_one]
    · rfl
  have hcell := snakeRow_getElem? m r hsc hb hdc
  obtain ⟨hlt, -⟩ := List.getElem?_eq_some_iff.mp hcell
  have hrow := snake_getElem?_row (k := pad.length + ((sc * d.l + (d.l - 1 - b)) * dcols d + dc)) m hr
    (by rw [rowBits, ← hpad, List.length_append]; omega)
  rw [rowBits, ← hpad, List.getElem?_append_right (Nat.le_add_right _ _), Nat.add_sub_cancel_left, hcell] at hrow
  rw [← hrow, Nat.mul_add, Nat.mul_add, Nat.mul_one, ← hpadlen]
  congr 1
  omega

/-- A single-stage matrix in its type is encoded under pattern SNAKE (10_state R38). -/
theorem pattern_of_fits_single {cells : List (Coord × Nat)} (h : Matrix.fits d (.single cells) = true) :
    d.pattern = .snake := by
  simp only [Matrix.fits, Bool.and_eq_true, decide_eq_true_eq] at h
  obtain ⟨⟨hpattern, -⟩, -⟩ := h
  exact hpattern

/-- The rows with a padding block: every `SP_ROWS`-th, row 0 only with `PERIODIC_AT_ROW0` (R192). -/
theorem periodicBefore_eq (hsp : 1 ≤ d.spRows) {n : Nat} (hn : 1 ≤ n) :
    periodicBefore d n = (n + d.spRows - 1) / d.spRows - if d.periodicAtRow0 then 0 else 1 := by
  induction n, hn using Nat.le_induction with
  | base =>
    have hone : (1 + d.spRows - 1) / d.spRows = 1 := by
      rw [Nat.add_sub_cancel_left, Nat.div_self hsp]
    rw [hone, periodicBefore_succ]
    cases hrow0 : d.periodicAtRow0 with
    | false => simp [periodicBefore, periodic, hrow0]
    | true => simp [periodicBefore, periodic, hrow0]
  | succ n hn ih =>
    have hceil : (n + 1 + d.spRows - 1) / d.spRows =
        (n + d.spRows - 1) / d.spRows + if n % d.spRows = 0 then 1 else 0 := by
      have hnum : n + 1 + d.spRows - 1 = (n + d.spRows - 1) + 1 := by omega
      have hdvd : d.spRows ∣ n + d.spRows - 1 + 1 ↔ n % d.spRows = 0 := by
        rw [Nat.sub_add_cancel (by omega), Nat.dvd_add_self_right, Nat.dvd_iff_mod_eq_zero]
      rw [hnum, Nat.succ_div]
      exact congrArg _ (if_congr hdvd rfl rfl)
    have hper : periodic d n = decide (n % d.spRows = 0) := by
      have hpos : 0 < n := hn
      simp [periodic, hpos]
    have hfirst : 1 ≤ (n + d.spRows - 1) / d.spRows := (Nat.one_le_div_iff hsp).mpr (by omega)
    rw [periodicBefore_succ, ih, hceil, hper]
    simp only [decide_eq_true_eq]
    split <;> omega

end

/-! ### The obligations -/

/-- Settles O47: a row's bits stand behind the padding block of the start and the rows before it. -/
theorem snakeBitsFollowTheTraversal : Obligations.SnakeBitsFollowTheTraversal := by
  intro s d cells hd hdesc hfits per q dcols' nper
  subst hd
  have hp := pattern_of_fits_single hfits
  obtain ⟨heven, hsp, -⟩ := descWellFormed_snake hdesc hp
  obtain ⟨-, hrows, -⟩ := descWellFormed_matrix hdesc
  have hsize (r : Nat) : r * s.cfg.desc.l * s.cfg.desc.cols =
      r * (nSubCols * (s.cfg.desc.l * dcols s.cfg.desc)) := by
    rw [cols_eq_two_mul_dcols heven, nSubCols]
    ring
  have hper : nper = periodicBefore s.cfg.desc s.cfg.desc.rows := (periodicBefore_eq hsp hrows).symm
  refine ⟨snake s.cfg.desc (.single cells), pack8 s.cfg.desc (snake s.cfg.desc (.single cells)), ?_, ?_,
    fun k hk => ⟨snake_getElem?_first _ hk, snake_getElem?_last _ hk⟩, fun r k hr hper hk => ?_,
    fun r sc b dc hr hsc hb hdc => ?_⟩
  · rw [exec_progMatrix hdesc, progMatrixOut_snake hp]
    rfl
  · rw [snake_length, hper, hsize]
    rfl
  · rw [hsize]
    exact snake_getElem?_pad _ hr hper hk
  · rw [hsize, ← cellAt_single hfits]
    exact snake_getElem?_cell _ hr hsc hb hdc

end Sys2Proof.Machine
end

section
/-! PROOFS. The attempts of CONFIGURE_MATRIX (43_matrix_encoder R196 to R199): how they end, and with what the transport was
handed. -/

namespace Sys2Proof.Machine

section
variable {s : State} {d : Desc}

/-! ### The attempts of CONFIGURE_MATRIX (R196, R199) -/

/-- After `k` failed attempts the loop stands `k` attempts further, with the output handed out `k` times more. -/
theorem configureLoop_of_mismatches (out : MatrixOut) {k : Nat} {rest : List VerifyAnswer}
    (h : s.verifyAnswers = List.replicate k .mismatch ++ rest) (n a : Nat) :
    configureLoop out (k + n) a s =
      configureLoop out n (a + k) { s with verifyAnswers := rest, sent := s.sent ++ List.replicate k out } := by
  induction k generalizing s a with
  | zero =>
    obtain rfl : s.verifyAnswers = rest := h
    simp
  | succ k ih =>
    rw [List.replicate_succ, List.cons_append] at h
    rw [Nat.succ_add, configureLoop_succ, State.askVerify_given (s.handOut out) _ _ h]
    simp only
    rw [ih rfl, Nat.add_assoc a 1 k, Nat.add_comm 1 k]
    simp [List.replicate_succ]

theorem configureLoop_of_passed (out : MatrixOut) {rest : List VerifyAnswer} (h : s.verifyAnswers = .passed :: rest)
    (n a : Nat) :
    configureLoop out (n + 1) a s =
      answer { s with verifyAnswers := rest, sent := s.sent ++ [out] } (.attempts a) := by
  rw [configureLoop_succ, State.askVerify_given (s.handOut out) _ _ h]
  rfl

theorem configureLoop_of_silent (out : MatrixOut) {rest : List VerifyAnswer} (h : s.verifyAnswers = .silent :: rest)
    (n a : Nat) : configureLoop out (n + 1) a s = .fault .transportNeverAnswers := by
  rw [configureLoop_succ, State.askVerify_given (s.handOut out) _ _ h]

/-- A transport without a silent answer given in advance answers, and none is left behind (log 5). -/
theorem askVerify_of_not_silent (h : VerifyAnswer.silent ∉ s.verifyAnswers) :
    s.askVerify.1 ≠ .silent ∧ VerifyAnswer.silent ∉ s.askVerify.2.verifyAnswers := by
  obtain ⟨a, rest, hgiven, heq⟩ | ⟨hnone, hne, heq⟩ := askVerify_cases s
  · rw [hgiven, List.mem_cons, not_or] at h
    rw [heq]
    exact ⟨Ne.symm h.1, h.2⟩
  · rw [heq]
    exact ⟨hne, h⟩

/-- What a loop of `n` attempts, the next one being attempt `a`, can end with: success at one of them, or failure after
all of them, the output handed out once an attempt. -/
def AttemptsEnd (out : MatrixOut) (n a : Nat) (s u : State) : Prop :=
  ∃ k, k ≤ n ∧ u.sent = s.sent ++ List.replicate k out ∧
    ((1 ≤ k ∧ u.resp = some (okResponse (.attempts (a + k - 1)))) ∨
      (k = n ∧ u.resp = some (errorResponse .errCommFatal (.attempts (a + n - 1)))))

/-- One more attempt before them. -/
theorem AttemptsEnd.succ {out : MatrixOut} {n a : Nat} {s₁ u : State} (h : AttemptsEnd out n (a + 1) s₁ u)
    (hsent : s₁.sent = s.sent ++ [out]) : AttemptsEnd out (n + 1) a s u := by
  obtain ⟨k, hk, hu, hresp⟩ := h
  have hnext (j : Nat) : a + 1 + j - 1 = a + (j + 1) - 1 := by omega
  rw [hsent, List.append_assoc, List.singleton_append, ← List.replicate_succ] at hu
  rw [hnext, hnext] at hresp
  exact ⟨k + 1, by omega, hu, hresp.imp (fun h => ⟨by omega, h.2⟩) fun h => ⟨by omega, h.2⟩⟩

/-- A transport that always answers lets the attempts end. -/
theorem configureLoop_of_not_silent (out : MatrixOut) (n a : Nat) (h : VerifyAnswer.silent ∉ s.verifyAnswers) :
    ∃ u, configureLoop out n a s = .next u ∧ AttemptsEnd out n a s u := by
  induction n generalizing s a with
  | zero => exact ⟨_, rfl, 0, le_rfl, by simp, .inr ⟨rfl, rfl⟩⟩
  | succ n ih =>
    have hsent : (s.handOut out).askVerify.2.sent = s.sent ++ [out] := by simp
    obtain ⟨hne, hrest⟩ := askVerify_of_not_silent (s := s.handOut out) h
    rw [configureLoop_succ]
    cases hask : (s.handOut out).askVerify with
    | mk v s₁ =>
      rw [hask] at hsent hne hrest
      cases v with
      | passed => exact ⟨_, rfl, 1, by omega, hsent, .inl ⟨le_rfl, rfl⟩⟩
      | mismatch =>
        obtain ⟨u, hu, hend⟩ := ih (a + 1) hrest
        exact ⟨u, hu, hend.succ hsent⟩
      | silent => exact absurd rfl hne

theorem configureLoop_ne_refused (out : MatrixOut) (n a : Nat) (r : Refusal) :
    configureLoop out n a s ≠ .refused r := by
  induction n generalizing s a with
  | zero => simp [configureLoop_zero]
  | succ n ih =>
    rw [configureLoop_succ]
    split
    · simp
    · exact ih _
    · simp

theorem attemptLimit_eq (d : Desc) (maxAttempts : Word) :
    attemptLimit d maxAttempts.toNat = if maxAttempts = 0 then d.maxAttempts else maxAttempts.toNat :=
  if_congr (by rw [← BitVec.toNat_inj]; rfl) rfl rfl

theorem attemptLimit_pos (hdesc : descWellFormed d = true) (n : Nat) : 1 ≤ attemptLimit d n := by
  obtain ⟨-, -, hmax⟩ := descWellFormed_matrix hdesc
  unfold attemptLimit
  split
  · exact hmax
  · omega

end

/-! ### The obligations -/

/-- Settles O50: `k` attempts fail and the next one ends the loop. -/
theorem configureMatrixSucceedsWhenVerified : Obligations.ConfigureMatrixSucceedsWhenVerified := by
  intro s m maxAttempts k rest hdesc hk hanswers
  rw [← attemptLimit_eq] at hk
  obtain ⟨n, hn⟩ := Nat.exists_eq_add_of_lt hk
  refine ⟨progMatrixOut s.cfg.desc m, exec_progMatrix hdesc m, ?_⟩
  rw [exec_configureMatrix hdesc, hn, Nat.add_assoc, configureLoop_of_mismatches _ hanswers,
    configureLoop_of_passed _ rfl, List.append_assoc, ← List.replicate_succ', Nat.add_comm 1 k]
  rfl

/-- Settles O51: with all attempts failed the loop has none left. -/
theorem configureMatrixExhaustsItsAttempts : Obligations.ConfigureMatrixExhaustsItsAttempts := by
  intro s m maxAttempts a rest hdesc ha hanswers
  rw [← attemptLimit_eq] at ha
  refine ⟨progMatrixOut s.cfg.desc m, exec_progMatrix hdesc m, ?_⟩
  rw [exec_configureMatrix hdesc, ← ha, ← Nat.add_zero a, configureLoop_of_mismatches _ hanswers, configureLoop_zero,
    Nat.add_sub_cancel_left]
  rfl

/-- Settles O52: the loop ends with success or with its last attempt. -/
theorem configureMatrixIsBounded : Obligations.ConfigureMatrixIsBounded := by
  intro s m maxAttempts a hdesc ha hsilent
  rw [← attemptLimit_eq] at ha
  have hpos : 1 ≤ a := ha ▸ attemptLimit_pos hdesc maxAttempts.toNat
  obtain ⟨u, hu, k, hk, hsent, hresp⟩ := configureLoop_of_not_silent (progMatrixOut s.cfg.desc m) a 1 hsilent
  obtain ⟨hreg, -⟩ := configureLoop_frame hu
  refine ⟨progMatrixOut s.cfg.desc m, exec_progMatrix hdesc m, k, u, ?_, ?_, hk, hsent, hreg, ?_⟩
  · rw [exec_configureMatrix hdesc, ← ha, hu]
  · obtain ⟨hk, -⟩ | ⟨rfl, -⟩ := hresp
    · exact hk
    · exact hpos
  · rw [Nat.add_sub_cancel_left, Nat.add_sub_cancel_left] at hresp
    exact hresp.imp (fun h => h.2) fun h => h

end Sys2Proof.Machine
end

section
/-! PROOFS. ADD_PARAM_ORD (40_registry R104, R105): the bit-order text, its tokens and its order (30_encoding R77 to R79), and
the checks behind it. -/

namespace Sys2Proof.Machine

section
variable {s t : State} {text : ByteString} {toks : List ByteString}

/-! ### Splitting a text at its commas (30_encoding R78) -/

theorem isComma_iff (b : Byte) : isComma b = true ↔ b = 0x2C#8 := beq_iff_eq

theorem isDigit_iff (b : Byte) : isDigit b = true ↔ 0x30 ≤ b.toNat ∧ b.toNat ≤ 0x39 := by
  simp [isDigit]

theorem isComma_of_digit {b : Byte} (hb : 0x30 ≤ b.toNat ∧ b.toNat ≤ 0x39) : isComma b = false := by
  rw [Bool.eq_false_iff, Ne, isComma_iff]
  rintro rfl
  simp at hb

theorem splitCommas_comma (bs : ByteString) : splitCommas (0x2C#8 :: bs) = [] :: splitCommas bs := rfl

/-- A text has at least one token; a character that is no comma goes to the first one. -/
theorem splitCommas_cons {b : Byte} (hb : isComma b = false) (bs : ByteString) :
    ∃ tok toks, splitCommas bs = tok :: toks ∧ splitCommas (b :: bs) = (b :: tok) :: toks := by
  induction bs generalizing b with
  | nil => exact ⟨[], [], rfl, by simp [splitCommas, hb]⟩
  | cons c bs ih =>
    have hne : ∃ tok toks, splitCommas (c :: bs) = tok :: toks := by
      cases hc : isComma c with
      | true => exact ⟨[], splitCommas bs, by simp [splitCommas, hc]⟩
      | false =>
        obtain ⟨tok, toks, -, h⟩ := ih hc
        exact ⟨_, _, h⟩
    obtain ⟨tok, toks, h⟩ := hne
    refine ⟨tok, toks, h, ?_⟩
    rw [splitCommas, h, hb]
    rfl

/-- A comma cuts the text in two. -/
theorem splitCommas_append_comma (as bs : ByteString) :
    splitCommas (as ++ 0x2C#8 :: bs) = splitCommas as ++ splitCommas bs := by
  induction as with
  | nil => rfl
  | cons a as ih =>
    cases ha : isComma a with
    | true =>
      obtain rfl := (isComma_iff a).mp ha
      rw [List.cons_append, splitCommas_comma, splitCommas_comma, ih, List.cons_append]
    | false =>
      obtain ⟨tok, toks, h, hcons⟩ := splitCommas_cons ha as
      obtain ⟨tok', toks', h', hcons'⟩ := splitCommas_cons ha (as ++ 0x2C#8 :: bs)
      rw [ih, h, List.cons_append, List.cons.injEq] at h'
      obtain ⟨rfl, rfl⟩ := h'
      rw [List.cons_append, hcons', hcons, List.cons_append]

theorem splitCommas_of_noComma {tok : ByteString} (h : ∀ b ∈ tok, isComma b = false) : splitCommas tok = [tok] := by
  induction tok with
  | nil => rfl
  | cons b bs ih =>
    obtain ⟨hb, hbs⟩ := List.forall_mem_cons.mp h
    obtain ⟨tok, toks, heq, hcons⟩ := splitCommas_cons hb bs
    rw [ih hbs, List.cons.injEq] at heq
    obtain ⟨rfl, rfl⟩ := heq
    exact hcons

/-- The tokens hold the characters of the text that are no commas. -/
theorem mem_of_mem_splitCommas {tok : ByteString} (htok : tok ∈ splitCommas text) {b : Byte} (hb : b ∈ tok) :
    b ∈ text ∧ isComma b = false := by
  induction text generalizing tok with
  | nil =>
    obtain rfl : tok = [] := by simpa [splitCommas] using htok
    cases hb
  | cons c text ih =>
    cases hc : isComma c with
    | true =>
      obtain rfl := (isComma_iff c).mp hc
      rw [splitCommas_comma] at htok
      obtain rfl | htok := List.mem_cons.mp htok
      · cases hb
      · obtain ⟨hmem, hno⟩ := ih htok hb
        exact ⟨List.mem_cons_of_mem _ hmem, hno⟩
    | false =>
      obtain ⟨first, toks, heq, hcons⟩ := splitCommas_cons hc text
      rw [hcons] at htok
      obtain rfl | htok := List.mem_cons.mp htok
      · obtain rfl | hb := List.mem_cons.mp hb
        · exact ⟨List.mem_cons_self, hc⟩
        · obtain ⟨hmem, hno⟩ := ih (heq ▸ List.mem_cons_self) hb
          exact ⟨List.mem_cons_of_mem _ hmem, hno⟩
      · obtain ⟨hmem, hno⟩ := ih (heq ▸ List.mem_cons_of_mem _ htok) hb
        exact ⟨List.mem_cons_of_mem _ hmem, hno⟩

/-- The tokens and the commas between them make up the text. -/
theorem splitCommas_length_sum (text : ByteString) :
    ((splitCommas text).map List.length).sum + (splitCommas text).length = text.length + 1 := by
  induction text with
  | nil => rfl
  | cons c text ih =>
    cases hc : isComma c with
    | true =>
      obtain rfl := (isComma_iff c).mp hc
      rw [splitCommas_comma]
      simp only [List.map_cons, List.sum_cons, List.length_cons, List.length_nil]
      omega
    | false =>
      obtain ⟨tok, toks, heq, hcons⟩ := splitCommas_cons hc text
      rw [heq] at ih
      rw [hcons]
      simp only [List.map_cons, List.sum_cons, List.length_cons] at ih ⊢
      omega

/-! ### Tokens (30_encoding R77, R78) -/

theorem noComma_of_isToken {tok : ByteString} (h : IsToken tok) : ∀ b ∈ tok, isComma b = false :=
  fun b hb => isComma_of_digit (h.2 b hb)

theorem joinTokens_cons_cons (tok tok' : ByteString) (toks : List ByteString) :
    joinTokens (tok :: tok' :: toks) = tok ++ 0x2C#8 :: joinTokens (tok' :: toks) := by
  simp [joinTokens, List.intercalate_cons_cons]

theorem joinTokens_singleton (tok : ByteString) : joinTokens [tok] = tok := by
  simp [joinTokens]

/-- Splitting undoes joining. -/
theorem splitCommas_joinTokens (hne : toks ≠ []) (h : ∀ tok ∈ toks, IsToken tok) :
    splitCommas (joinTokens toks) = toks := by
  induction toks with
  | nil => exact absurd rfl hne
  | cons tok toks ih =>
    obtain ⟨htok, htoks⟩ := List.forall_mem_cons.mp h
    have hfirst := splitCommas_of_noComma (noComma_of_isToken htok)
    cases toks with
    | nil => rw [joinTokens_singleton, hfirst]
    | cons tok' toks =>
      rw [joinTokens_cons_cons, splitCommas_append_comma, hfirst, ih (by simp) htoks, List.singleton_append]

/-- The characters of joined tokens are digits and commas. -/
theorem mem_joinTokens (h : ∀ tok ∈ toks, IsToken tok) {b : Byte} (hb : b ∈ joinTokens toks) :
    b = 0x2C#8 ∨ (0x30 ≤ b.toNat ∧ b.toNat ≤ 0x39) := by
  induction toks with
  | nil => simp [joinTokens] at hb
  | cons tok toks ih =>
    obtain ⟨⟨-, htok⟩, htoks⟩ := List.forall_mem_cons.mp h
    cases toks with
    | nil =>
      rw [joinTokens_singleton] at hb
      exact .inr (htok b hb)
    | cons tok' toks =>
      rw [joinTokens_cons_cons, List.mem_append, List.mem_cons] at hb
      obtain hb | rfl | hb := hb
      · exact .inr (htok b hb)
      · exact .inl rfl
      · exact ih htoks hb

theorem decimalValue_eq_tokenValue (tok : ByteString) : decimalValue tok = tokenValue tok := by
  have hfold (acc : Nat) :
      tok.foldl (fun acc b => 10 * acc + (b.toNat - 0x30)) acc = acc * 10 ^ tok.length + tokenValue tok := by
    induction tok generalizing acc with
    | nil => simp [tokenValue]
    | cons b bs ih =>
      rw [List.foldl_cons, ih, tokenValue, List.length_cons]
      ring
  rw [decimalValue, hfold, Nat.zero_mul, Nat.zero_add]

/-- A token of `n` digits stands for a number below `10^n`. -/
theorem tokenValue_lt {tok : ByteString} (h : ∀ b ∈ tok, 0x30 ≤ b.toNat ∧ b.toNat ≤ 0x39) :
    tokenValue tok < 10 ^ tok.length := by
  induction tok with
  | nil => simp [tokenValue]
  | cons b bs ih =>
    obtain ⟨⟨-, hb⟩, hbs⟩ := List.forall_mem_cons.mp h
    have hdigit : (b.toNat - 0x30) * 10 ^ bs.length ≤ 9 * 10 ^ bs.length := Nat.mul_le_mul_right _ (by omega)
    have hrest := ih hbs
    rw [tokenValue, List.length_cons, Nat.pow_succ]
    omega

/-! ### The order a text gives (30_encoding R78, R79) -/

theorem parseOrder_of_badText (h : text.length < 1 ∨ 80 < text.length ∨
    ∃ b ∈ text, b ≠ 0x2C#8 ∧ ¬ (0x30 ≤ b.toNat ∧ b.toNat ≤ 0x39)) : parseOrder text = .error .errBadText := by
  unfold parseOrder
  split
  · rfl
  next hlen =>
    simp only [textMin, textMax] at hlen
    obtain ⟨b, hb, hcomma, hdigit⟩ : ∃ b ∈ text, b ≠ 0x2C#8 ∧ ¬ (0x30 ≤ b.toNat ∧ b.toNat ≤ 0x39) := by
      obtain h | h | h := h
      · omega
      · omega
      · exact h
    rw [if_pos]
    rw [← isDigit_iff, Bool.not_eq_true] at hdigit
    have hcomma : isComma b = false := by rwa [Bool.eq_false_iff, Ne, isComma_iff]
    exact List.any_eq_true.mpr ⟨b, hb, by simp [hdigit, hcomma]⟩

/-- A text of a legal length over digits and commas has its tokens checked. -/
theorem parseOrder_of_text (hmin : 1 ≤ text.length) (hmax : text.length ≤ 80)
    (halpha : ∀ b ∈ text, b = 0x2C#8 ∨ (0x30 ≤ b.toNat ∧ b.toNat ≤ 0x39)) :
    parseOrder text =
      if (splitCommas text).any (fun tok => tok.isEmpty) then .error .errBadOrder
      else if ((splitCommas text).map decimalValue).isPerm (List.range (splitCommas text).length) then
        .ok ((splitCommas text).map decimalValue)
      else .error .errBadOrder := by
  have hlen : ¬ (text.length < textMin ∨ textMax < text.length) := by
    simp only [textMin, textMax]
    omega
  have hchars : ¬ text.any (fun b => !(isDigit b || isComma b)) = true := by
    rw [List.any_eq_true]
    rintro ⟨b, hb, hbad⟩
    have hgood : isDigit b = true ∨ isComma b = true := by
      rw [isDigit_iff, isComma_iff]
      exact (halpha b hb).symm
    obtain hgood | hgood := hgood
    · simp [hgood] at hbad
    · simp [hgood] at hbad
  rw [parseOrder, if_neg hlen, if_neg hchars]

theorem parseOrder_of_emptyToken (hmin : 1 ≤ text.length) (hmax : text.length ≤ 80)
    (halpha : ∀ b ∈ text, b = 0x2C#8 ∨ (0x30 ≤ b.toNat ∧ b.toNat ≤ 0x39)) (hempty : [] ∈ splitCommas text) :
    parseOrder text = .error .errBadOrder := by
  rw [parseOrder_of_text hmin hmax halpha, if_pos]
  exact List.any_eq_true.mpr ⟨[], hempty, rfl⟩

/-- A comma at an end of the text or beside another comma leaves an empty token. -/
theorem nil_mem_splitCommas
    (h : text.head? = some 0x2C#8 ∨ text.getLast? = some 0x2C#8 ∨ [0x2C#8, 0x2C#8] <:+: text) :
    [] ∈ splitCommas text := by
  obtain hhead | hlast | ⟨as, bs, rfl⟩ := h
  · obtain ⟨bs, rfl⟩ := List.head?_eq_some_iff.mp hhead
    exact List.mem_cons_self
  · obtain ⟨as, rfl⟩ := List.getLast?_eq_some_iff.mp hlast
    rw [splitCommas_append_comma]
    exact List.mem_append_right _ List.mem_cons_self
  · rw [List.append_assoc, List.cons_append, splitCommas_append_comma]
    exact List.mem_append_right _ List.mem_cons_self

/-- Joined tokens in a text of legal length give their numbers as the order, if these are a permutation. -/
theorem parseOrder_joinTokens (hne : toks ≠ []) (h : ∀ tok ∈ toks, IsToken tok) (hmax : (joinTokens toks).length ≤ 80) :
    parseOrder (joinTokens toks) =
      if (toks.map tokenValue).isPerm (List.range toks.length) then .ok (toks.map tokenValue)
      else .error .errBadOrder := by
  have hsplit := splitCommas_joinTokens hne h
  have hmin : 1 ≤ (joinTokens toks).length := by
    obtain ⟨tok, rest, rfl⟩ := List.exists_cons_of_ne_nil hne
    have hfirst := List.length_pos_of_ne_nil (h tok List.mem_cons_self).1
    have hsum := splitCommas_length_sum (joinTokens (tok :: rest))
    rw [hsplit] at hsum
    simp only [List.map_cons, List.sum_cons, List.length_cons] at hsum
    omega
  have hfull : ¬ toks.any (fun tok => tok.isEmpty) = true := by
    rw [List.any_eq_true]
    rintro ⟨tok, htok, hempty⟩
    exact (h tok htok).1 (List.isEmpty_iff.mp hempty)
  rw [parseOrder_of_text hmin hmax fun b hb => mem_joinTokens h hb, hsplit, if_neg hfull,
    List.map_congr_left fun tok _ => decimalValue_eq_tokenValue tok]

/-- A text that is accepted has tokens only. -/
theorem isToken_of_parseOrder {order : List Nat} (h : parseOrder text = .ok order) :
    ∀ tok ∈ splitCommas text, IsToken tok := by
  unfold parseOrder at h
  split at h
  · cases h
  split at h
  · cases h
  next halpha =>
    split at h
    · cases h
    next hempty =>
      intro tok htok
      refine ⟨?_, fun b hb => ?_⟩
      · rintro rfl
        exact hempty (List.any_eq_true.mpr ⟨[], htok, rfl⟩)
      · obtain ⟨hmem, hcomma⟩ := mem_of_mem_splitCommas htok hb
        have hgood : isDigit b = true := by
          by_contra hdigit
          exact halpha (List.any_eq_true.mpr ⟨b, hmem, by simp [hcomma, hdigit]⟩)
        exact (isDigit_iff b).mp hgood

theorem parseOrder_error {st : Status} (h : parseOrder text = .error st) : st = .errBadText ∨ st = .errBadOrder := by
  unfold parseOrder at h
  split at h
  · cases h
    exact .inl rfl
  split at h
  · cases h
    exact .inl rfl
  split at h
  · cases h
    exact .inr rfl
  split at h
  · cases h
  · cases h
    exact .inr rfl

/-- The digits a number below 100 needs, and at least 2 for any other. -/
def digitsNeeded (n : Nat) : Nat := if n < 10 then 1 else 2

theorem sum_digitsNeeded_range {m : Nat} (hm : 10 ≤ m) : ((List.range m).map digitsNeeded).sum + 10 = 2 * m := by
  induction m, hm using Nat.le_induction with
  | base => rfl
  | succ m hm ih =>
    have htwo : digitsNeeded m = 2 := if_neg (Nat.not_lt.mpr hm)
    rw [List.range_succ, List.map_append, List.sum_append, List.map_singleton, List.sum_singleton, htwo]
    omega

theorem digitsNeeded_tokenValue_le {tok : ByteString} (h : IsToken tok) : digitsNeeded (tokenValue tok) ≤ tok.length := by
  obtain ⟨hne, hdigits⟩ := h
  have hpos := List.length_pos_of_ne_nil hne
  unfold digitsNeeded
  split
  · exact hpos
  next hbig =>
    by_contra hshort
    have hlen : tok.length = 1 := by omega
    have := tokenValue_lt hdigits
    rw [hlen] at this
    omega

/-- 80 characters hold the numbers below 30, and no more of them (R79). -/
theorem parseOrder_width_le {order : List Nat} (h : parseOrder text = .ok order) : order.length ≤ 30 := by
  obtain ⟨-, hmax, rfl, hperm⟩ := parseOrder_ok h
  have htoks := isToken_of_parseOrder h
  have hsum := splitCommas_length_sum text
  have hneeded : (((splitCommas text).map decimalValue).map digitsNeeded).sum ≤
      ((splitCommas text).map List.length).sum := by
    rw [List.map_map]
    refine List.sum_le_sum fun tok htok => ?_
    rw [Function.comp_apply, decimalValue_eq_tokenValue]
    exact digitsNeeded_tokenValue_le (htoks tok htok)
  rw [(hperm.map digitsNeeded).sum_eq] at hneeded
  rw [List.length_map]
  by_contra hlarge
  have hrange := sum_digitsNeeded_range (m := (splitCommas text).length) (by omega)
  omega

/-- An accepted text gives a permutation of a legal width (10_state R23). -/
theorem parseOrder_legal {order : List Nat} (h : parseOrder text = .ok order) :
    1 ≤ order.length ∧ order.length ≤ 30 ∧ order.Perm (List.range order.length) := by
  have hmax := parseOrder_width_le h
  obtain ⟨-, -, rfl, hperm⟩ := parseOrder_ok h
  refine ⟨?_, hmax, by rwa [List.length_map]⟩
  have hsum := splitCommas_length_sum text
  cases hsplit : splitCommas text with
  | nil =>
    rw [hsplit] at hsum
    simp at hsum
  | cons tok toks => simp

/-! ### ADD_PARAM_ORD (40_registry R104, R105) -/

theorem exec_addParamOrd_of_error {st : Status} (h : parseOrder text = .error st) (name : ByteString) (initial : Word) :
    exec (.addParamOrd name text initial) s = raise s st .none := by
  change execAddParamOrd name text initial s = _
  rw [execAddParamOrd, h]

theorem exec_addParamOrd_of_ok {pos : List Nat} (h : parseOrder text = .ok pos) (name : ByteString) (initial : Word) :
    exec (.addParamOrd name text initial) s = addEntry s name pos initial.toNat := by
  change execAddParamOrd name text initial s = _
  rw [execAddParamOrd, h]

theorem addEntry_of_badName {name : ByteString}
    (h : name = [] ∨ (s.cfg.nameMax.any fun m => decide (m < name.length)) = true) (pos : List Nat) (initial : Nat) :
    addEntry s name pos initial = raise s .errBadName .none :=
  if_pos ((nameBad_iff s.cfg name).mpr h)

theorem addEntry_of_dupName {name : ByteString}
    (h : ¬ (name = [] ∨ (s.cfg.nameMax.any fun m => decide (m < name.length)) = true))
    (hdup : ∃ e ∈ s.reg, e.name = name) (pos : List Nat) (initial : Nat) :
    addEntry s name pos initial = raise s .errDupName .none := by
  rw [addEntry, if_neg (mt (nameBad_iff s.cfg name).mp h), if_pos ((resolveName_isSome_iff s.reg name).mpr hdup)]

theorem addEntry_of_regFull {name : ByteString}
    (h : ¬ (name = [] ∨ (s.cfg.nameMax.any fun m => decide (m < name.length)) = true))
    (hdup : ¬ ∃ e ∈ s.reg, e.name = name) (hfull : (s.cfg.regCapacity.any fun c => decide (c ≤ s.reg.length)) = true)
    (pos : List Nat) (initial : Nat) : addEntry s name pos initial = raise s .errRegFull .none := by
  rw [addEntry, if_neg (mt (nameBad_iff s.cfg name).mp h), if_neg (mt (resolveName_isSome_iff s.reg name).mp hdup),
    regFull_eq, if_pos hfull]

/-- AddParameter answers `OK` only by appending the entry with its clamped value. -/
theorem addEntry_ok {name : ByteString} {pos : List Nat} {initial : Nat} (h : addEntry s name pos initial = .next t)
    (hok : HasStatus t .ok) :
    t = (s.appendEntry ⟨name, pos, clampValue initial pos.length⟩).respond (okResponse .absent) := by
  obtain ⟨st, herr, hst⟩ | ⟨heq, -⟩ := addEntry_cases (s := s) name pos initial
  · cases herr.symm.trans h
    cases hok
    simp at hst
  · cases heq.symm.trans h
    rfl

end

/-! ### The obligations -/

/-- Settles O21: the tokens' numbers are the order, and the entry can be added. -/
theorem addParamOrdAppendsTheParsedOrder : Obligations.AddParamOrdAppendsTheParsedOrder := by
  intro s name toks initial hne htoks hmax hperm hadd
  have hparse := parseOrder_joinTokens hne htoks hmax
  rw [if_pos (List.isPerm_iff.mpr hperm)] at hparse
  rw [exec_addParamOrd_of_ok hparse, addEntry_of_canAdd hadd, List.length_map]

/-- Settles O22: the text's checks are those of `parseOrder`, the others those of both AddParameter forms. -/
theorem addParamOrdChecksInOrder : Obligations.AddParamOrdChecksInOrder := by
  intro s name text toks initial
  refine ⟨fun hbad => ?_, fun hmin hmax halpha hempty => ?_, fun hne htoks hmax => ?_⟩
  · exact exec_addParamOrd_of_error (parseOrder_of_badText hbad) name initial
  · exact exec_addParamOrd_of_error (parseOrder_of_emptyToken hmin hmax halpha (nil_mem_splitCommas hempty)) name initial
  have hparse := parseOrder_joinTokens hne htoks hmax
  refine ⟨fun hperm => ?_, fun hperm => ?_⟩
  · rw [if_neg (mt List.isPerm_iff.mp hperm)] at hparse
    exact exec_addParamOrd_of_error hparse name initial
  · rw [if_pos (List.isPerm_iff.mpr hperm)] at hparse
    rw [exec_addParamOrd_of_ok hparse]
    exact ⟨fun hname => addEntry_of_badName hname _ _, fun hname hdup => addEntry_of_dupName hname hdup _ _,
      fun hname hdup hfull => addEntry_of_regFull hname hdup hfull _ _⟩

/-- Settles O23: an accepted text lists a permutation, and 80 characters hold at most 30 numbers of one. -/
theorem acceptedOrderTextsGiveLegalWidths : Obligations.AcceptedOrderTextsGiveLegalWidths := by
  intro s t name text initial h hok
  cases hparse : parseOrder text with
  | error st =>
    cases (exec_addParamOrd_of_error hparse name initial).symm.trans h
    cases hok
    simpa using parseOrder_error hparse
  | ok pos =>
    rw [exec_addParamOrd_of_ok hparse] at h
    obtain ⟨hmin, hmax, hperm⟩ := parseOrder_legal hparse
    obtain rfl := addEntry_ok h hok
    exact ⟨_, rfl, rfl, hmin, hmax, hperm, rfl⟩

end Sys2Proof.Machine
end

section
/-! PROOFS. Reading the registry (40_registry R109, R112 to R117): lookups that hit, setting by name and by index, and what
is read after a value was set (20_memory R63). -/

namespace Sys2Proof.Machine

section
variable {s t : State}

/-! ### Lookups (40_registry R109, R112 to R117) -/

theorem entryAt_some {reg : List Entry} {i : Nat} {e : Entry} (hi : reg[i]? = some e) : entryAt reg (some i) = some e :=
  hi

/-- An index resolves by the number of the entries alone. -/
theorem resolveIdx_congr {reg reg' : List Entry} (h : reg.length = reg'.length) (index : Word) :
    resolveIdx reg index = resolveIdx reg' index := by
  rw [resolveIdx, resolveIdx, h]

/-- A name resolves by the names of the entries alone. -/
theorem resolveName_congr {reg reg' : List Entry} (h : reg.map Entry.name = reg'.map Entry.name) (name : ByteString) :
    resolveName reg name = resolveName reg' name := by
  have hnames (reg : List Entry) : resolveName reg name = (reg.map Entry.name).findIdx? (· == name) := by
    rw [List.findIdx?_map]
    rfl
  rw [hnames, hnames, h]

/-- SetParameter answers `OK` only with the new value at the resolved address, every index and every name resolving as
before. -/
theorem setParam_ok {key : Option Nat} {value : Nat} (h : setParam s key value = .next t) (hok : HasStatus t .ok) :
    valueOrMiss (entryAt t.reg key) = value ∧ t.reg.length = s.reg.length ∧
      t.reg.map Entry.name = s.reg.map Entry.name := by
  obtain ⟨st, herr, hst⟩ | ⟨i, e, rfl, hi, -, heq⟩ := setParam_cases (s := s) key value
  · cases herr.symm.trans h
    cases hok
    simp at hst
  · cases heq.symm.trans h
    obtain ⟨hlt, rfl⟩ := List.getElem?_eq_some_iff.mp hi
    rw [State.respond_reg, State.setEntryValue_reg_of_getElem? hi]
    refine ⟨?_, List.length_set, ?_⟩
    · rw [entryAt_some (List.getElem?_set_self hlt)]
      rfl
    · rw [List.map_set, ← List.getElem_map (f := Entry.name) (h := by simpa using hlt), List.set_getElem_self]

end

/-! ### The obligations -/

/-- Settles O26: the index found resolves to the entry of that name, and -1 to nothing. -/
theorem setByNameIsLookupThenSetByIndex : Obligations.SetByNameIsLookupThenSetByIndex := by
  intro s t name value index n h hresp hindex
  rw [exec_getName2Idx] at h
  cases h
  cases hresp
  rw [exec_setParamName, exec_setParamIdx]
  cases hname : resolveName s.reg name with
  | none =>
    rw [hname] at hindex
    have hneg : index.toInt = -1 := hindex
    rw [(resolveIdx_eq_none s.reg index).mpr (.inl (by omega))]
  | some i =>
    rw [hname] at hindex
    obtain ⟨e, hi, -⟩ := resolveName_some s.reg name i hname
    rw [resolveIdx_of_getElem? hindex hi]

/-- Settles O27: the index resolves to the entry. -/
theorem lookupsByIndexHit : Obligations.LookupsByIndexHit := by
  intro s index i e hidx hi
  rw [exec_getParamIdx, exec_getWidthIdx, exec_getOrderIdx, exec_getName, exec_getIdx2Name,
    resolveIdx_of_getElem? hidx hi, entryAt_some hi]
  exact ⟨rfl, rfl, rfl, rfl, rfl⟩

/-- Settles O28: the name resolves to the entry. -/
theorem lookupsByNameHit : Obligations.LookupsByNameHit := by
  intro s i e hnodup hi
  rw [exec_getParamName, exec_getWidthName, exec_getOrderName, exec_getName2Idx, resolveName_of_getElem? hnodup hi,
    entryAt_some hi]
  exact ⟨rfl, rfl, rfl, rfl⟩

/-- Settles O30: the key resolves after the write as before it. -/
theorem getReadsWhatSetWrote : Obligations.GetReadsWhatSetWrote := by
  intro s t index value name
  constructor
  · intro h hok
    obtain ⟨hvalue, hlen, -⟩ := setParam_ok ((exec_setParamIdx index value).symm.trans h) hok
    rw [exec_getParamIdx, resolveIdx_congr hlen, hvalue]
    rfl
  · intro h hok
    obtain ⟨hvalue, -, hnames⟩ := setParam_ok ((exec_setParamName name value).symm.trans h) hok
    rw [exec_getParamName, resolveName_congr hnames, hvalue]
    rfl

end Sys2Proof.Machine
end

section
/-! PROOFS. GEN_BITVEC on a registry of one entry (41_serializer R142, R147). -/

namespace Sys2Proof.Machine

section
variable {s t : State}

/-! ### One entry under GEN_BITVEC (41_serializer R142) -/

theorem joinedSlices_singleton (e : Entry) (rev : Bool) : joinedSlices [e] rev = slice e rev := by
  simp [joinedSlices]

theorem slice_true (e : Entry) : slice e true = (e.pos.map fun p => e.value.testBit p).reverse := rfl

/-- A reversed scan sends the same bits. -/
theorem slice_perm (e : Entry) (rev : Bool) : (slice e rev).Perm (e.pos.map fun p => e.value.testBit p) := by
  cases rev with
  | false => exact .refl _
  | true => exact List.reverse_perm _

/-- The built-in order of a declared direction (40_registry R101). -/
theorem builtinOrder_declared (width : Nat) (declared : Bool) :
    builtinOrder width (if declared then 0b001 else 0b000) =
      some (if declared then List.range width else descending width) := by
  cases declared with
  | false => rfl
  | true => rfl

/-- An entry with a built-in order is sent most significant bit first when it is scanned as it was declared, and least
significant first when not (R147). -/
theorem slice_builtin (name : ByteString) (width value : Nat) (declared scanned : Bool) :
    slice ⟨name, if declared then List.range width else descending width, value⟩ scanned =
      (List.range width).map fun k => value.testBit (if declared = scanned then width - 1 - k else k) := by
  have hdesc : (descending width).map (fun p => value.testBit p) =
      (List.range width).map fun k => value.testBit (width - 1 - k) := by
    rw [descending_eq_map, List.map_map]
    rfl
  cases declared with
  | false =>
    cases scanned with
    | false => exact hdesc
    | true =>
      rw [slice_true]
      simp [descending, List.map_reverse]
  | true =>
    cases scanned with
    | false => rfl
    | true =>
      rw [slice_true, ← List.map_reverse]
      exact hdesc

/-- ADD_PARAM_DIR answers `OK` only with a legal width. -/
theorem width_of_addParamDir_ok {name : ByteString} {width initial : Word} {direction : BitVec 3}
    (h : exec (.addParamDir name width direction initial) s = .next t) (hok : HasStatus t .ok) :
    1 ≤ width.toNat ∧ width.toNat ≤ 30 := by
  obtain ⟨t', h', hstatus, -⟩ := addParamDirChecksInOrder s name width direction initial
  cases h.symm.trans h'
  by_contra hwidth
  rw [if_pos (by omega), HasStatus, hok] at hstatus
  cases hstatus

end

/-! ### The obligations -/

/-- Settles O35: an entry's order is a permutation of its bits. -/
theorem everyValueBitIsSentOnce : Obligations.EveryValueBitIsSentOnce := by
  intro s e rev hreg hok
  obtain ⟨-, -, hperm, -⟩ := hok
  refine ⟨slice e rev, ?_, (slice_perm e rev).trans (hperm.map _)⟩
  rw [exec_genBitvec, bitVector_plain, hreg, joinedSlices_singleton]

/-- Settles O36: the one entry has the built-in order of its declared direction. -/
theorem singleParameterExpandsInItsOrder : Obligations.SingleParameterExpandsInItsOrder := by
  intro s t name width initial declared scanned hreg h hok
  obtain ⟨hmin, hmax⟩ := width_of_addParamDir_ok h hok
  have hadd := execAddParamDir_of_order (s := s) hmin hmax (builtinOrder_declared width.toNat declared) name initial
  obtain rfl := addEntry_ok (hadd.symm.trans h) hok
  have hlen : (if declared then List.range width.toNat else descending width.toNat).length = width.toNat := by
    split
    · exact List.length_range
    · exact descending_length _
  rw [exec_genBitvec, bitVector_plain, State.respond_reg, State.appendEntry_reg, hreg, List.nil_append,
    joinedSlices_singleton, slice_builtin, hlen]
  rfl

end Sys2Proof.Machine
end

section
/-! PROOFS. Which operations answer (60_exceptions R250): the registry operations always, the others under a well-formed
descriptor (10_state R31), CONFIGURE_MATRIX unless the transport keeps silent (43_matrix_encoder R199). -/

namespace Sys2Proof.Machine

section
variable {i : Instr} {s : State} {r₁ r₂ : Result}

/-! ### Operations that answer (60_exceptions R250, 10_state R31) -/

/-- The outcome is a next state: neither a fault nor a refusal. -/
def Completes (r : Result) : Prop := ∃ t, r = .next t

theorem Completes.of_answer (s : State) (q : Results) : Completes (answer s q) := ⟨_, rfl⟩

theorem Completes.of_raise (s : State) (st : Status) (det : Detail) : Completes (raise s st det) := ⟨_, rfl⟩

theorem Completes.ite {c : Prop} [Decidable c] (h₁ : Completes r₁) (h₂ : Completes r₂) :
    Completes (if c then r₁ else r₂) := by
  split
  · exact h₁
  · exact h₂

theorem addEntry_completes (name : ByteString) (pos : List Nat) (initial : Nat) :
    Completes (addEntry s name pos initial) :=
  .ite (.of_raise _ _ _) (.ite (.of_raise _ _ _) (.ite (.of_raise _ _ _) (.of_answer _ _)))

theorem setParam_completes (key : Option Nat) (value : Nat) : Completes (setParam s key value) := by
  obtain ⟨st, heq, -⟩ | ⟨j, e, -, -, -, heq⟩ := setParam_cases (s := s) key value
  · exact heq ▸ .of_raise _ _ _
  · exact heq ▸ .of_answer _ _

/-- The registry operations answer under every descriptor (70_reset R273 a). -/
theorem exec_completes_of_registry (s : State) (hi : i.opcode.toNat < 0x20) : Completes (exec i s) := by
  cases i with
  | addParamDir name width direction initial =>
    refine .ite (.of_raise _ _ _) ?_
    cases builtinOrder width.toNat direction with
    | none => exact .of_raise _ _ _
    | some pos => exact addEntry_completes _ _ _
  | addParamOrd name order initial =>
    cases hparse : parseOrder order with
    | error st => exact exec_addParamOrd_of_error hparse name initial ▸ .of_raise _ _ _
    | ok pos => exact exec_addParamOrd_of_ok hparse name initial ▸ addEntry_completes _ _ _
  | setParamIdx | setParamName => exact setParam_completes _ _
  | getParamIdx | getParamName | getWidthIdx | getWidthName | getOrderIdx | getOrderName | getName | getIdx2Name
  | getName2Idx | clear | genBitvec => exact .of_answer _ _
  | _ => simp [Instr.opcode] at hi

/-- With an ill-formed descriptor the other operations refuse to run (10_state R31). -/
theorem exec_of_illFormed (hdesc : descWellFormed s.cfg.desc = false) (hi : 0x20 ≤ i.opcode.toNat) :
    exec i s = .refused .illFormedDescriptor := by
  cases i with
  | pcNew | pcSetBit | pcGetBit | pcSetSubfield | pcGetSubfield | pcSetNamed | pcGetNamed | pcSetLatches | pcEq
  | progMatrix | configureMatrix | nextField | decodeFrame | splitFrame =>
    simp only [exec, execPcNew, execPcSetBit, execPcGetBit, execPcSetSubfield, execPcGetSubfield, execPcSetNamed,
      execPcGetNamed, execPcSetLatches, execPcEq, execProgMatrix, execConfigureMatrix, execNextField, execDecodeFrame,
      execSplitFrame, withDesc_illFormed _ hdesc]
  | _ => simp [Instr.opcode] at hi

/-- Under a well-formed descriptor every operation but CONFIGURE_MATRIX answers. -/
theorem exec_completes (hdesc : descWellFormed s.cfg.desc = true) (hi : i.opcode ≠ 0x31#8) : Completes (exec i s) := by
  cases i with
  | pcNew => exact exec_pcNew hdesc ▸ .of_answer _ _
  | pcSetBit c index value => exact exec_pcSetBit hdesc c index value ▸ .ite (.of_raise _ _ _) (.of_answer _ _)
  | pcGetBit c index => exact exec_pcGetBit hdesc c index ▸ .ite (.of_raise _ _ _) (.of_answer _ _)
  | pcSetSubfield c offset fieldWidth value =>
    exact exec_pcSetSubfield hdesc c offset fieldWidth value ▸ .ite (.of_raise _ _ _) (.of_answer _ _)
  | pcGetSubfield c offset fieldWidth =>
    exact exec_pcGetSubfield hdesc c offset fieldWidth ▸ .ite (.of_raise _ _ _) (.of_answer _ _)
  | pcSetNamed c field value =>
    cases hfield : s.cfg.desc.layout.lookup field with
    | none => exact exec_pcSetNamed_of_unknown hdesc c hfield value ▸ .of_raise _ _ _
    | some ps => exact exec_pcSetNamed hdesc c hfield value ▸ .ite (.of_raise _ _ _) (.of_answer _ _)
  | pcGetNamed c field =>
    cases hfield : s.cfg.desc.layout.lookup field with
    | none => exact exec_pcGetNamed_of_unknown hdesc c hfield ▸ .of_raise _ _ _
    | some ps => exact exec_pcGetNamed hdesc c hfield ▸ .ite (.of_raise _ _ _) (.of_answer _ _)
  | pcSetLatches c value => exact exec_pcSetLatches hdesc c value ▸ .ite (.of_raise _ _ _) (.of_answer _ _)
  | pcEq a b => exact exec_pcEq hdesc a b ▸ .of_answer _ _
  | progMatrix m => exact exec_progMatrix hdesc m ▸ .of_answer _ _
  | configureMatrix => exact absurd rfl hi
  | nextField ws c => exact ⟨_, exec_nextField hdesc ws c⟩
  | decodeFrame ws => exact ⟨_, exec_decodeFrame hdesc rfl⟩
  | splitFrame ws => exact ⟨_, exec_splitFrame hdesc rfl⟩
  | _ => exact exec_completes_of_registry s (by simp [Instr.opcode])

/-- CONFIGURE_MATRIX is the one operation with opcode 0x31. -/
theorem eq_configureMatrix_of_opcode (hi : i.opcode = 0x31#8) : ∃ m n, i = .configureMatrix m n := by
  cases i with
  | configureMatrix m n => exact ⟨m, n, rfl⟩
  | _ => simp [Instr.opcode] at hi

/-- Unless the transport keeps silent, CONFIGURE_MATRIX answers too. -/
theorem exec_configureMatrix_completes (hdesc : descWellFormed s.cfg.desc = true)
    (h : VerifyAnswer.silent ∉ s.verifyAnswers) (m : Option Matrix) (n : Word) :
    Completes (exec (.configureMatrix m n) s) := by
  cases m with
  | none => exact exec_configureMatrix_none hdesc n ▸ .of_raise _ _ _
  | some m =>
    obtain ⟨u, hu, -⟩ := configureLoop_of_not_silent (progMatrixOut s.cfg.desc m)
      (attemptLimit s.cfg.desc n.toNat) 1 h
    exact ⟨u, (exec_configureMatrix hdesc m n).trans hu⟩

theorem exec_configureMatrix_ne_refused (hdesc : descWellFormed s.cfg.desc = true) (m : Option Matrix) (n : Word)
    (rf : Refusal) : exec (.configureMatrix m n) s ≠ .refused rf := by
  cases m with
  | none => simp [exec_configureMatrix_none hdesc]
  | some m => exact exec_configureMatrix hdesc m n ▸ configureLoop_ne_refused _ _ _ rf

/-- A fault comes only from behind the gate, from CONFIGURE_MATRIX and a silent transport (43_matrix_encoder R199). -/
theorem exec_fault {f : Fault} (h : exec i s = .fault f) :
    i.opcode = 0x31#8 ∧ VerifyAnswer.silent ∈ s.verifyAnswers := by
  have hnot : ¬ Completes (exec i s) := by
    rintro ⟨t, ht⟩
    cases ht.symm.trans h
  have hdesc : descWellFormed s.cfg.desc = true := by
    rw [← Bool.not_eq_false]
    intro hill
    by_cases hreg : i.opcode.toNat < 0x20
    · exact hnot (exec_completes_of_registry s hreg)
    · cases (exec_of_illFormed hill (Nat.not_lt.mp hreg)).symm.trans h
  have hi : i.opcode = 0x31#8 := by
    by_contra hi
    exact hnot (exec_completes hdesc hi)
  refine ⟨hi, ?_⟩
  by_contra hsilent
  obtain ⟨m, n, rfl⟩ := eq_configureMatrix_of_opcode hi
  exact hnot (exec_configureMatrix_completes hdesc hsilent m n)

end

/-! ### The obligations -/

/-- Settles O16: after `k` failed attempts a silent answer stops the loop. -/
theorem onlyASilentTransportStopsTheMachine : Obligations.OnlyASilentTransportStopsTheMachine := by
  refine ⟨fun i s f h => exec_fault h, fun s m maxAttempts k rest hdesc hk hanswers => ?_⟩
  rw [← attemptLimit_eq] at hk
  obtain ⟨n, hn⟩ := Nat.exists_eq_add_of_lt hk
  rw [exec_configureMatrix hdesc, hn, Nat.add_assoc, configureLoop_of_mismatches _ hanswers,
    configureLoop_of_silent _ rfl]

/-- Settles O18, by the two sides of opcode 0x20. -/
theorem onlyDescriptorOperationsNeedTheDescriptor : Obligations.OnlyDescriptorOperationsNeedTheDescriptor := by
  intro i s hdesc
  split
  next hi => exact exec_completes_of_registry s hi
  next hi => exact exec_of_illFormed hdesc (Nat.not_lt.mp hi)

end Sys2Proof.Machine
end

section
/-! PROOFS. The invariant of the machine (10_state R23, R26, R33; 30_encoding R75, R82): what a response may hold, that every
operation keeps the registry's part, and what an operation leaves as it was. -/

namespace Sys2Proof.Machine

section
variable {i : Instr} {s t : State} {d : Desc} {r : Result}

/-! ### What a response may hold (10_state R33, 30_encoding R75, R82) -/

/-- If the outcome is a next state, it holds a response that keeps to the widths of `d`. -/
def RespondsOk (d : Desc) (r : Result) : Prop := ∀ t, r = .next t → ∃ q, t.resp = some q ∧ ResponseOk d q

theorem RespondsOk.of_answer (s : State) {q : Results} (h : ResultsOk d q) : RespondsOk d (answer s q) := by
  rintro t ⟨⟩
  exact ⟨_, rfl, .inl rfl, h⟩

theorem RespondsOk.of_raise (s : State) (st : Status) (det : Detail) : RespondsOk d (raise s st det) := by
  rintro t ⟨⟩
  exact ⟨_, rfl, .inr (.inr rfl), trivial⟩

theorem RespondsOk.of_respond (s : State) {q : Response} (h : ResponseOk d q) :
    RespondsOk d (.next (s.respond q)) := by
  rintro t ⟨⟩
  exact ⟨q, rfl, h⟩

theorem RespondsOk.of_refused (rf : Refusal) : RespondsOk d (.refused rf) := by
  rintro t ⟨⟩

theorem RespondsOk.check {c : Prop} [Decidable c] {st : Status} {det : Detail} (h : ¬ c → RespondsOk d r) :
    RespondsOk d (if c then raise s st det else r) := by
  split
  · exact .of_raise _ _ _
  next hc => exact h hc

theorem addEntry_respondsOk (name : ByteString) (pos : List Nat) (initial : Nat) :
    RespondsOk d (addEntry s name pos initial) :=
  .check fun _ => .check fun _ => .check fun _ => .of_answer _ trivial

theorem setParam_respondsOk (key : Option Nat) (value : Nat) : RespondsOk d (setParam s key value) := by
  obtain ⟨st, heq, -⟩ | ⟨j, e, -, -, -, heq⟩ := setParam_cases (s := s) key value
  · exact heq ▸ .of_raise _ _ _
  · exact heq ▸ .of_answer _ trivial

theorem configureLoop_respondsOk (out : MatrixOut) (n a : Nat) : RespondsOk d (configureLoop out n a s) := by
  induction n generalizing a s with
  | zero => exact .of_raise _ _ _
  | succ n ih =>
    rw [configureLoop_succ]
    split
    · exact .of_answer _ trivial
    · exact ih _
    · rintro t ⟨⟩

theorem fieldValueOk_lt {w v : Nat} (h : FieldValueOk w v) : v < 2 ^ w := by
  obtain rfl | ⟨-, hlt⟩ := h
  · exact Nat.two_pow_pos w
  · exact hlt

section
variable (hdesc : descWellFormed s.cfg.desc = true)
include hdesc

theorem exec_pcSetNamed_respondsOk (c : Cell) (field : ByteString) (value : Nat) :
    RespondsOk s.cfg.desc (exec (.pcSetNamed c field value) s) := by
  cases hfield : s.cfg.desc.layout.lookup field with
  | none => exact exec_pcSetNamed_of_unknown hdesc c hfield value ▸ .of_raise _ _ _
  | some ps =>
    rw [exec_pcSetNamed hdesc c hfield]
    refine .check fun hin => .of_answer _ ?_
    exact putPieces_lt (latchesOf_lt _ _) (piecesOutside_eq_false.mp (Bool.not_eq_true _ ▸ hin)) _ _

theorem exec_pcGetNamed_respondsOk (c : Cell) (field : ByteString) :
    RespondsOk s.cfg.desc (exec (.pcGetNamed c field) s) := by
  cases hfield : s.cfg.desc.layout.lookup field with
  | none => exact exec_pcGetNamed_of_unknown hdesc c hfield ▸ .of_raise _ _ _
  | some ps => exact exec_pcGetNamed hdesc c hfield ▸ .check fun _ => .of_answer _ trivial

theorem exec_configureMatrix_respondsOk (m : Option Matrix) (n : Word) :
    RespondsOk s.cfg.desc (exec (.configureMatrix m n) s) := by
  cases m with
  | none => exact exec_configureMatrix_none hdesc n ▸ .of_raise _ _ _
  | some m => exact exec_configureMatrix hdesc m n ▸ configureLoop_respondsOk _ _ _

theorem exec_nextField_respondsOk (ws : List Word) (c : Cursor) :
    RespondsOk s.cfg.desc (exec (.nextField ws c) s) := by
  obtain ⟨hw, -⟩ := descWellFormed_decoder hdesc
  rw [exec_nextField hdesc]
  refine .of_respond s ?_
  cases hfield : nextFieldAt s.cfg.desc.w ws (cursorIn c) with
  | eos p => exact ⟨.inr (.inl rfl), .inl rfl⟩
  | field v p => exact ⟨.inl rfl, (holdsAt_of_nextFieldAt hw hfield).1⟩
  | truncated => exact ⟨.inr (.inr rfl), trivial⟩

/-- A decoded cell holds a field read, which is no wider than the cell (10_state R31). -/
theorem exec_decodeFrame_respondsOk (ws : List Word) : RespondsOk s.cfg.desc (exec (.decodeFrame ws) s) := by
  obtain ⟨hw, -, hrd, -⟩ := descWellFormed_decoder hdesc
  rw [exec_decodeFrame hdesc rfl]
  refine .of_respond s ?_
  cases hframe : decodeFrameOf s.cfg.desc ws with
  | error e => exact ⟨.inr (.inr rfl), trivial⟩
  | ok q =>
    obtain ⟨fs, hreads, -, hcells⟩ := decodeFrameOf_ok hframe
    obtain ⟨hfs, -⟩ := hreads.holdsAt hw (Nat.zero_le _)
    refine ⟨.inl rfl, fun e he => ?_⟩
    obtain ⟨hkind, hmem⟩ := hcells e he
    rw [CellOk, hkind]
    exact (fieldValueOk_lt (hfs _ hmem)).trans_le (Nat.pow_le_pow_right (by omega) hrd)

theorem exec_splitFrame_respondsOk (ws : List Word) : RespondsOk s.cfg.desc (exec (.splitFrame ws) s) := by
  obtain ⟨hw, -⟩ := descWellFormed_decoder hdesc
  obtain ⟨fs, p', hreads, hloop⟩ := splitLoop_cases s.cfg.desc ws (frameFieldCount s.cfg.desc) posStart
  obtain ⟨hfs, -⟩ := hreads.holdsAt hw (Nat.zero_le _)
  obtain ⟨-, heq⟩ | ⟨-, -, heq⟩ | ⟨-, -, heq⟩ := hloop
  all_goals
    rw [exec_splitFrame hdesc heq]
    refine .of_respond s ?_
  · exact ⟨.inl rfl, hfs⟩
  · refine ⟨.inr (.inl rfl), fun v hv => ?_⟩
    obtain hv | hv := List.mem_append.mp hv
    · exact hfs v hv
    · exact .inl (List.eq_of_mem_replicate hv)
  · exact ⟨.inr (.inr rfl), trivial⟩

/-- Under a well-formed descriptor the operations that need it keep to its widths. -/
theorem exec_respondsOk_of_wellFormed (hi : 0x20 ≤ i.opcode.toNat) : RespondsOk s.cfg.desc (exec i s) := by
  cases i with
  | pcNew =>
    obtain ⟨-, hlatches, -⟩ := descWellFormed_cells hdesc
    exact exec_pcNew hdesc ▸ .of_answer s hlatches
  | pcSetBit c index value =>
    rw [exec_pcSetBit hdesc]
    exact .check fun hindex => .of_answer _ (putBits_lt _ _ _ _ _ (Nat.lt_of_not_le hindex))
  | pcGetBit c index => exact exec_pcGetBit hdesc c index ▸ .check fun _ => .of_answer _ trivial
  | pcSetSubfield c offset fieldWidth value =>
    rw [exec_pcSetSubfield hdesc]
    exact .check fun hspan => .of_answer _ (putBits_lt _ _ _ _ _ (by simpa [spanOutside] using hspan))
  | pcGetSubfield c offset fieldWidth =>
    exact exec_pcGetSubfield hdesc c offset fieldWidth ▸ .check fun _ => .of_answer _ trivial
  | pcSetNamed c field value => exact exec_pcSetNamed_respondsOk hdesc c field value
  | pcGetNamed c field => exact exec_pcGetNamed_respondsOk hdesc c field
  | pcSetLatches c value =>
    rw [exec_pcSetLatches hdesc]
    exact .check fun hrange => .of_answer _ (Nat.lt_of_not_le hrange)
  | pcEq a b => exact exec_pcEq hdesc a b ▸ .of_answer _ trivial
  | progMatrix m => exact exec_progMatrix hdesc m ▸ .of_answer _ trivial
  | configureMatrix m n => exact exec_configureMatrix_respondsOk hdesc m n
  | nextField ws c => exact exec_nextField_respondsOk hdesc ws c
  | decodeFrame ws => exact exec_decodeFrame_respondsOk hdesc ws
  | splitFrame ws => exact exec_splitFrame_respondsOk hdesc ws
  | _ => simp [Instr.opcode] at hi

end

/-- The registry operations' responses hold no cell and no field. -/
theorem exec_respondsOk_of_registry (s : State) (hi : i.opcode.toNat < 0x20) : RespondsOk d (exec i s) := by
  cases i with
  | addParamDir name width direction initial =>
    refine .check fun _ => ?_
    cases builtinOrder width.toNat direction with
    | none => exact .of_raise _ _ _
    | some pos => exact addEntry_respondsOk _ _ _
  | addParamOrd name order initial =>
    cases hparse : parseOrder order with
    | error st => exact exec_addParamOrd_of_error hparse name initial ▸ .of_raise _ _ _
    | ok pos => exact exec_addParamOrd_of_ok hparse name initial ▸ addEntry_respondsOk _ _ _
  | setParamIdx | setParamName => exact setParam_respondsOk _ _
  | getParamIdx | getParamName | getWidthIdx | getWidthName | getOrderIdx | getOrderName | getName | getIdx2Name
  | getName2Idx | clear | genBitvec => exact .of_answer _ trivial
  | _ => simp [Instr.opcode] at hi

/-- Whatever operation answers, the state holds its response, which keeps to the descriptor's widths. -/
theorem exec_respondsOk (i : Instr) (s : State) : RespondsOk s.cfg.desc (exec i s) := by
  by_cases hreg : i.opcode.toNat < 0x20
  · exact exec_respondsOk_of_registry s hreg
  · cases hdesc : descWellFormed s.cfg.desc with
    | false => exact exec_of_illFormed hdesc (Nat.not_lt.mp hreg) ▸ .of_refused _
    | true => exact exec_respondsOk_of_wellFormed hdesc (Nat.not_lt.mp hreg)

/-! ### The registry's invariant (10_state R23, R26) -/

/-- AddParameter keeps the registry's invariant, given a legal order. -/
theorem addEntry_registryOk {name : ByteString} {pos : List Nat} {initial : Nat} (hs : RegistryOk s.reg)
    (hmin : 1 ≤ pos.length) (hmax : pos.length ≤ 30) (hperm : pos.Perm (List.range pos.length))
    (h : addEntry s name pos initial = .next t) : RegistryOk t.reg := by
  obtain ⟨st, herr, -⟩ | ⟨hok, hname, hnew, -⟩ := addEntry_cases (s := s) name pos initial
  · cases herr.symm.trans h
    exact hs
  · cases hok.symm.trans h
    obtain ⟨hentries, hnodup⟩ := hs
    have hne : name ≠ [] := fun hnil => by
      have := (nameBad_iff s.cfg name).mpr (.inl hnil)
      rw [hname] at this
      cases this
    have hclamp : clampValue initial pos.length < 2 ^ pos.length := by
      have := Nat.two_pow_pos pos.length
      rw [clampValue, maskN]
      omega
    rw [resolveName_eq_none] at hnew
    refine ⟨fun e he => ?_, ?_⟩
    · obtain he | he := List.mem_append.mp he
      · exact hentries e he
      · obtain rfl := List.mem_singleton.mp he
        exact ⟨hmin, hmax, hperm, hclamp, hne⟩
    · rw [State.respond_reg, State.appendEntry_reg, List.map_append, List.map_singleton,
        List.nodup_append]
      refine ⟨hnodup, List.nodup_singleton _, ?_⟩
      intro n hn n' hn' heq
      obtain ⟨e, he, rfl⟩ := List.mem_map.mp hn
      obtain rfl := List.mem_singleton.mp hn'
      exact hnew e he heq

/-- SetParameter keeps the registry's invariant: the value it writes fits. -/
theorem setParam_registryOk {key : Option Nat} {value : Nat} (hs : RegistryOk s.reg)
    (h : setParam s key value = .next t) : RegistryOk t.reg := by
  obtain ⟨st, herr, -⟩ | ⟨j, e, -, hj, hfits, hok⟩ := setParam_cases (s := s) key value
  · cases herr.symm.trans h
    exact hs
  · have hst : HasStatus t .ok := by
      cases hok.symm.trans h
      rfl
    obtain ⟨-, -, hnames⟩ := setParam_ok h hst
    obtain ⟨hentries, hnodup⟩ := hs
    refine ⟨fun e' he' => ?_, hnames ▸ hnodup⟩
    cases hok.symm.trans h
    rw [State.respond_reg, State.setEntryValue_reg_of_getElem? hj] at he'
    obtain he' | rfl := List.mem_or_eq_of_mem_set he'
    · exact hentries e' he'
    · obtain ⟨hmin, hmax, hperm, -, hne⟩ := hentries e (List.mem_of_getElem? hj)
      exact ⟨hmin, hmax, hperm, hfits, hne⟩

/-- A built-in order lists the bits below the width (40_registry R101). -/
theorem builtinOrder_perm {width : Nat} {dir : BitVec 3} {pos : List Nat} (h : builtinOrder width dir = some pos) :
    pos.Perm (List.range width) := by
  unfold builtinOrder at h
  split at h
  · cases h
    exact List.reverse_perm _
  split at h
  · cases h
    exact .refl _
  · cases h

theorem execAddParamDir_registryOk {name : ByteString} {width initial : Word} {dir : BitVec 3} (hs : RegistryOk s.reg)
    (h : execAddParamDir name width dir initial s = .next t) : RegistryOk t.reg := by
  unfold execAddParamDir at h
  split at h
  · cases h
    exact hs
  next hwidth =>
    simp only [widthMin, widthMax] at hwidth
    split at h
    · cases h
      exact hs
    next pos hpos =>
      have hperm := builtinOrder_perm hpos
      have hlen : pos.length = width.toNat := by simpa using hperm.length_eq
      exact addEntry_registryOk hs (by omega) (by omega) (hlen ▸ hperm) h

theorem exec_addParamOrd_registryOk {name order : ByteString} {initial : Word} (hs : RegistryOk s.reg)
    (h : exec (.addParamOrd name order initial) s = .next t) : RegistryOk t.reg := by
  cases hparse : parseOrder order with
  | error st =>
    cases (exec_addParamOrd_of_error hparse name initial).symm.trans h
    exact hs
  | ok pos =>
    obtain ⟨hmin, hmax, hperm⟩ := parseOrder_legal hparse
    exact addEntry_registryOk hs hmin hmax hperm ((exec_addParamOrd_of_ok hparse name initial).symm.trans h)

/-- Every operation keeps the registry's invariant. -/
theorem exec_registryOk (hs : RegistryOk s.reg) (h : exec i s = .next t) : RegistryOk t.reg := by
  cases i with
  | addParamDir => exact execAddParamDir_registryOk hs h
  | addParamOrd => exact exec_addParamOrd_registryOk hs h
  | setParamIdx | setParamName => exact setParam_registryOk hs h
  | _ =>
    obtain hreg | ⟨hi, -⟩ | ⟨hi, -⟩ | ⟨-, hreg⟩ := onlyFiveOperationsWriteTheRegistry _ s t h
    · exact hreg ▸ hs
    · simp [Instr.opcode] at hi
    · simp [Instr.opcode] at hi
    · exact hreg ▸ ⟨by simp, List.nodup_nil⟩

theorem fetch_illegal {s' : State} (h : fetch s = .illegal s') : ∃ rest, s' = s.takeRequest rest := by
  unfold fetch at h
  split at h
  · cases h
  · cases h
    exact ⟨_, rfl⟩
  · cases h
  · cases h
  · cases h

end

/-! ### The obligations -/

/-- Settles O14, by the effect each operation can have. -/
theorem onlyConfigureMatrixMeetsTheTransport : Obligations.OnlyConfigureMatrixMeetsTheTransport := by
  intro i s t h
  cases exec_effect h with
  | responded q => exact ⟨rfl, rfl, rfl, fun _ => ⟨rfl, rfl, rfl⟩⟩
  | appended hi e => exact ⟨rfl, rfl, rfl, fun _ => ⟨rfl, rfl, rfl⟩⟩
  | valueSet hi j e v hj => exact ⟨rfl, rfl, rfl, fun _ => ⟨rfl, rfl, rfl⟩⟩
  | cleared hi => exact ⟨rfl, rfl, rfl, fun _ => ⟨rfl, rfl, rfl⟩⟩
  | transported hi t hreg hcfg hport hline => exact ⟨hport, hline, hcfg, fun hne => absurd hi hne⟩

/-- Settles O9: an operation keeps the registry's invariant and leaves a response that keeps to the widths; the other
steps respond without results, or not at all. -/
theorem everyStepKeepsInvariant : Obligations.EveryStepKeepsInvariant := by
  intro s t hs hstep
  obtain ⟨hreg, hresp⟩ := hs
  obtain ⟨-, rfl⟩ | ⟨-, -, rfl⟩ | ⟨-, i, s', hfetch, hexec⟩ | ⟨-, s', hfetch, rfl⟩ := step_cases hstep
  · refine ⟨⟨by simp, List.nodup_nil⟩, fun r hr => ?_⟩
    cases hr
  · exact ⟨hreg, hresp⟩
  · obtain ⟨rest, -, rfl⟩ := fetch_run i s' hfetch
    obtain ⟨-, -, hcfg, -⟩ := onlyConfigureMatrixMeetsTheTransport i _ t hexec
    obtain ⟨q, hq, hok⟩ := exec_respondsOk i (s.takeRequest rest) t hexec
    refine ⟨exec_registryOk (s := s.takeRequest rest) hreg hexec, fun r hr => ?_⟩
    cases hq.symm.trans hr
    exact hcfg ▸ hok
  · obtain ⟨rest, rfl⟩ := fetch_illegal hfetch
    refine ⟨hreg, fun r hr => ?_⟩
    cases hr
    exact ⟨.inr (.inr rfl), trivial⟩

/-- Settles O10: no operation writes the configuration, nor do the other steps. -/
theorem noStepWritesTheDescriptor : Obligations.NoStepWritesTheDescriptor := by
  intro s t hstep
  obtain ⟨-, rfl⟩ | ⟨-, -, rfl⟩ | ⟨-, i, s', hfetch, hexec⟩ | ⟨-, s', hfetch, rfl⟩ := step_cases hstep
  · rfl
  · rfl
  · obtain ⟨rest, -, rfl⟩ := fetch_run i s' hfetch
    obtain ⟨-, -, hcfg, -⟩ := onlyConfigureMatrixMeetsTheTransport i _ t hexec
    exact hcfg
  · obtain ⟨rest, rfl⟩ := fetch_illegal hfetch
    rfl

/-- Settles O12: an append leaves the entries before it, and a value is all that SetParameter writes. -/
theorem entriesKeepIndexNameAndOrder : Obligations.EntriesKeepIndexNameAndOrder := by
  intro i s t hne h j e hj
  cases exec_effect h with
  | responded q => exact ⟨e.value, hj⟩
  | appended hi e' => exact ⟨e.value, (List.getElem?_append_left (List.getElem?_eq_some_iff.mp hj).1).trans hj⟩
  | valueSet hi j' e' v hj' =>
    rw [State.respond_reg, State.setEntryValue_reg_of_getElem? hj']
    by_cases hjj : j' = j
    · subst hjj
      cases hj.symm.trans hj'
      exact ⟨v, List.getElem?_set_self (List.getElem?_eq_some_iff.mp hj).1⟩
    · exact ⟨e.value, (List.getElem?_set_ne hjj).trans hj⟩
  | cleared hi => exact absurd hi hne
  | transported hi t hreg => exact ⟨e.value, hreg ▸ hj⟩

/-- Settles O13: whatever writes more than the response answers `OK`, or is CONFIGURE_MATRIX. -/
theorem errorsLeaveTheStateUnchanged : Obligations.ErrorsLeaveTheStateUnchanged := by
  intro i s t r h hr hok heos
  obtain ⟨q, hq, hresults, -⟩ := exec_respondsOk i s t h
  cases hq.symm.trans hr
  refine ⟨(hresults.resolve_left hok).resolve_left heos, ?_⟩
  cases exec_effect h with
  | responded q =>
    cases hr
    exact ⟨rfl, rfl, fun _ => rfl⟩
  | appended hi e =>
    cases hr
    exact absurd rfl hok
  | valueSet hi j e v hj =>
    cases hr
    exact absurd rfl hok
  | cleared hi =>
    cases hr
    exact absurd rfl hok
  | transported hi t hreg hcfg => exact ⟨hreg, hcfg, fun hne => absurd hi hne⟩

/-- Settles O17: only an ill-formed descriptor is refused, and every next state holds a response. -/
theorem everyOperationAnswersUnderAWellFormedDescriptor :
    Obligations.EveryOperationAnswersUnderAWellFormedDescriptor := by
  intro i s hdesc
  have hresp {t : State} (h : exec i s = .next t) : t.resp.isSome = true := by
    obtain ⟨q, hq, -⟩ := exec_respondsOk i s t h
    rw [hq]
    rfl
  by_cases hi : i.opcode = 0x31#8
  · obtain ⟨m, n, rfl⟩ := eq_configureMatrix_of_opcode hi
    refine ⟨exec_configureMatrix_ne_refused hdesc m n, fun hsilent => ?_⟩
    obtain ⟨t, ht⟩ := exec_configureMatrix_completes hdesc hsilent m n
    exact ⟨t, ht, hresp ht⟩
  · obtain ⟨t, ht⟩ := exec_completes hdesc hi
    refine ⟨fun r hr => ?_, fun _ => ⟨t, ht, hresp ht⟩⟩
    cases hr.symm.trans ht

end Sys2Proof.Machine
end

section
/-! PROOFS. What an operation depends on (20_memory R61): two states with one registry and one configuration answer the same. -/

namespace Sys2Proof.Machine

section
variable {i : Instr} {r₁ r₂ : Result}

/-! ### Two states with one registry and one configuration (20_memory R61) -/

/-- A next state from the first outcome has one from the second with the same response and the same registry. -/
def SameAnswer (r₁ r₂ : Result) : Prop :=
  ∀ t₁, r₁ = .next t₁ → ∃ t₂, r₂ = .next t₂ ∧ t₂.resp = t₁.resp ∧ t₂.reg = t₁.reg

section
variable {s₁ s₂ u₁ u₂ : State} {r₁' r₂' : Result}

theorem SameAnswer.of_respond (hreg : u₁.reg = u₂.reg) (q : Response) :
    SameAnswer (.next (u₁.respond q)) (.next (u₂.respond q)) := by
  rintro t ⟨⟩
  exact ⟨_, rfl, rfl, hreg.symm⟩

theorem SameAnswer.of_answer (hreg : u₁.reg = u₂.reg) {q₁ q₂ : Results} (hq : q₁ = q₂) :
    SameAnswer (answer u₁ q₁) (answer u₂ q₂) := hq ▸ .of_respond hreg _

theorem SameAnswer.of_raise (hreg : u₁.reg = u₂.reg) (st : Status) (det : Detail) :
    SameAnswer (raise u₁ st det) (raise u₂ st det) := .of_respond hreg _

theorem SameAnswer.ite {c₁ c₂ : Prop} [Decidable c₁] [Decidable c₂] (hc : c₁ ↔ c₂) (h : SameAnswer r₁ r₂)
    (h' : SameAnswer r₁' r₂') : SameAnswer (if c₁ then r₁ else r₁') (if c₂ then r₂ else r₂') := by
  by_cases hc₁ : c₁
  · rwa [if_pos hc₁, if_pos (hc.mp hc₁)]
  · rwa [if_neg hc₁, if_neg (mt hc.mpr hc₁)]

section
variable (hreg : s₁.reg = s₂.reg)
include hreg

theorem setParam_sameAnswer (key : Option Nat) (value : Nat) :
    SameAnswer (setParam s₁ key value) (setParam s₂ key value) := by
  unfold setParam
  cases key with
  | none => exact .of_raise hreg _ _
  | some j =>
    simp only [← hreg]
    cases s₁.reg[j]? with
    | none => exact .of_raise hreg _ _
    | some e =>
      exact .ite Iff.rfl (.of_raise hreg _ _)
        (.of_answer (by rw [State.setEntryValue_reg, State.setEntryValue_reg, hreg]) rfl)

variable (hcfg : s₁.cfg = s₂.cfg)
include hcfg

theorem addEntry_sameAnswer (name : ByteString) (pos : List Nat) (initial : Nat) :
    SameAnswer (addEntry s₁ name pos initial) (addEntry s₂ name pos initial) :=
  .ite (by rw [hcfg]) (.of_raise hreg _ _) <|
    .ite (by rw [hreg]) (.of_raise hreg _ _) <|
      .ite (by rw [regFull_eq, regFull_eq, hreg, hcfg]) (.of_raise hreg _ _) <|
        .of_answer (congrArg (· ++ _) hreg) rfl

theorem exec_sameAnswer_of_registry (hi : i.opcode.toNat < 0x20) : SameAnswer (exec i s₁) (exec i s₂) := by
  cases i with
  | addParamDir name width direction initial =>
    refine .ite Iff.rfl (.of_raise hreg _ _) ?_
    cases builtinOrder width.toNat direction with
    | none => exact .of_raise hreg _ _
    | some pos => exact addEntry_sameAnswer hreg hcfg _ _ _
  | addParamOrd name order initial =>
    cases hparse : parseOrder order with
    | error st =>
      rw [exec_addParamOrd_of_error hparse, exec_addParamOrd_of_error hparse]
      exact .of_raise hreg _ _
    | ok pos =>
      rw [exec_addParamOrd_of_ok hparse, exec_addParamOrd_of_ok hparse]
      exact addEntry_sameAnswer hreg hcfg _ _ _
  | setParamIdx index value =>
    rw [exec_setParamIdx, exec_setParamIdx, hreg]
    exact setParam_sameAnswer hreg _ _
  | setParamName name value =>
    rw [exec_setParamName, exec_setParamName, hreg]
    exact setParam_sameAnswer hreg _ _
  | getParamIdx | getParamName | getWidthIdx | getWidthName | getOrderIdx | getOrderName | getName | getIdx2Name
  | getName2Idx | genBitvec => exact .of_answer hreg (by rw [hreg])
  | clear => exact SameAnswer.of_answer (u₁ := s₁.clearReg) (u₂ := s₂.clearReg) rfl rfl
  | _ => simp [Instr.opcode] at hi

theorem exec_sameAnswer_of_wellFormed (hdesc : descWellFormed s₁.cfg.desc = true) (hi : 0x20 ≤ i.opcode.toNat)
    (hne : i.opcode ≠ 0x31#8) : SameAnswer (exec i s₁) (exec i s₂) := by
  have hdesc' : descWellFormed s₂.cfg.desc = true := hcfg ▸ hdesc
  have hcheck (c : Prop) [Decidable c] (st : Status) (q : Results) :
      SameAnswer (if c then raise s₁ st .none else answer s₁ q) (if c then raise s₂ st .none else answer s₂ q) :=
    .ite Iff.rfl (.of_raise hreg _ _) (.of_answer hreg rfl)
  cases i with
  | pcNew =>
    rw [exec_pcNew hdesc, exec_pcNew hdesc', hcfg]
    exact .of_answer hreg rfl
  | pcSetBit =>
    rw [exec_pcSetBit hdesc, exec_pcSetBit hdesc', hcfg]
    exact hcheck _ _ _
  | pcGetBit =>
    rw [exec_pcGetBit hdesc, exec_pcGetBit hdesc', hcfg]
    exact hcheck _ _ _
  | pcSetSubfield =>
    rw [exec_pcSetSubfield hdesc, exec_pcSetSubfield hdesc', hcfg]
    exact hcheck _ _ _
  | pcGetSubfield =>
    rw [exec_pcGetSubfield hdesc, exec_pcGetSubfield hdesc', hcfg]
    exact hcheck _ _ _
  | pcSetNamed c field value =>
    cases hfield : s₁.cfg.desc.layout.lookup field with
    | none =>
      rw [exec_pcSetNamed_of_unknown hdesc c hfield, exec_pcSetNamed_of_unknown hdesc' c (hcfg ▸ hfield)]
      exact .of_raise hreg _ _
    | some ps =>
      rw [exec_pcSetNamed hdesc c hfield, exec_pcSetNamed hdesc' c (hcfg ▸ hfield), hcfg]
      exact hcheck _ _ _
  | pcGetNamed c field =>
    cases hfield : s₁.cfg.desc.layout.lookup field with
    | none =>
      rw [exec_pcGetNamed_of_unknown hdesc c hfield, exec_pcGetNamed_of_unknown hdesc' c (hcfg ▸ hfield)]
      exact .of_raise hreg _ _
    | some ps =>
      rw [exec_pcGetNamed hdesc c hfield, exec_pcGetNamed hdesc' c (hcfg ▸ hfield), hcfg]
      exact hcheck _ _ _
  | pcSetLatches =>
    rw [exec_pcSetLatches hdesc, exec_pcSetLatches hdesc', hcfg]
    exact hcheck _ _ _
  | pcEq a b =>
    rw [exec_pcEq hdesc, exec_pcEq hdesc', hcfg]
    exact .of_answer hreg rfl
  | progMatrix =>
    rw [exec_progMatrix hdesc, exec_progMatrix hdesc', hcfg]
    exact .of_answer hreg rfl
  | configureMatrix => exact absurd rfl hne
  | nextField =>
    rw [exec_nextField hdesc, exec_nextField hdesc', hcfg]
    exact .of_respond hreg _
  | decodeFrame ws =>
    rw [exec_decodeFrame hdesc (r := decodeFrameOf s₂.cfg.desc ws) (by rw [hcfg]), exec_decodeFrame hdesc' rfl]
    exact .of_respond hreg _
  | splitFrame ws =>
    have hloop : splitLoop s₁.cfg.desc ws (frameFieldCount s₁.cfg.desc) [] false posStart =
        splitLoop s₂.cfg.desc ws (frameFieldCount s₂.cfg.desc) [] false posStart := by rw [hcfg]
    rw [exec_splitFrame hdesc hloop, exec_splitFrame hdesc' rfl]
    exact .of_respond hreg _
  | _ => simp [Instr.opcode] at hi

end
end

end

/-! ### The obligations -/

/-- Settles O15: what an operation asks of the state is its registry and its configuration. -/
theorem responsesDependOnRegistryAndDescriptorOnly : Obligations.ResponsesDependOnRegistryAndDescriptorOnly := by
  intro i s₁ s₂ t₁ hne hreg hcfg h
  by_cases hi : i.opcode.toNat < 0x20
  · exact exec_sameAnswer_of_registry hreg hcfg hi t₁ h
  · cases hdesc : descWellFormed s₁.cfg.desc with
    | false => cases (exec_of_illFormed hdesc (Nat.not_lt.mp hi)).symm.trans h
    | true => exact exec_sameAnswer_of_wellFormed hreg hcfg hdesc (Nat.not_lt.mp hi) hne t₁ h

end Sys2Proof.Machine
end
